-- ==== Sys2Proof/Word.lean ====
section
/-! DEFINITION. The word types of the block: a byte (spec 00_scope.md R12) and a 32-bit bus word (R8, BUS_W). -/

namespace Sys2Proof

/-- A byte, an integer 0..255 (R12). -/
abbrev Byte := BitVec 8

/-- One 32-bit word of the host bus (R8 BUS_W, R51). -/
abbrev Word := BitVec 32

/-- A byte sequence: a finite list of bytes (R12). -/
abbrev Bytes := List Byte

end Sys2Proof
end

