-- ==== Sys2Proof/Syntax.lean ====
section
/-! DEFINITION. The commands of the block: one constructor per row of spec/opcode_table.json. -/

namespace Sys2Proof

/-- A legal command: its operation and the two operand fields of its word as the integers of 30_encoding.md
R72, `alg = uint_4(c[11:8])` and `digits = uint_8(c[23:16])`. Commands that do not use a field still carry it
(an argument whose name begins with an underscore): it is ignored by the meaning (R73, D43) but CMD reads it
back (10_state.md R42). -/
inductive Instr where
  /-- 0x01 B32ENC (R106). -/
  | b32enc (_alg _digits : Nat)
  /-- 0x02 B32DEC (R107). -/
  | b32dec (_alg _digits : Nat)
  /-- 0x03 TRUNC (R148). -/
  | trunc (_alg digits : Nat)
  /-- 0x10 HOTPGEN (R163). -/
  | hotpgen (alg digits : Nat)
  /-- 0x11 HOTPVER (R166). -/
  | hotpver (alg digits : Nat)
  /-- 0x20 TOTPGEN (R184). -/
  | totpgen (alg digits : Nat)
  /-- 0x21 TOTPVER (R187). -/
  | totpver (alg digits : Nat)
  /-- 0x22 TSTEP (R182). -/
  | tstep (_alg _digits : Nat)
  /-- 0x23 TREM (R183). -/
  | trem (_alg _digits : Nat)
deriving DecidableEq, Repr

/-- The ALG field of a command (R71). -/
def Instr.alg : Instr → Nat
  | .b32enc a _ => a
  | .b32dec a _ => a
  | .trunc a _ => a
  | .hotpgen a _ => a
  | .hotpver a _ => a
  | .totpgen a _ => a
  | .totpver a _ => a
  | .tstep a _ => a
  | .trem a _ => a

/-- The DIGITS field of a command (R71). -/
def Instr.digits : Instr → Nat
  | .b32enc _ d => d
  | .b32dec _ d => d
  | .trunc _ d => d
  | .hotpgen _ d => d
  | .hotpver _ d => d
  | .totpgen _ d => d
  | .totpver _ d => d
  | .tstep _ d => d
  | .trem _ d => d

end Sys2Proof
end

