-- ==== Sys2Proof/WellFormed.lean ====
section
/-! DEFINITION. Which commands a command word can carry: ALG is a 4-bit and DIGITS an 8-bit unsigned field
(30_encoding.md R71, R80). No other check belongs to the encoding: operand validity is checked at execution
(R77). -/

namespace Sys2Proof

/-- ALG fits its 4 bits. -/
abbrev Instr.algFits (i : Instr) : Prop := i.alg < 16

/-- DIGITS fits its 8 bits. -/
abbrev Instr.digitsFits (i : Instr) : Prop := i.digits < 256

/-- A command some 32-bit word encodes. -/
abbrev Instr.WellFormed (i : Instr) : Prop := i.algFits ∧ i.digitsFits

end Sys2Proof
end

