-- ==== Sys2Proof/Decode.lean ====
section
/-! DEFINITION. Decoding and encoding of the command word (30_encoding.md R70-R76, R80). -/

namespace Sys2Proof

/-- Why a command word is illegal (R75). Such a word is still accepted; it completes with IllegalCommand. -/
inductive Illegal where
  /-- Some bit of the reserved fields c[31:24] or c[15:12] is 1. -/
  | reservedBits
  /-- OP is none of the nine values of R73. -/
  | unassignedOp
deriving DecidableEq, Repr

/-- OP, bits 7:0 (R72). -/
def fieldOp (c : Word) : Nat := (c.extractLsb' 0 8).toNat

/-- ALG, bits 11:8 (R72). -/
def fieldAlg (c : Word) : Nat := (c.extractLsb' 8 4).toNat

/-- DIGITS, bits 23:16, zero-extended (R72). -/
def fieldDigits (c : Word) : Nat := (c.extractLsb' 16 8).toNat

/-- The reserved bits, RSV1 (31:24) above RSV0 (15:12) (R72). -/
def fieldRsv (c : Word) : BitVec 12 := c.extractLsb' 24 8 ++ c.extractLsb' 12 4

/-- The operation an OP value selects (R73), given the two operand fields. -/
def instrOfOp (op alg digits : Nat) : Option Instr :=
  if op = 0x01 then some (.b32enc alg digits)
  else if op = 0x02 then some (.b32dec alg digits)
  else if op = 0x03 then some (.trunc alg digits)
  else if op = 0x10 then some (.hotpgen alg digits)
  else if op = 0x11 then some (.hotpver alg digits)
  else if op = 0x20 then some (.totpgen alg digits)
  else if op = 0x21 then some (.totpver alg digits)
  else if op = 0x22 then some (.tstep alg digits)
  else if op = 0x23 then some (.trem alg digits)
  else none

/-- Decoding is total (R76): every word is one of the nine operations or illegal by name (R75). -/
def decode (c : Word) : Except Illegal Instr :=
  if fieldRsv c ≠ 0 then .error .reservedBits
  else
    match instrOfOp (fieldOp c) (fieldAlg c) (fieldDigits c) with
    | some i => .ok i
    | none => .error .unassignedOp

/-- The OP value of a command (R73). -/
def opOf : Instr → Nat
  | .b32enc _ _ => 0x01
  | .b32dec _ _ => 0x02
  | .trunc _ _ => 0x03
  | .hotpgen _ _ => 0x10
  | .hotpver _ _ => 0x11
  | .totpgen _ _ => 0x20
  | .totpver _ _ => 0x21
  | .tstep _ _ => 0x22
  | .trem _ _ => 0x23

/-- The command word: reserved byte, DIGITS, reserved nibble, ALG, OP, most significant first (R71, R80). -/
def encode (i : Instr) : Word :=
  (0 : BitVec 8) ++ BitVec.ofNat 8 i.digits ++ (0 : BitVec 4) ++ BitVec.ofNat 4 i.alg ++ BitVec.ofNat 8 (opOf i)

/-- The mask every row of the opcode map tests: OP and both reserved fields (R73). -/
def opcodeMask : Word := 0xFF00F0FF

/-- The instruction the decoder reads from a table word: the low `nbits` bits of `w`, every bit above them
zero. A command is one 32-bit word (R70), so there is nothing to lay out. -/
def decodeTableWord (nbits w : Nat) : Option Instr :=
  match decode (BitVec.ofNat 32 (w % 2 ^ nbits)) with
  | .ok i => some i
  | .error _ => none

end Sys2Proof
end

