-- ==== Sys2Proof/Config.lean ====
section
/-! DEFINITION. What an implementation fixes (the named parameters of spec 00_scope.md R8 and the HMAC
oracle of 41_hmac_interface.md R120) and the free values (opaque, no body: nothing can evaluate them). -/

namespace Sys2Proof

/-- The closed set of HMAC algorithms (00_scope.md R2, 30_encoding.md R74). -/
inductive Alg where
  | sha1
  | sha256
  | sha512
  | sm3
deriving DecidableEq, Repr

/-- The type of the HMAC unit: algorithm, key and message give a digest (R120). -/
abbrev Oracle := Alg → Bytes → Bytes → Bytes

/-- L(alg), the digest length a conformant HMAC unit returns (R9, R121). The block never relies on it. -/
def Alg.digestLength : Alg → Nat
  | .sha1 => 20
  | .sha256 => 32
  | .sha512 => 64
  | .sm3 => 32

/-- The external HMAC unit (R120): any function, deterministic because it is a function. DESIGN CHOICE
(safe, log entry 2): opaque, so no proof can see a digest. -/
opaque Config.hmac : Oracle

/-- The n-th free byte: what a host read of a buffer byte that was never written returns (20_memory.md R58).
Free value (safe, log entry 4). -/
opaque Config.freeByte : Nat → Byte

/-- The n-th free delay: how many host steps a command takes when the state's plain-data schedule does not
say (70_reset_and_hazards.md R236: unspecified and finite). Free value (log entry 3). -/
opaque Config.freeDelay : Nat → Nat

/-- One recorded answer of the HMAC unit: what it returns for one request. -/
structure HmacAnswer where
  alg : Alg
  key : Bytes
  msg : Bytes
  digest : Bytes
deriving DecidableEq, Repr

/-- The parameters of 00_scope.md R8 that the document leaves open. They are configuration (10_state.md R41):
State carries them as plain data that no step writes, so that a theorem about every state is a theorem about
every configuration (DESIGN CHOICE, safe, log entry 1). -/
structure Params where
  /-- SECRET_MAX, capacity of SECRET_MEM in bytes. -/
  secretMax : Nat
  /-- DIN_MAX, capacity of DIN_MEM in bytes. -/
  dinMax : Nat
  /-- DIGEST_MAX, the most digest bytes the HMAC interface can carry. -/
  digestMax : Nat
  /-- Answers of the HMAC unit known for this configuration; every other request is answered by
  `Config.hmac` (log entry 2). -/
  hmacAnswers : List HmacAnswer
deriving DecidableEq, Repr

/-- The legal configurations of R8: SECRET_MAX and DIN_MAX multiples of 4 in their ranges, DIGEST_MAX at
least 64. -/
abbrev Params.legal (p : Params) : Prop :=
  p.secretMax % 4 = 0 ∧ 4 ≤ p.secretMax ∧ p.secretMax ≤ 4096 ∧
  p.dinMax % 4 = 0 ∧ 4 ≤ p.dinMax ∧ p.dinMax ≤ 2560 ∧ 64 ≤ p.digestMax

/-- The defaults of R8 (SECRET_MAX = DIN_MAX = 256); DIGEST_MAX at its least legal value and no recorded
answer (DESIGN CHOICE, log entries 1 and 2). -/
def Params.default : Params :=
  { secretMax := 256, dinMax := 256, digestMax := 64, hmacAnswers := [] }

end Sys2Proof
end

