-- ==== Sys2Proof/Machine/State.lean ====
section
/-! DEFINITION. The state of the block and of the host that drives it (spec 10_state.md R20-R45), as plain
data, and the names of everything that can stop a step. -/

namespace Sys2Proof.Machine

/-- The error kinds of 60_exceptions.md R200. They are reported in STATUS.ERR; they never stop the model. -/
inductive ErrKind where
  | invalidSecret
  | invalidCounter
  | invalidDigits
  | invalidPeriod
  | unsupportedAlgorithm
  | truncationOutOfRange
  | illegalCommand
  | lengthOutOfRange
deriving DecidableEq, Repr

/-- Why the evaluation of a command ends early. -/
inductive Stop where
  /-- The command raises an error kind (00_scope.md R13, `raise E`). -/
  | err (k : ErrKind)
  /-- The command reads a buffer byte nothing has written since reset, at this bus address (R35). -/
  | uninit (a : Nat)
deriving DecidableEq, Repr

/-- The write of CODE_VAL, CODE_LEN and CODE_MEM (R30): the value, the width and the rendered digits. -/
structure CodeWrite where
  val : Word
  len : Word
  text : Bytes
deriving DecidableEq, Repr

/-- The write of RES_FLAGS.SUCCESS and DELTA (R31). -/
structure VerifyWrite where
  success : Bool
  delta : BitVec 64
deriving DecidableEq, Repr

/-- The writes of a successful command, by the columns of R29; `none` leaves those results unchanged. -/
structure Writes where
  code : Option CodeWrite := none
  verify : Option VerifyWrite := none
  rctr : Option (BitVec 64) := none
  rem : Option (BitVec 64) := none
  dout : Option Bytes := none
deriving DecidableEq, Repr

/-- The outcome a command in flight will commit (R37). -/
inductive CmdOutcome where
  | error (k : ErrKind)
  | ok (ws : Writes)
deriving DecidableEq, Repr

/-- The width of a host access; only `word` exists on the bus (20_memory.md R51), the others are bus errors
(R52). -/
inductive AccessWidth where
  | byte
  | half
  | word
deriving DecidableEq, Repr

/-- The host-visible registers (R20, R55). -/
inductive Reg where
  | cmd | status
  | ctrLo | ctrHi | ctrExt
  | window | period | tsLo | tsHi
  | secretLen | tokenLen | dinLen
  | codeVal | codeLen | resFlags
  | deltaLo | deltaHi | rctrLo | rctrHi | remLo | remHi
  | doutLen
deriving DecidableEq, Repr

/-- The five buffers (R20, R56). -/
inductive Buf where
  | secret | token | din | dout | code
deriving DecidableEq, Repr

/-- What a mapped word address names: a register, or the buffer whose byte of index `k` sits there. -/
inductive Target where
  | reg (r : Reg)
  | buf (b : Buf) (k : Nat)
deriving DecidableEq, Repr

/-- A call of the document's function surface by the host's driver (30_encoding.md R84). Texts are byte
sequences (00_scope.md R12), also the algorithm tag. -/
inductive Call where
  | base32Encode (bytes : Bytes)
  | base32Decode (text : Bytes)
  | hotpGenerate (secret : Bytes) (counter digits : Int) (algorithm : Bytes)
  | hotpVerify (token secret : Bytes) (counter digits : Int) (algorithm : Bytes) (window : Int)
  | totpGenerate (secret : Bytes) (period digits timestamp : Int) (algorithm : Bytes)
  | totpVerify (token secret : Bytes) (period digits window timestamp : Int) (algorithm : Bytes)
  | timeStep (timestamp period : Int)
  | timeRemaining (timestamp period : Int)
deriving DecidableEq, Repr

/-- What a driver call returned (R84). -/
inductive CallResult where
  /-- The command ended with this non-zero STATUS.ERR. -/
  | failed (err : BitVec 4)
  /-- A byte sequence: codec output or a code. -/
  | bytes (b : Bytes)
  /-- A verification; `delta` is none exactly when it did not succeed. -/
  | verified (success : Bool) (delta : Option Int)
  /-- A time step. -/
  | step (n : Int)
  /-- Seconds remaining, an exact rational. -/
  | seconds (q : Rat)
deriving DecidableEq, Repr

/-- One thing the host agent does (R17, 20_memory.md R61, 30_encoding.md R81). -/
inductive HostOp where
  /-- A bus read. -/
  | read (a : BitVec 16) (w : AccessWidth)
  /-- A bus write. -/
  | write (a : BitVec 16) (w : AccessWidth) (v : Word)
  /-- WAIT: poll STATUS until BUSY = 0 (R81). -/
  | wait
  /-- The reset input is asserted and released (70_reset_and_hazards.md R230, R231). -/
  | reset
  /-- A driver call starts: its arguments are encoded and its bus accesses begin (R83, R84). -/
  | call (c : Call)
  /-- A driver call reads its result back after WAIT (R84). -/
  | collect (c : Call)
deriving DecidableEq, Repr

/-- The driver arguments that can lie outside their register's range (R83). -/
inductive ApiArg where
  | counter | period | timestamp | window | secret
deriving DecidableEq, Repr

/-- The model faults of 60_exceptions.md R215. Both are safe: the model stops where the hardware goes on. -/
inductive Fault where
  /-- Raised by a host bus access that is misaligned, not a word or unmapped (20_memory.md R52); `write` says
  whether it was a write. Safe: the run stops, and no claim about what follows can be proved. -/
  | busError (write : Bool) (a : BitVec 16) (w : AccessWidth)
  /-- Raised at issue by a command that reads a buffer byte nothing has written since reset, at bus address
  `a` (10_state.md R35). Safe: the hardware goes on with whatever byte its RAM holds. -/
  | uninitRead (a : Nat)
deriving DecidableEq, Repr

/-- What the model refuses. -/
inductive Refusal where
  /-- Raised by an instruction that has no meaning in the model, by its mnemonic. Safe. No arm raises it. -/
  | notModelled (mnemonic : String)
  /-- Raised by the host's driver, before any bus access, for an argument its register cannot hold
  (30_encoding.md R83 OperandOutOfRange, 60_exceptions.md R215). Safe. -/
  | operandOutOfRange (argument : ApiArg)
deriving DecidableEq, Repr

/-- The buffer bytes by bus address (20_memory.md R53): addresses strictly rising, no entry equal to what an
unlisted address reads as (`Memory.wf` in Machine/Ops.lean). -/
abbrev Memory := List Host.Cell

/-- The machine: the registers and hidden state of 10_state.md R20-R40, the configuration, and the host agent.
A register wider than one bus word is stored once (R54). STATUS.BUSY is `inflight.isSome` (R37). -/
structure State where
  /-- CMD: the last accepted command word (R42). -/
  cmd : Word
  /-- STATUS.DONE (R33). -/
  done : Bool
  /-- STATUS.ERR (R33, R200). -/
  err : BitVec 4
  /-- STATUS.DROPPED (R33, R36). -/
  dropped : Bool
  /-- CTR_LO, counter bits 31:0 (R23). -/
  ctrLo : Word
  /-- CTR_HI, counter bits 63:32 (R23). -/
  ctrHi : Word
  /-- CTR_EXT[0], counter bit 64, the sign (R23). -/
  ctrExt : BitVec 1
  /-- WINDOW (R24). -/
  window : Word
  /-- PERIOD (R25). -/
  period : Word
  /-- TS_LO (R26). -/
  tsLo : Word
  /-- TS_HI (R26). -/
  tsHi : Word
  /-- SECRET_LEN[15:0] (R27). -/
  secretLen : BitVec 16
  /-- TOKEN_LEN[15:0] (R27). -/
  tokenLen : BitVec 16
  /-- DIN_LEN[15:0] (R27). -/
  dinLen : BitVec 16
  /-- SECRET_MEM, TOKEN_MEM, DIN_MEM, DOUT_MEM and CODE_MEM by bus address (R20, R53, R56). -/
  mem : Memory
  /-- CODE_VAL (R30). -/
  codeVal : Word
  /-- CODE_LEN (R30). -/
  codeLen : Word
  /-- RES_FLAGS.SUCCESS (R31). -/
  success : Bool
  /-- DELTA_HI above DELTA_LO (R31). -/
  delta : BitVec 64
  /-- RCTR_HI above RCTR_LO (R32). -/
  rctr : BitVec 64
  /-- REM_HI above REM_LO (R32). -/
  rem : BitVec 64
  /-- DOUT_LEN (R32). -/
  doutLen : Word
  /-- The command in flight and the outcome it will commit (R37). -/
  inflight : Option (Word × CmdOutcome)
  /-- The configuration (R8, R41): no step writes it. -/
  cfg : Params
  /-- Model's own: host steps still to pass before the command in flight completes (R236, log entry 3). -/
  delay : Nat
  /-- Model's own: delays of the commands still to be issued; past its end they are free (log entry 3). -/
  delays : List Nat
  /-- Model's own: how many free values have been drawn (log entries 3, 4). -/
  draws : Nat
  /-- Model's own: what the host agent still does, next first (R61, log entry 7). -/
  host : List HostOp
  /-- Model's own: the words the host's reads returned, oldest first (R239). -/
  observed : List Word
  /-- Model's own: the values the host's driver calls returned, oldest first (R84). -/
  returned : List CallResult
deriving DecidableEq, Repr

/-- The state after reset (70_reset_and_hazards.md R230): every register 0, nothing in flight, output buffers
0x00 and input buffers unwritten (no cell listed). The configuration is the default of R8; the model's own
fields are empty (log entries 1, 3, 7). -/
def State.reset : State :=
  { cmd := 0, done := false, err := 0, dropped := false,
    ctrLo := 0, ctrHi := 0, ctrExt := 0, window := 0, period := 0, tsLo := 0, tsHi := 0,
    secretLen := 0, tokenLen := 0, dinLen := 0, mem := [],
    codeVal := 0, codeLen := 0, success := false, delta := 0, rctr := 0, rem := 0, doutLen := 0,
    inflight := none, cfg := Params.default,
    delay := 0, delays := [], draws := 0, host := [], observed := [], returned := [] }

/-- STATUS.BUSY: a command is in flight (R33, R37). -/
def State.busy (s : State) : Bool := s.inflight.isSome

end Sys2Proof.Machine
end

