-- ==== Sys2Proof/Machine/Flags.lean ====
section
/-! DEFINITION. The flags of STATUS and RES_FLAGS (10_state.md R31, R33, R34) and the error codes
(60_exceptions.md R200). The block has no arithmetic flags. -/

namespace Sys2Proof.Machine

/-- The code of an error kind in STATUS.ERR (R200); 0 is NONE and 9..15 are never produced. -/
def errCode : ErrKind → BitVec 4
  | .invalidSecret => 1
  | .invalidCounter => 2
  | .invalidDigits => 3
  | .invalidPeriod => 4
  | .unsupportedAlgorithm => 5
  | .truncationOutOfRange => 6
  | .illegalCommand => 7
  | .lengthOutOfRange => 8

/-- One flag as a bit. -/
def flagBit (b : Bool) : BitVec 1 := BitVec.ofBool b

/-- STATUS as the host reads it (R33): DROPPED at 8, ERR at 7:4, DONE at 1, BUSY at 0, every other bit 0. -/
def statusWord (s : State) : Word :=
  (0 : BitVec 23) ++ flagBit s.dropped ++ s.err ++ (0 : BitVec 2) ++ flagBit s.done ++ flagBit s.busy

/-- RES_FLAGS as the host reads it (R31): SUCCESS at bit 0, every other bit 0. -/
def resFlagsWord (s : State) : Word := (0 : BitVec 31) ++ flagBit s.success

/-- A host write to STATUS while BUSY = 0: bit 8 set clears DROPPED, and nothing else happens (R33, R57). -/
def writeStatus (v : Word) (s : State) : State :=
  { s with dropped := s.dropped && !v.getLsbD 8 }

/-- A host write is ignored because BUSY = 1 (R36). -/
def dropWrite (s : State) : State := { s with dropped := true }

end Sys2Proof.Machine
end

