-- ==== Sys2Proof/Machine/Ops.lean ====
section
/-! DEFINITION. The named operations over memory, buffers and the command life cycle: issue and completion
(10_state.md R43, R44), error entry (60_exceptions.md R213) and reset (70_reset_and_hazards.md R230, R231). -/

namespace Sys2Proof.Machine

/-! ### Memory -/

/-- What an unlisted address reads as (10_state.md R20, R35): 0x00 in the windows of DOUT_MEM and CODE_MEM,
which reset to 0x00; no value in the windows of the host-writable buffers, whose bytes are unwritten. -/
def unlisted (a : Nat) : Option Byte :=
  if 0x4000 ≤ a ∧ a < 0x6000 then some 0 else none

/-- The canonical form: addresses strictly rising, no entry equal to what an unlisted address reads as. -/
abbrev Memory.wf (m : Memory) : Prop :=
  m.Pairwise (fun x y => x.1 < y.1) ∧ ∀ c ∈ m, unlisted c.1 ≠ some c.2

/-- The listed byte at an address. -/
def memFind : Memory → Nat → Option Byte
  | [], _ => none
  | (k, b) :: m, a => if k = a then some b else memFind m a

/-- The byte at an address; `none` is a byte nothing has written since reset (R35). -/
def memGet (m : Memory) (a : Nat) : Option Byte :=
  match memFind m a with
  | some b => some b
  | none => unlisted a

/-- The list without any entry for an address. -/
def memErase (m : Memory) (a : Nat) : Memory := m.filter (fun c => c.1 != a)

/-- The list with the entry for an address set, in rising order. -/
def memInsert : Memory → Nat → Byte → Memory
  | [], a, v => [(a, v)]
  | (k, b) :: m, a, v =>
    if a < k then (a, v) :: (k, b) :: m
    else if a = k then (a, v) :: m
    else (k, b) :: memInsert m a v

/-- Write one byte, keeping the canonical form. -/
def memSet (m : Memory) (a : Nat) (v : Byte) : Memory :=
  if unlisted a = some v then memErase m a else memInsert m a v

/-- Write a byte sequence at rising addresses from `a` on. -/
def memSetBytes (m : Memory) (a : Nat) : Bytes → Memory
  | [] => m
  | b :: bs => memSetBytes (memSet m a b) (a + 1) bs

/-- Take every entry for the `n` addresses from `a` on off the list: they read as unlisted again. -/
def memUnlist (m : Memory) (a n : Nat) : Memory := m.filter (fun c => !(a ≤ c.1 && c.1 < a + n))

/-- The `n` bytes from `a` on, or the first address among them that nothing has written (R35). -/
def memGetBytes (m : Memory) (a : Nat) : Nat → Except Nat Bytes
  | 0 => .ok []
  | n + 1 =>
    match memGet m a with
    | none => .error a
    | some b =>
      match memGetBytes m (a + 1) n with
      | .ok bs => .ok (b :: bs)
      | .error e => .error e

/-! ### Buffers -/

/-- DOUT_MAX = 8 * ceil(DIN_MAX / 5) (00_scope.md R8). -/
def doutMax (p : Params) : Nat := 8 * ((p.dinMax + 4) / 5)

/-- TOKEN_MAX (R8). -/
def tokenMax : Nat := 16

/-- The bytes of CODE_MEM (R20). -/
def codeMemBytes : Nat := 12

/-- Window base of a buffer (20_memory.md R56). -/
def bufBase : Buf → Nat
  | .secret => 0x1000
  | .token => 0x2000
  | .din => 0x3000
  | .dout => 0x4000
  | .code => 0x5000

/-- Mapped bytes of a buffer (R56). -/
def bufCap (p : Params) : Buf → Nat
  | .secret => p.secretMax
  | .token => tokenMax
  | .din => p.dinMax
  | .dout => doutMax p
  | .code => codeMemBytes

/-- Whether the host may write a buffer (R20, R56). -/
def bufWritable : Buf → Bool
  | .secret => true
  | .token => true
  | .din => true
  | .dout => false
  | .code => false

/-- Bytes 0 .. n-1 of a buffer as a command reads them; an unwritten byte among them ends the command in the
model fault UninitRead (R35, 70_reset_and_hazards.md R233; log entry 5). -/
def readBuf (s : State) (b : Buf) (n : Nat) : Except Stop Bytes :=
  match memGetBytes s.mem (bufBase b) n with
  | .ok bs => .ok bs
  | .error a => .error (.uninit a)

/-- A command writes an output buffer (R30, R32): its first bytes hold `bs`, all its other bytes 0x00, which is
what the bytes of an output buffer read as when unlisted. -/
def writeOutput (p : Params) (m : Memory) (b : Buf) (bs : Bytes) : Memory :=
  memSetBytes (memUnlist m (bufBase b) (bufCap p b)) (bufBase b) bs

/-! ### The command life cycle -/

/-- End a command with an error kind (00_scope.md R13). -/
def raise {α : Type} (k : ErrKind) : Except Stop α := .error (.err k)

/-- How many host steps the next command takes (70_reset_and_hazards.md R236): what the schedule says, or a
free number (DESIGN CHOICE, log entry 3). -/
def nextDelay (s : State) : Nat :=
  match s.delays with
  | d :: _ => d
  | [] => Config.freeDelay s.draws

/-- Issue (10_state.md R43): command word `c` is accepted with the outcome it will commit. -/
def issued (c : Word) (o : CmdOutcome) (s : State) : State :=
  { s with
    cmd := c
    done := false
    err := 0
    inflight := some (c, o)
    delay := nextDelay s
    delays := s.delays.tail
    draws := if s.delays.isEmpty then s.draws + 1 else s.draws }

/-- The write of command word `c`, whose evaluation gave `r`: dropped while BUSY = 1 (R36); issued with its
outcome otherwise (R43, R79); the model fault UninitRead where the command reads an unwritten byte (R35). -/
def issueCommand (c : Word) (r : Except Stop Writes) (s : State) : Host.Outcome State Fault Refusal :=
  if s.busy then .next (dropWrite s)
  else
    match r with
    | .ok ws => .next (issued c (.ok ws) s)
    | .error (.err k) => .next (issued c (.error k) s)
    | .error (.uninit a) => .fault (.uninitRead a)

/-- Buffer memory after the writes of a command: CODE_MEM and DOUT_MEM (R29). -/
def commitMem (p : Params) (ws : Writes) (m : Memory) : Memory :=
  let m₁ := match ws.code with
    | some c => writeOutput p m .code c.text
    | none => m
  match ws.dout with
  | some o => writeOutput p m₁ .dout o
  | none => m₁

/-- All writes of a successful command at once (R29, R44). -/
def commit (ws : Writes) (s : State) : State :=
  { s with
    codeVal := (ws.code.map (·.val)).getD s.codeVal
    codeLen := (ws.code.map (·.len)).getD s.codeLen
    success := (ws.verify.map (·.success)).getD s.success
    delta := (ws.verify.map (·.delta)).getD s.delta
    rctr := ws.rctr.getD s.rctr
    rem := ws.rem.getD s.rem
    doutLen := (ws.dout.map (fun o => BitVec.ofNat 32 o.length)).getD s.doutLen
    mem := commitMem s.cfg ws s.mem }

/-- Error entry (60_exceptions.md R213): ERR holds the code; no result, buffer or operand changes. -/
def enterError (k : ErrKind) (s : State) : State := { s with err := errCode k }

/-- The outcome a command in flight leaves (10_state.md R44). -/
def applyOutcome (o : CmdOutcome) (s : State) : State :=
  match o with
  | .error k => enterError k s
  | .ok ws => commit ws { s with err := 0 }

/-- Completion, the sequencer's one step (R44): enabled exactly while a command is in flight. -/
def complete (s : State) : State :=
  match s.inflight with
  | none => s
  | some (_, o) => { applyOutcome o s with done := true, inflight := none, delay := 0 }

/-- The reset input asserted and released (70_reset_and_hazards.md R230): every register and buffer as after
reset; a command in flight is abandoned (R231). What is not the block's stays: the configuration and the
host agent (log entry 9). -/
def resetBlock (s : State) : State :=
  { State.reset with
    cfg := s.cfg, delays := s.delays, draws := s.draws,
    host := s.host, observed := s.observed, returned := s.returned }

end Sys2Proof.Machine
end

