-- ==== Sys2Proof/Machine/Operands.lean ====
section
/-! DEFINITION. Every operand form of the commands (10_state.md R23-R28, 30_encoding.md R78) and the checks on
operands (60_exceptions.md R201-R206). -/

namespace Sys2Proof.Machine

/-- CTR, the 65-bit two's-complement counter operand (R23). -/
def counterOperand (s : State) : Int := (s.ctrExt ++ s.ctrHi ++ s.ctrLo).toInt

/-- w, the window radius (R24). -/
def windowRadius (s : State) : Nat := s.window.toNat

/-- P, the period in whole seconds (R25). -/
def periodSeconds (s : State) : Int := s.period.toInt

/-- TS, the timestamp in milliseconds (R26). -/
def timestampMillis (s : State) : Int := (s.tsHi ++ s.tsLo).toInt

/-- S, the secret (R28, R78). -/
def secretOperand (s : State) : Except Stop Bytes := readBuf s .secret s.secretLen.toNat

/-- T, the token (R28, R78). -/
def tokenOperand (s : State) : Except Stop Bytes := readBuf s .token s.tokenLen.toNat

/-- I, the input of the codec and truncation commands (R28, R78). -/
def dinOperand (s : State) : Except Stop Bytes := readBuf s .din s.dinLen.toNat

/-- LengthOutOfRange when a length register exceeds its buffer's capacity (60_exceptions.md R203). -/
def checkLength (len cap : Nat) : Except Stop Unit :=
  if len > cap then raise .lengthOutOfRange else .ok ()

/-- InvalidSecret exactly when SECRET_LEN = 0 (43_hotp.md R161). -/
def checkSecret (s : State) : Except Stop Unit :=
  if s.secretLen = 0 then raise .invalidSecret else .ok ()

/-- InvalidCounter for a negative counter (43_hotp.md R162). -/
def checkCounter (c : Int) : Except Stop Unit :=
  if c < 0 then raise .invalidCounter else .ok ()

/-- InvalidDigits for a width outside [6, 10] (42_truncation.md R149). -/
def checkDigits (d : Nat) : Except Stop Unit :=
  if d < 6 ∨ d > 10 then raise .invalidDigits else .ok ()

/-- InvalidPeriod for a period that is not positive (44_totp.md R181). -/
def checkPeriod (s : State) : Except Stop Unit :=
  if periodSeconds s ≤ 0 then raise .invalidPeriod else .ok ()

/-- Algorithm dispatch (41_hmac_interface.md R125, 30_encoding.md R74). -/
def dispatchAlg (alg : Nat) : Except Stop Alg :=
  if alg = 0 then .ok .sha1
  else if alg = 1 then .ok .sha256
  else if alg = 2 then .ok .sha512
  else if alg = 3 then .ok .sm3
  else raise .unsupportedAlgorithm

end Sys2Proof.Machine
end

