-- ==== Sys2Proof/Machine/Base32.lean ====
section
/-! DEFINITION. The Base32 codec and its commands B32ENC and B32DEC (40_base32.md R100-R110). -/

namespace Sys2Proof.Machine

/-- The 5-bit value of an alphabet character; no other byte has one (R100). -/
def charValue (ch : Byte) : Option (BitVec 5) :=
  if 0x41 ≤ ch.toNat ∧ ch.toNat ≤ 0x5A then some (BitVec.ofNat 5 (ch.toNat - 0x41))
  else if 0x32 ≤ ch.toNat ∧ ch.toNat ≤ 0x37 then some (BitVec.ofNat 5 (ch.toNat - 0x32 + 26))
  else none

/-- The alphabet character of a 5-bit value (R100). -/
def valueChar (v : BitVec 5) : Byte :=
  if v.toNat ≤ 25 then BitVec.ofNat 8 (0x41 + v.toNat) else BitVec.ofNat 8 (0x32 + (v.toNat - 26))

/-- The bits of a word, most significant first. -/
def bitsOf {w : Nat} (v : BitVec w) : List Bool := (List.range w).map v.getMsbD

/-- The bits of a sequence of words, each most significant first, as one bit string (R101, R105). -/
def bitString {w : Nat} (vs : List (BitVec w)) : List Bool := vs.flatMap bitsOf

/-- A 5-bit group read most significant bit first. -/
def group5 (a b c d e : Bool) : BitVec 5 :=
  BitVec.ofBool a ++ BitVec.ofBool b ++ BitVec.ofBool c ++ BitVec.ofBool d ++ BitVec.ofBool e

/-- Cut a bit string into 5-bit groups from its start; a last group of fewer than 5 bits is filled on the right
with 0 bits (R101). -/
def groups5 : List Bool → List (BitVec 5)
  | a :: b :: c :: d :: e :: rest => group5 a b c d e :: groups5 rest
  | [a, b, c, d] => [group5 a b c d false]
  | [a, b, c] => [group5 a b c false false]
  | [a, b] => [group5 a b false false false]
  | [a] => [group5 a false false false false]
  | [] => []

/-- Each complete 8 bits of a bit string as one byte, most significant bit first; fewer than 8 bits left over at
the end are discarded (R105). -/
def groups8 : List Bool → Bytes
  | a :: b :: c :: d :: e :: f :: g :: h :: rest =>
    (BitVec.ofBool a ++ BitVec.ofBool b ++ BitVec.ofBool c ++ BitVec.ofBool d ++
      BitVec.ofBool e ++ BitVec.ofBool f ++ BitVec.ofBool g ++ BitVec.ofBool h) :: groups8 rest
  | _ => []

/-- The padding character '=' (R102). -/
def padChar : Byte := 0x3D

/-- The fewest '=' that bring `n` characters to a multiple of 8 (R101, R102). -/
def padCount (n : Nat) : Nat := (8 - n % 8) % 8

/-- The alphabet characters of an encoding, before padding (R101). -/
def base32Chars (b : Bytes) : Bytes := (groups5 (bitString b)).map valueChar

/-- base32Encode (R101, R102). -/
def base32Encode (b : Bytes) : Bytes :=
  base32Chars b ++ List.replicate (padCount (base32Chars b).length) padChar

/-- ASCII lower-case letters become upper case, every other byte is unchanged (R103). -/
def foldCase (ch : Byte) : Byte := if 0x61 ≤ ch.toNat ∧ ch.toNat ≤ 0x7A then ch - 0x20 else ch

/-- The values of the characters that are kept, in order; every other byte is skipped (R103, R104). -/
def base32Values (s : Bytes) : List (BitVec 5) := s.filterMap (fun ch => charValue (foldCase ch))

/-- base32Decode (R105). It has no error outcome. -/
def base32Decode (s : Bytes) : Bytes := groups8 (bitString (base32Values s))

/-- B32ENC_exec (R106). -/
def b32encResult (s : State) : Except Stop Writes := do
  checkLength s.dinLen.toNat (bufCap s.cfg .din)
  let i ← dinOperand s
  pure { dout := some (base32Encode i) }

/-- B32DEC_exec (R107). -/
def b32decResult (s : State) : Except Stop Writes := do
  checkLength s.dinLen.toNat (bufCap s.cfg .din)
  let i ← dinOperand s
  pure { dout := some (base32Decode i) }

/-- B32ENC (R106): ALG and DIGITS ignored. -/
def execB32enc (alg digits : Nat) (s : State) : Host.Outcome State Fault Refusal :=
  issueCommand (encode (.b32enc alg digits)) (b32encResult s) s

/-- B32DEC (R107): ALG and DIGITS ignored. -/
def execB32dec (alg digits : Nat) (s : State) : Host.Outcome State Fault Refusal :=
  issueCommand (encode (.b32dec alg digits)) (b32decResult s) s

end Sys2Proof.Machine
end

