-- ==== Sys2Proof/Machine/Truncation.lean ====
section
/-! DEFINITION. The dynamic truncation unit and its command TRUNC (42_truncation.md R140-R152). -/

namespace Sys2Proof.Machine

/-- The offset: the low 4 bits of the last digest byte (R141). -/
def truncOffset (last : Byte) : Nat := last.toNat % 16

/-- Byte `k` of a digest; only applied below its length (R143). -/
def digestByte (dig : Bytes) (k : Nat) : Byte := dig.getD k 0

/-- The 31-bit slice of four digest bytes, the top bit of the first discarded (R144). -/
def truncBinary (dig : Bytes) (offset : Nat) : Nat :=
  ((digestByte dig offset).extractLsb' 0 7 ++ digestByte dig (offset + 1) ++ digestByte dig (offset + 2) ++
    digestByte dig (offset + 3)).toNat

/-- One decimal digit as an ASCII byte. -/
def digitChar (n : Nat) : Byte := BitVec.ofNat 8 (0x30 + n % 10)

/-- The `d` decimal digits of `v`, most significant first, zero-padded (R147). -/
def renderDigits (v d : Nat) : Bytes := (List.range d).map (fun j => digitChar (v / 10 ^ (d - 1 - j)))

/-- truncate (R140): the code value and its rendering, or TruncationOutOfRange for a digest that is empty
(R142) or too short for the four bytes at the offset (R143). -/
def truncate (dig : Bytes) (d : Nat) : Except ErrKind (Nat × Bytes) :=
  match dig.getLast? with
  | none => .error .truncationOutOfRange
  | some last =>
    if truncOffset last + 4 > dig.length then .error .truncationOutOfRange
    else
      let v := truncBinary dig (truncOffset last) % 10 ^ d
      .ok (v, renderDigits v d)

/-- The same result inside a command. -/
def liftErr {α : Type} (r : Except ErrKind α) : Except Stop α :=
  match r with
  | .ok x => .ok x
  | .error k => raise k

/-- The code results of a command: CODE_VAL, CODE_LEN and CODE_MEM (10_state.md R30). -/
def codeWrite (d v : Nat) (text : Bytes) : CodeWrite :=
  { val := BitVec.ofNat 32 v, len := BitVec.ofNat 32 d, text := text }

/-- TRUNC_exec (R148). -/
def truncResult (d : Nat) (s : State) : Except Stop Writes := do
  checkLength s.dinLen.toNat (bufCap s.cfg .din)
  checkDigits d
  let i ← dinOperand s
  let (v, r) ← liftErr (truncate i d)
  pure { code := some (codeWrite d v r) }

/-- TRUNC (R148): ALG ignored. -/
def execTrunc (alg digits : Nat) (s : State) : Host.Outcome State Fault Refusal :=
  issueCommand (encode (.trunc alg digits)) (truncResult digits s) s

end Sys2Proof.Machine
end

