-- ==== Sys2Proof/Machine/Hotp.lean ====
section
/-! DEFINITION. The HMAC counter-to-digest interface (41_hmac_interface.md R120-R128) and the commands HOTPGEN
and HOTPVER (43_hotp.md R160-R171). -/

namespace Sys2Proof.Machine

/-- The recorded answer to a request, if the configuration lists one. -/
def recordedAnswer (p : Params) (alg : Alg) (key msg : Bytes) : Option Bytes :=
  (p.hmacAnswers.find? (fun e => e.alg == alg && e.key == key && e.msg == msg)).map (·.digest)

/-- The HMAC unit of a configuration (R120): its recorded answers, `Config.hmac` on every other request, and
at most DIGEST_MAX bytes each (R122; log entry 2). -/
def hmacOf (p : Params) : Oracle := fun alg key msg =>
  ((recordedAnswer p alg key msg).getD (Config.hmac alg key msg)).take p.digestMax

/-- The counter message: 8 bytes, big-endian (R123). -/
def counterBytes (c : Nat) : Bytes := (List.range 8).map (fun j => BitVec.ofNat 8 (c >>> (8 * (7 - j))))

/-- The largest counter, 2^64 - 1 (10_state.md R23). -/
def counterMax : Nat := 2 ^ 64 - 1

/-- One HOTP value (43_hotp.md R164): the code of a counter and its rendering. -/
def hotpCode (hmac : Oracle) (alg : Alg) (key : Bytes) (c d : Nat) : Except ErrKind (Nat × Bytes) :=
  truncate (hmac alg key (counterBytes c)) d

/-- Token comparison (R167): exact equality of all `d` bytes, and a length of exactly `d`. -/
def tokenMatches (tok r : Bytes) (d : Nat) : Bool := tok.length == d && tok == r

/-- HOTPGEN_exec (R163). -/
def hotpgenResult (alg d : Nat) (s : State) (hmac : Oracle) : Except Stop Writes := do
  checkLength s.secretLen.toNat (bufCap s.cfg .secret)
  checkSecret s
  checkCounter (counterOperand s)
  checkDigits d
  let sec ← secretOperand s
  let a ← dispatchAlg alg
  let (v, r) ← liftErr (hotpCode hmac a (base32Decode sec) (counterOperand s).toNat d)
  pure { code := some (codeWrite d v r) }

/-- The forward window search (R165, R166) from index `i` on, over `n` more indices; `code c` is the code of
counter `c`. It answers the index of the first match, nothing where no candidate matches, or the error of
the first candidate whose digest is short. A candidate past 2^64 - 1 ends the search. -/
def forwardSearch (code : Nat → Except ErrKind (Nat × Bytes)) (tok : Bytes) (d base : Nat) :
    (n i : Nat) → Except ErrKind (Option Nat)
  | 0, _ => .ok none
  | n + 1, i =>
    if base + i > counterMax then .ok none
    else
      match code (base + i) with
      | .error k => .error k
      | .ok (_, r) => if tokenMatches tok r d then .ok (some i) else forwardSearch code tok d base n (i + 1)

/-- The results of a verification (10_state.md R31): SUCCESS and the delta, 0 where nothing matched. -/
def verifyWrite (found : Option Int) : VerifyWrite :=
  match found with
  | some δ => { success := true, delta := BitVec.ofInt 64 δ }
  | none => { success := false, delta := 0 }

/-- HOTPVER_exec (R166). -/
def hotpverResult (alg d : Nat) (s : State) (hmac : Oracle) : Except Stop Writes := do
  checkLength s.secretLen.toNat (bufCap s.cfg .secret)
  checkLength s.tokenLen.toNat (bufCap s.cfg .token)
  checkSecret s
  checkCounter (counterOperand s)
  checkDigits d
  let a ← dispatchAlg alg
  let sec ← secretOperand s
  let tok ← tokenOperand s
  let found ← liftErr (forwardSearch (fun c => hotpCode hmac a (base32Decode sec) c d) tok d
    (counterOperand s).toNat (windowRadius s + 1) 0)
  pure { verify := some (verifyWrite (found.map Int.ofNat)) }

/-- HOTPGEN (R163). -/
def execHotpgen (alg digits : Nat) (s : State) : Host.Outcome State Fault Refusal :=
  issueCommand (encode (.hotpgen alg digits)) (hotpgenResult alg digits s (hmacOf s.cfg)) s

/-- HOTPVER (R166). -/
def execHotpver (alg digits : Nat) (s : State) : Host.Outcome State Fault Refusal :=
  issueCommand (encode (.hotpver alg digits)) (hotpverResult alg digits s (hmacOf s.cfg)) s

end Sys2Proof.Machine
end

