-- ==== Sys2Proof/Machine/Totp.lean ====
section
/-! DEFINITION. The time step and the commands TSTEP, TREM, TOTPGEN and TOTPVER (44_totp.md R180-R191). -/

namespace Sys2Proof.Machine

/-- timeStep (R180): floor division of milliseconds by 1000 * P, for P at least 1. -/
def timeStep (ts p : Int) : Int := ts / (1000 * p)

/-- Milliseconds remaining in the current step (R183), for P at least 1. -/
def timeRemaining (ts p : Int) : Int := 1000 * p - ts % (1000 * p)

/-- TSTEP_exec (R182). -/
def tstepResult (s : State) : Except Stop Writes := do
  checkPeriod s
  pure { rctr := some (BitVec.ofInt 64 (timeStep (timestampMillis s) (periodSeconds s))) }

/-- TREM_exec (R183). -/
def tremResult (s : State) : Except Stop Writes := do
  checkPeriod s
  pure { rem := some (BitVec.ofInt 64 (timeRemaining (timestampMillis s) (periodSeconds s))) }

/-- TOTPGEN_exec (R184). -/
def totpgenResult (alg d : Nat) (s : State) (hmac : Oracle) : Except Stop Writes := do
  checkLength s.secretLen.toNat (bufCap s.cfg .secret)
  checkPeriod s
  let c := timeStep (timestampMillis s) (periodSeconds s)
  checkSecret s
  checkCounter c
  checkDigits d
  let sec ← secretOperand s
  let a ← dispatchAlg alg
  let (v, r) ← liftErr (hotpCode hmac a (base32Decode sec) c.toNat d)
  pure { code := some (codeWrite d v r), rctr := some (BitVec.ofInt 64 c) }

/-- The symmetric window search (R185-R187) in ascending delta, from `δ` on, over `n` more candidates. A
negative candidate is skipped. -/
def symmetricSearch (code : Nat → Except ErrKind (Nat × Bytes)) (tok : Bytes) (d : Nat) (current : Int) :
    (n : Nat) → (δ : Int) → Except ErrKind (Option Int)
  | 0, _ => .ok none
  | n + 1, δ =>
    if current + δ < 0 then symmetricSearch code tok d current n (δ + 1)
    else
      match code (current + δ).toNat with
      | .error k => .error k
      | .ok (_, r) =>
        if tokenMatches tok r d then .ok (some δ) else symmetricSearch code tok d current n (δ + 1)

/-- TOTPVER_exec (R187). -/
def totpverResult (alg d : Nat) (s : State) (hmac : Oracle) : Except Stop Writes := do
  checkLength s.secretLen.toNat (bufCap s.cfg .secret)
  checkLength s.tokenLen.toNat (bufCap s.cfg .token)
  checkPeriod s
  let current := timeStep (timestampMillis s) (periodSeconds s)
  checkSecret s
  checkDigits d
  let a ← dispatchAlg alg
  let sec ← secretOperand s
  let tok ← tokenOperand s
  let found ← liftErr (symmetricSearch (fun c => hotpCode hmac a (base32Decode sec) c d) tok d current
    (2 * windowRadius s + 1) (-(windowRadius s : Int)))
  pure { verify := some (verifyWrite found), rctr := some (BitVec.ofInt 64 current) }

/-- TSTEP (R182): ALG and DIGITS ignored. -/
def execTstep (alg digits : Nat) (s : State) : Host.Outcome State Fault Refusal :=
  issueCommand (encode (.tstep alg digits)) (tstepResult s) s

/-- TREM (R183): ALG and DIGITS ignored. -/
def execTrem (alg digits : Nat) (s : State) : Host.Outcome State Fault Refusal :=
  issueCommand (encode (.trem alg digits)) (tremResult s) s

/-- TOTPGEN (R184). -/
def execTotpgen (alg digits : Nat) (s : State) : Host.Outcome State Fault Refusal :=
  issueCommand (encode (.totpgen alg digits)) (totpgenResult alg digits s (hmacOf s.cfg)) s

/-- TOTPVER (R187). -/
def execTotpver (alg digits : Nat) (s : State) : Host.Outcome State Fault Refusal :=
  issueCommand (encode (.totpver alg digits)) (totpverResult alg digits s (hmacOf s.cfg)) s

end Sys2Proof.Machine
end

