-- ==== Sys2Proof/Machine/Dispatch.lean ====
section
/-! DEFINITION. The one dispatch from a command to its meaning (30_encoding.md R79). A meaning is the command's
issue with its outcome (10_state.md R43); the sequencer commits that outcome at completion (R44). -/

namespace Sys2Proof.Machine

def exec (i : Instr) (s : State) : Host.Outcome State Fault Refusal :=
  match i with
  -- Base32 codec (40_base32.md)
  | .b32enc alg digits => Sys2Proof.Machine.execB32enc alg digits s
  | .b32dec alg digits => Sys2Proof.Machine.execB32dec alg digits s
  -- dynamic truncation (42_truncation.md)
  | .trunc alg digits => Sys2Proof.Machine.execTrunc alg digits s
  -- HOTP (43_hotp.md)
  | .hotpgen alg digits => Sys2Proof.Machine.execHotpgen alg digits s
  | .hotpver alg digits => Sys2Proof.Machine.execHotpver alg digits s
  -- TOTP (44_totp.md)
  | .totpgen alg digits => Sys2Proof.Machine.execTotpgen alg digits s
  | .totpver alg digits => Sys2Proof.Machine.execTotpver alg digits s
  | .tstep alg digits => Sys2Proof.Machine.execTstep alg digits s
  | .trem alg digits => Sys2Proof.Machine.execTrem alg digits s

end Sys2Proof.Machine
end

