-- ==== Sys2Proof/Machine/Bus.lean ====
section
/-! DEFINITION. The host register bus: address map, reads and writes (20_memory.md R50-R66). -/

namespace Sys2Proof.Machine

/-! ### Address map -/

/-- The registers in address order. -/
def allRegs : List Reg :=
  [.cmd, .status, .ctrLo, .ctrHi, .ctrExt, .window, .period, .tsLo, .tsHi, .secretLen, .tokenLen, .dinLen,
   .codeVal, .codeLen, .resFlags, .deltaLo, .deltaHi, .rctrLo, .rctrHi, .remLo, .remHi, .doutLen]

/-- Offset of a register (R55). -/
def regOffset : Reg → Nat
  | .cmd => 0x0000
  | .status => 0x0004
  | .ctrLo => 0x0008
  | .ctrHi => 0x000C
  | .ctrExt => 0x0010
  | .window => 0x0014
  | .period => 0x0018
  | .tsLo => 0x001C
  | .tsHi => 0x0020
  | .secretLen => 0x0024
  | .tokenLen => 0x0028
  | .dinLen => 0x002C
  | .codeVal => 0x0040
  | .codeLen => 0x0044
  | .resFlags => 0x0048
  | .deltaLo => 0x004C
  | .deltaHi => 0x0050
  | .rctrLo => 0x0054
  | .rctrHi => 0x0058
  | .remLo => 0x005C
  | .remHi => 0x0060
  | .doutLen => 0x0064

/-- The buffers in address order. -/
def allBufs : List Buf := [.secret, .token, .din, .dout, .code]

/-- Whether a bus address is in a buffer's mapped range (R56). -/
def inBuf (p : Params) (b : Buf) (a : Nat) : Bool := bufBase b ≤ a && a < bufBase b + bufCap p b

/-- What an address names (R55, R56); nothing for an address of neither table. -/
def mappedTarget (p : Params) (a : Nat) : Option Target :=
  match allRegs.find? (fun r => regOffset r == a) with
  | some r => some (.reg r)
  | none =>
    match allBufs.find? (fun b => inBuf p b a) with
    | some b => some (.buf b (a - bufBase b))
    | none => none

/-- What a host access reaches; nothing for the three kinds of bus error of R52 (width, alignment, map). -/
def busTarget (p : Params) (a : BitVec 16) (w : AccessWidth) : Option Target :=
  if w = .word ∧ a.toNat % 4 = 0 then mappedTarget p a.toNat else none

/-! ### Reads -/

/-- The value of a register as the host reads it (10_state.md R42): fields at their bits, reserved bits 0. -/
def readReg (r : Reg) (s : State) : Word :=
  match r with
  | .cmd => s.cmd
  | .status => statusWord s
  | .ctrLo => s.ctrLo
  | .ctrHi => s.ctrHi
  | .ctrExt => s.ctrExt.setWidth 32
  | .window => s.window
  | .period => s.period
  | .tsLo => s.tsLo
  | .tsHi => s.tsHi
  | .secretLen => s.secretLen.setWidth 32
  | .tokenLen => s.tokenLen.setWidth 32
  | .dinLen => s.dinLen.setWidth 32
  | .codeVal => s.codeVal
  | .codeLen => s.codeLen
  | .resFlags => resFlagsWord s
  | .deltaLo => s.delta.extractLsb' 0 32
  | .deltaHi => s.delta.extractLsb' 32 32
  | .rctrLo => s.rctr.extractLsb' 0 32
  | .rctrHi => s.rctr.extractLsb' 32 32
  | .remLo => s.rem.extractLsb' 0 32
  | .remHi => s.rem.extractLsb' 32 32
  | .doutLen => s.doutLen

/-- The byte at a bus address as the host reads it: a byte nothing has written is free, drawn fresh (R58; log
entry 4). -/
def readByte (a : Nat) (s : State) : Byte × State :=
  match memGet s.mem a with
  | some b => (b, s)
  | none => (Config.freeByte s.draws, { s with draws := s.draws + 1 })

/-- The buffer word at a bus address, little-endian (R53). -/
def readBufWord (a : Nat) (s : State) : Word × State :=
  let (b0, s0) := readByte a s
  let (b1, s1) := readByte (a + 1) s0
  let (b2, s2) := readByte (a + 2) s1
  let (b3, s3) := readByte (a + 3) s2
  (b3 ++ b2 ++ b1 ++ b0, s3)

/-- MemRead at a mapped target (R58). -/
def readTarget (t : Target) (s : State) : Word × State :=
  match t with
  | .reg r => (readReg r s, s)
  | .buf b k => readBufWord (bufBase b + k) s

/-- A host read (R58): the word it returns joins the host's observation; a bus error is a fault (R52). -/
def hostRead (a : BitVec 16) (w : AccessWidth) (s : State) : Except Fault (Word × State) :=
  match busTarget s.cfg a w with
  | none => .error (.busError false a w)
  | some t =>
    let (v, s') := readTarget t s
    .ok (v, { s' with observed := s'.observed ++ [v] })

/-! ### Writes -/

/-- A host write of a register other than CMD while BUSY = 0 (R57): the used bits are stored, RO registers
ignore it (10_state.md R20). -/
def writeReg (r : Reg) (v : Word) (s : State) : State :=
  match r with
  | .cmd => s
  | .status => writeStatus v s
  | .ctrLo => { s with ctrLo := v }
  | .ctrHi => { s with ctrHi := v }
  | .ctrExt => { s with ctrExt := v.extractLsb' 0 1 }
  | .window => { s with window := v }
  | .period => { s with period := v }
  | .tsLo => { s with tsLo := v }
  | .tsHi => { s with tsHi := v }
  | .secretLen => { s with secretLen := v.extractLsb' 0 16 }
  | .tokenLen => { s with tokenLen := v.extractLsb' 0 16 }
  | .dinLen => { s with dinLen := v.extractLsb' 0 16 }
  | .codeVal => s
  | .codeLen => s
  | .resFlags => s
  | .deltaLo => s
  | .deltaHi => s
  | .rctrLo => s
  | .rctrHi => s
  | .remLo => s
  | .remHi => s
  | .doutLen => s

/-- The four bytes of a word in buffer order, little-endian (R53). -/
def wordBytes (v : Word) : Bytes :=
  [v.extractLsb' 0 8, v.extractLsb' 8 8, v.extractLsb' 16 8, v.extractLsb' 24 8]

/-- A host write of a buffer word while BUSY = 0 (R53, R57): stored in a writable buffer, ignored in an RO
one. -/
def writeBufWord (b : Buf) (k : Nat) (v : Word) (s : State) : State :=
  if bufWritable b then { s with mem := memSetBytes s.mem (bufBase b + k) (wordBytes v) } else s

/-- A write of word `c` to CMD (10_state.md R43, R79): a legal word runs its command; an illegal one is issued
with IllegalCommand (30_encoding.md R75). -/
def writeCmd (c : Word) (s : State) : Host.Outcome State Fault Refusal :=
  match decode c with
  | .ok i => exec i s
  | .error _ => issueCommand c (raise .illegalCommand) s

/-- A host write (R57): a bus error is a fault (R52); while BUSY = 1 it is dropped (10_state.md R36). -/
def hostWrite (a : BitVec 16) (w : AccessWidth) (v : Word) (s : State) : Host.Outcome State Fault Refusal :=
  match busTarget s.cfg a w with
  | none => .fault (.busError true a w)
  | some t =>
    if s.busy then .next (dropWrite s)
    else
      match t with
      | .reg .cmd => writeCmd v s
      | .reg r => .next (writeReg r v s)
      | .buf b k => .next (writeBufWord b k v s)

end Sys2Proof.Machine
end

