-- ==== Sys2Proof/Machine/Driver.lean ====
section
/-! DEFINITION. The host's driver: host operations, algorithm tags, argument encoding, and the document's function
surface as sequences of bus accesses (30_encoding.md R80-R85). -/

namespace Sys2Proof.Machine

/-! ### Host operations (R81) -/

/-- WR REG, v. -/
def opWr (r : Reg) (v : Word) : HostOp := .write (BitVec.ofNat 16 (regOffset r)) .word v

/-- RD REG. -/
def opRd (r : Reg) : HostOp := .read (BitVec.ofNat 16 (regOffset r)) .word

/-- ISSUE of a command: WR CMD with its word (R80). -/
def opIssue (i : Instr) : HostOp := opWr .cmd (encode i)

/-- Bytes as buffer words, little-endian, the last zero-filled past the last byte (R81). -/
def packWords : Bytes → List Word
  | a :: b :: c :: d :: rest => (d ++ c ++ b ++ a) :: packWords rest
  | [a, b, c] => [(0 : Byte) ++ c ++ b ++ a]
  | [a, b] => [(0 : Byte) ++ (0 : Byte) ++ b ++ a]
  | [a] => [(0 : Byte) ++ (0 : Byte) ++ (0 : Byte) ++ a]
  | [] => []

/-- Word writes at rising addresses from `a` on. -/
def opWrWords (a : Nat) : List Word → List HostOp
  | [] => []
  | v :: vs => .write (BitVec.ofNat 16 a) .word v :: opWrWords (a + 4) vs

/-- WRBUF BUF, bytes. -/
def opWrBuf (b : Buf) (bs : Bytes) : List HostOp := opWrWords (bufBase b) (packWords bs)

/-! ### Algorithm tags (R82) -/

/-- ASCII lower-case letters of a tag in upper case. -/
def foldTag (t : Bytes) : Bytes :=
  t.map (fun ch => if 0x61 ≤ ch.toNat ∧ ch.toNat ≤ 0x7A then ch - 0x20 else ch)

/-- "SHA1" -/
def tagSha1 : Bytes := [0x53, 0x48, 0x41, 0x31]
/-- "SHA256" -/
def tagSha256 : Bytes := [0x53, 0x48, 0x41, 0x32, 0x35, 0x36]
/-- "SHA512" -/
def tagSha512 : Bytes := [0x53, 0x48, 0x41, 0x35, 0x31, 0x32]
/-- "SM3" -/
def tagSm3 : Bytes := [0x53, 0x4D, 0x33]

/-- tagToAlg: the code of a known tag, 15 for any other (R82). -/
def tagToAlg (t : Bytes) : Nat :=
  if foldTag t = tagSha1 then 0
  else if foldTag t = tagSha256 then 1
  else if foldTag t = tagSha512 then 2
  else if foldTag t = tagSm3 then 3
  else 15

/-! ### Argument encoding (R83) -/

/-- counter: its 65-bit two's-complement bits, -1 for one below -2^64, refused from 2^64 on. -/
def encodeCounter (c : Int) : Except ApiArg (BitVec 65) :=
  if c ≥ 2 ^ 64 then .error .counter
  else if c < -(2 ^ 64) then .ok (BitVec.ofInt 65 (-1))
  else .ok (BitVec.ofInt 65 c)

/-- digits: as is in 0..255, else 0. -/
def encodeDigits (d : Int) : Nat := if 0 ≤ d ∧ d ≤ 255 then d.toNat else 0

/-- period: as is within sint_32, 0 below, refused above. -/
def encodePeriod (p : Int) : Except ApiArg Word :=
  if p > 2 ^ 31 - 1 then .error .period
  else if p < -(2 ^ 31) then .ok 0
  else .ok (BitVec.ofInt 32 p)

/-- timestamp: refused outside sint_64. -/
def encodeTimestamp (t : Int) : Except ApiArg (BitVec 64) :=
  if t < -(2 ^ 63) ∨ t > 2 ^ 63 - 1 then .error .timestamp else .ok (BitVec.ofInt 64 t)

/-- window: refused outside 0..2^32-1. -/
def encodeWindow (w : Int) : Except ApiArg Word :=
  if w < 0 ∨ w > 2 ^ 32 - 1 then .error .window else .ok (BitVec.ofInt 32 w)

/-- secret: refused when longer than SECRET_MAX. -/
def encodeSecret (p : Params) (s : Bytes) : Except ApiArg Bytes :=
  if s.length > p.secretMax then .error .secret else .ok s

/-- token: one longer than TOKEN_MAX is written as the empty token. -/
def encodeToken (t : Bytes) : Bytes := if t.length > tokenMax then [] else t

/-! ### The function surface (R84) -/

/-- WRBUF and the length register of one byte-sequence operand. -/
def opOperand (b : Buf) (len : Reg) (bs : Bytes) : List HostOp :=
  opWrBuf b bs ++ [opWr len (BitVec.ofNat 32 bs.length)]

/-- The counter registers. -/
def opCounter (c : BitVec 65) : List HostOp :=
  [opWr .ctrLo (c.extractLsb' 0 32), opWr .ctrHi (c.extractLsb' 32 32),
   opWr .ctrExt ((c.extractLsb' 64 1).setWidth 32)]

/-- PERIOD and the timestamp registers. -/
def opTime (p : Word) (t : BitVec 64) : List HostOp :=
  [opWr .period p, opWr .tsLo (t.extractLsb' 0 32), opWr .tsHi (t.extractLsb' 32 32)]

/-- The token and the window of a verification. -/
def opToken (tok : Bytes) (w : Word) : List HostOp :=
  opOperand .token .tokenLen (encodeToken tok) ++ [opWr .window w]

/-- The bus accesses of a driver call up to and with WAIT (R84), or the argument the driver refuses (R83). -/
def expandCall (p : Params) (c : Call) : Except ApiArg (List HostOp) :=
  match c with
  | .base32Encode b => pure (opOperand .din .dinLen b ++ [opIssue (.b32enc 0 0), .wait])
  | .base32Decode t => pure (opOperand .din .dinLen t ++ [opIssue (.b32dec 0 0), .wait])
  | .hotpGenerate secret counter digits algorithm => do
    let sec ← encodeSecret p secret
    let ctr ← encodeCounter counter
    pure (opOperand .secret .secretLen sec ++ opCounter ctr ++
      [opIssue (.hotpgen (tagToAlg algorithm) (encodeDigits digits)), .wait])
  | .hotpVerify token secret counter digits algorithm window => do
    let sec ← encodeSecret p secret
    let ctr ← encodeCounter counter
    let w ← encodeWindow window
    pure (opOperand .secret .secretLen sec ++ opCounter ctr ++ opToken token w ++
      [opIssue (.hotpver (tagToAlg algorithm) (encodeDigits digits)), .wait])
  | .totpGenerate secret period digits timestamp algorithm => do
    let sec ← encodeSecret p secret
    let per ← encodePeriod period
    let ts ← encodeTimestamp timestamp
    pure (opOperand .secret .secretLen sec ++ opTime per ts ++
      [opIssue (.totpgen (tagToAlg algorithm) (encodeDigits digits)), .wait])
  | .totpVerify token secret period digits window timestamp algorithm => do
    let sec ← encodeSecret p secret
    let per ← encodePeriod period
    let ts ← encodeTimestamp timestamp
    let w ← encodeWindow window
    pure (opOperand .secret .secretLen sec ++ opTime per ts ++ opToken token w ++
      [opIssue (.totpver (tagToAlg algorithm) (encodeDigits digits)), .wait])
  | .timeStep timestamp period => do
    let per ← encodePeriod period
    let ts ← encodeTimestamp timestamp
    pure (opTime per ts ++ [opIssue (.tstep 0 0), .wait])
  | .timeRemaining timestamp period => do
    let per ← encodePeriod period
    let ts ← encodeTimestamp timestamp
    pure (opTime per ts ++ [opIssue (.trem 0 0), .wait])

/-- Host reads one after another, with the words they return. -/
def hostReads : List (BitVec 16) → State → Except Fault (List Word × State)
  | [], s => .ok ([], s)
  | a :: as, s =>
    match hostRead a .word s with
    | .error f => .error f
    | .ok (v, s₁) =>
      match hostReads as s₁ with
      | .error f => .error f
      | .ok (vs, s₂) => .ok (v :: vs, s₂)

/-- RD of registers, with the words they return. -/
def rdRegs (rs : List Reg) (s : State) : Except Fault (List Word × State) :=
  hostReads (rs.map (fun r => BitVec.ofNat 16 (regOffset r))) s

/-- RDBUF BUF, n (R81): the first `n` bytes of the words that hold them. -/
def rdBuf (b : Buf) (n : Nat) (s : State) : Except Fault (Bytes × State) :=
  match hostReads ((List.range ((n + 3) / 4)).map (fun j => BitVec.ofNat 16 (bufBase b + 4 * j))) s with
  | .error f => .error f
  | .ok (vs, s') => .ok ((vs.flatMap wordBytes).take n, s')

/-- RD of the register that holds a length, then RDBUF of that many bytes. -/
def rdCounted (len : Reg) (b : Buf) (s : State) : Except Fault (Bytes × State) :=
  match rdRegs [len] s with
  | .error f => .error f
  | .ok (vs, s') => rdBuf b (vs.headD 0).toNat s'

/-- A 64-bit value read as its two halves, low word first. -/
def wideOf (vs : List Word) : BitVec 64 := vs.getD 1 0 ++ vs.getD 0 0

/-- The reads of a verification call and what it returns (R84): RES_FLAGS, and DELTA only if it says success. -/
def collectVerified (s : State) : Except Fault (CallResult × State) :=
  match rdRegs [.resFlags] s with
  | .error f => .error f
  | .ok (vs, s') =>
    if (vs.headD 0).getLsbD 0 then
      (rdRegs [.deltaLo, .deltaHi] s').map (fun x => (.verified true (some (wideOf x.1).toInt), x.2))
    else .ok (.verified false none, s')

/-- The reads of a driver call whose command ended without error, and the value they make (R84). -/
def collectOk (c : Call) (s : State) : Except Fault (CallResult × State) :=
  match c with
  | .base32Encode _ => (rdCounted .doutLen .dout s).map (fun x => (.bytes x.1, x.2))
  | .base32Decode _ => (rdCounted .doutLen .dout s).map (fun x => (.bytes x.1, x.2))
  | .hotpGenerate _ _ _ _ => (rdCounted .codeLen .code s).map (fun x => (.bytes x.1, x.2))
  | .totpGenerate _ _ _ _ _ => (rdCounted .codeLen .code s).map (fun x => (.bytes x.1, x.2))
  | .hotpVerify _ _ _ _ _ _ => collectVerified s
  | .totpVerify _ _ _ _ _ _ _ => collectVerified s
  | .timeStep _ _ => (rdRegs [.rctrLo, .rctrHi] s).map (fun x => (.step (wideOf x.1).toInt, x.2))
  | .timeRemaining _ _ =>
    (rdRegs [.remLo, .remHi] s).map (fun x => (.seconds (mkRat (wideOf x.1).toNat 1000), x.2))

/-- A driver call reads its result back (R84): STATUS first; a non-zero ERR makes the call fail with it. -/
def collect (c : Call) (s : State) : Except Fault (CallResult × State) :=
  match rdRegs [.status] s with
  | .error f => .error f
  | .ok (vs, s') =>
    let e := (vs.headD 0).extractLsb' 4 4
    if e ≠ 0 then .ok (.failed e, s') else collectOk c s'

/-! ### Defaults (R85) -/

/-- hotpGenerate: digits 6, SHA1. -/
def callHotpGenerate (secret : Bytes) (counter : Int) (digits : Int := 6) (algorithm : Bytes := tagSha1) : Call :=
  .hotpGenerate secret counter digits algorithm

/-- hotpVerify: digits 6, SHA1, window 0. -/
def callHotpVerify (token secret : Bytes) (counter : Int) (digits : Int := 6) (algorithm : Bytes := tagSha1)
    (window : Int := 0) : Call :=
  .hotpVerify token secret counter digits algorithm window

/-- totpGenerate: period 30, digits 6, SHA1. `now` is the host's own clock reading (10_state.md R26). -/
def callTotpGenerate (secret : Bytes) (now : Int) (period : Int := 30) (digits : Int := 6)
    (algorithm : Bytes := tagSha1) : Call :=
  .totpGenerate secret period digits now algorithm

/-- totpVerify: period 30, digits 6, window 1, SHA1. -/
def callTotpVerify (token secret : Bytes) (now : Int) (period : Int := 30) (digits : Int := 6) (window : Int := 1)
    (algorithm : Bytes := tagSha1) : Call :=
  .totpVerify token secret period digits window now algorithm

end Sys2Proof.Machine
end

