-- ==== Sys2Proof/Machine/Agents.lean ====
section
/-! DEFINITION. The two agents that step, the host and the sequencer (00_scope.md R17), and which of them moves
next (70_reset_and_hazards.md R236). -/

namespace Sys2Proof.Machine

/-- One operation of the host agent; `s` has it already taken off the list. -/
def runHostOp (op : HostOp) (s : State) : Host.Outcome State Fault Refusal :=
  match op with
  | .read a w =>
    match hostRead a w s with
    | .ok (_, s') => .next s'
    | .error f => .fault f
  | .write a w v => hostWrite a w v s
  | .wait =>
    match rdRegs [.status] s with
    | .ok (vs, s') => .next (if (vs.headD 0).getLsbD 0 then { s' with host := .wait :: s'.host } else s')
    | .error f => .fault f
  | .reset => .next (resetBlock s)
  | .call c =>
    match expandCall s.cfg c with
    | .ok ops => .next { s with host := ops ++ .collect c :: s.host }
    | .error arg => .refused (.operandOutOfRange arg)
  | .collect c =>
    match collect c s with
    | .ok (r, s') => .next { s' with returned := s'.returned ++ [r] }
    | .error f => .fault f

/-- The host agent's step; with nothing left to do it leaves the state alone (R222, R239). -/
def hostStep (s : State) : Host.Outcome State Fault Refusal :=
  match s.host with
  | [] => .next s
  | op :: rest => runHostOp op { s with host := rest }

/-- The sequencer moves next: a command is in flight and its delay has passed (10_state.md R44). -/
def sequencerTurn (s : State) : Bool := s.busy && s.delay == 0

/-- While a command is in flight, one host step of its delay passes. -/
def tick (s : State) : State := if s.busy then { s with delay := s.delay - 1 } else s

/-- One step of the machine: completion when it is the sequencer's turn, else one step of the host. -/
def agentStep (s : State) : Host.Outcome State Fault Refusal :=
  if sequencerTurn s then .next (complete s) else hostStep (tick s)

/-- The state whose next step writes word `c` to CMD: nothing in flight, that write first in the host's list. -/
def placeCommand (c : Word) (s : State) : State :=
  { s with inflight := none, host := .write 0 .word c :: s.host }

end Sys2Proof.Machine
end

