-- ==== Sys2Proof/Machine/Step.lean ====
section
/-! DEFINITION. The step of the machine, and where its next command comes from: a host write to CMD
(10_state.md R43). -/

namespace Sys2Proof.Machine

/-- One step. -/
def step (s : State) : Host.Outcome State Fault Refusal := agentStep s

/-- `s` with the command word `w` (its low `nbits` bits) as the host's next access, a write to CMD, and the block
idle, so that the next step runs exactly that command (log entry 7). -/
def State.withFetchWord (s : State) (nbits w : Nat) : State :=
  placeCommand (BitVec.ofNat 32 (w % 2 ^ nbits)) s

end Sys2Proof.Machine
end

