-- ==== Sys2Proof/Safety.lean ====
section
/-! DEFINITION. The terms claims are stated in: entry and end of a run (70_reset_and_hazards.md R234, R239), what
an operation leaves unchanged, how a command is issued, completed or rejected (10_state.md R43, R44,
60_exceptions.md R213), and the invariants of the machine. -/

namespace Sys2Proof.Machine

/-! ### Runs -/

/-- Clean entry (R234): a legal configuration and the block in the state of R230. -/
def CleanEntry (s : State) : Prop := s.cfg.legal ∧ resetBlock s = s

/-- The end of a run (R239): the host has made its last access and no command is in flight. That no fault was
recorded is that the run answered a next state. -/
def RunEnded (s : State) : Prop := s.host = [] ∧ s.inflight = none

/-! ### What stays -/

/-- The operand registers hold what they held (R23-R27, R171). -/
structure OperandsKept (s t : State) : Prop where
  ctrLo : t.ctrLo = s.ctrLo
  ctrHi : t.ctrHi = s.ctrHi
  ctrExt : t.ctrExt = s.ctrExt
  window : t.window = s.window
  period : t.period = s.period
  tsLo : t.tsLo = s.tsLo
  tsHi : t.tsHi = s.tsHi
  secretLen : t.secretLen = s.secretLen
  tokenLen : t.tokenLen = s.tokenLen
  dinLen : t.dinLen = s.dinLen

/-- The result registers hold what they held (R29). -/
structure ResultsKept (s t : State) : Prop where
  codeVal : t.codeVal = s.codeVal
  codeLen : t.codeLen = s.codeLen
  success : t.success = s.success
  delta : t.delta = s.delta
  rctr : t.rctr = s.rctr
  rem : t.rem = s.rem
  doutLen : t.doutLen = s.doutLen

/-- The configuration and the host agent are as they were (R41, R17). -/
structure HostSideKept (s t : State) : Prop where
  cfg : t.cfg = s.cfg
  host : t.host = s.host
  observed : t.observed = s.observed
  returned : t.returned = s.returned

/-- Every byte outside one buffer's mapped range reads as before. -/
def MemKeptOutside (b : Buf) (s t : State) : Prop :=
  ∀ a, inBuf s.cfg b a = false → memGet t.mem a = memGet s.mem a

/-- A buffer's first bytes have been written and hold `bs`. -/
def BufHolds (s : State) (b : Buf) (bs : Bytes) : Prop :=
  ∀ k, k < bs.length → memGet s.mem (bufBase b + k) = some (bs.getD k 0)

/-- An output buffer of `cap` bytes holds `bs` and then 0x00 up to its capacity (R30, R32). -/
def OutputHolds (s : State) (b : Buf) (cap : Nat) (bs : Bytes) : Prop :=
  bs.length ≤ cap ∧ BufHolds s b bs ∧ ∀ k, bs.length ≤ k → k < cap → memGet s.mem (bufBase b + k) = some 0

/-- The value a host read of a register gives, from what the state holds: its fields at the bit positions of 10_state.md
R20, R31 and R33, every reserved bit 0 (R42), and bits 31:0 or 63:32 of a value wider than a word (20_memory.md R54). -/
def RegReads (s : State) (r : Reg) (v : Word) : Prop :=
  match r with
  | .cmd => v = s.cmd
  | .status => v.toNat = s.busy.toNat + 2 * s.done.toNat + 16 * s.err.toNat + 256 * s.dropped.toNat
  | .ctrLo => v = s.ctrLo
  | .ctrHi => v = s.ctrHi
  | .ctrExt => v.toNat = s.ctrExt.toNat
  | .window => v = s.window
  | .period => v = s.period
  | .tsLo => v = s.tsLo
  | .tsHi => v = s.tsHi
  | .secretLen => v.toNat = s.secretLen.toNat
  | .tokenLen => v.toNat = s.tokenLen.toNat
  | .dinLen => v.toNat = s.dinLen.toNat
  | .codeVal => v = s.codeVal
  | .codeLen => v = s.codeLen
  | .resFlags => v.toNat = s.success.toNat
  | .deltaLo => v.toNat = s.delta.toNat % 2 ^ 32
  | .deltaHi => v.toNat = s.delta.toNat / 2 ^ 32
  | .rctrLo => v.toNat = s.rctr.toNat % 2 ^ 32
  | .rctrHi => v.toNat = s.rctr.toNat / 2 ^ 32
  | .remLo => v.toNat = s.rem.toNat % 2 ^ 32
  | .remHi => v.toNat = s.rem.toNat / 2 ^ 32
  | .doutLen => v = s.doutLen

/-! ### The life of a command -/

/-- `t` is `s` after word `c` was accepted (R43): in flight, DONE and ERR cleared, nothing else of the block
changed. -/
structure IssuedFrom (c : Word) (s t : State) : Prop where
  cmd : t.cmd = c
  busy : t.busy = true
  done : t.done = false
  err : t.err = 0
  dropped : t.dropped = s.dropped
  mem : t.mem = s.mem
  operands : OperandsKept s t
  results : ResultsKept s t
  hostSide : HostSideKept s t

/-- `u` is `s` after a command with word `c` has completed with error code `e` (R44); what it says of results
and buffers stands beside it. -/
structure CompletedFrom (c : Word) (e : BitVec 4) (s u : State) : Prop where
  cmd : u.cmd = c
  busy : u.busy = false
  done : u.done = true
  err : u.err = e
  dropped : u.dropped = s.dropped
  operands : OperandsKept s u
  hostSide : HostSideKept s u

/-- Command `i` is accepted in `s` and completes with error code `e`, without any other effect (R213). -/
def Rejects (i : Instr) (s : State) (e : BitVec 4) : Prop :=
  ∃ t, exec i s = .next t ∧ IssuedFrom (encode i) s t ∧ CompletedFrom (encode i) e s (complete t) ∧
    ResultsKept s (complete t) ∧ (complete t).mem = s.mem

/-- The ALG code of an algorithm (30_encoding.md R74). -/
def algCode : Alg → Nat
  | .sha1 => 0
  | .sha256 => 1
  | .sha512 => 2
  | .sm3 => 3

/-- SECRET_LEN and SECRET_MEM hold the non-empty secret `sec` (R28). -/
structure SecretReady (s : State) (sec : Bytes) : Prop where
  len : s.secretLen.toNat = sec.length
  nonempty : 0 < sec.length
  fits : sec.length ≤ s.cfg.secretMax
  holds : BufHolds s .secret sec

/-- TOKEN_LEN and TOKEN_MEM hold the token `tok`, possibly empty (R28). -/
structure TokenReady (s : State) (tok : Bytes) : Prop where
  len : s.tokenLen.toNat = tok.length
  fits : tok.length ≤ 16
  holds : BufHolds s .token tok

/-- DIN_LEN and DIN_MEM hold the input `inp`, possibly empty (R28). -/
structure DinReady (s : State) (inp : Bytes) : Prop where
  len : s.dinLen.toNat = inp.length
  fits : inp.length ≤ s.cfg.dinMax
  holds : BufHolds s .din inp

/-- The characters of a text that decoding keeps: lower-case ASCII letters as upper case, then only the alphabet's
32 characters (40_base32.md R100, R103, R104). -/
def keptChars (s : Bytes) : Bytes :=
  (s.map (fun ch => if 0x61 ≤ ch.toNat ∧ ch.toNat ≤ 0x7A then ch - 0x20 else ch)).filter
    (fun ch => (0x41 ≤ ch.toNat && ch.toNat ≤ 0x5A) || (0x32 ≤ ch.toNat && ch.toNat ≤ 0x37))

/-- The Length part of the conformance of an HMAC unit (41_hmac_interface.md R121 part 1): every digest has its
algorithm's length. -/
def HmacLengthConformant (hmac : Oracle) : Prop :=
  ∀ (a : Alg) (key msg : Bytes), (hmac a key msg).length = a.digestLength

/-- HmacConformant (R121): the Length part, and the Value part against `rfc2104`, which stands for HMAC over the named
hash; that computation itself is out of scope (00_scope.md R7; log entry 19). The block assumes neither part. -/
structure HmacConformant (rfc2104 hmac : Oracle) : Prop where
  length : HmacLengthConformant hmac
  value : ∀ (a : Alg) (key msg : Bytes), hmac a key msg = rfc2104 a key msg

/-- A candidate counter has a code and the token is not it (43_hotp.md R167). -/
def Misses (code : Nat → Except ErrKind (Nat × Bytes)) (tok : Bytes) (c : Nat) : Prop :=
  ∃ v r, code c = .ok (v, r) ∧ r ≠ tok

/-! ### Invariants -/

/-- STATUS is consistent (10_state.md R33, R37, R43, 60_exceptions.md R200): while a command is in flight DONE and
ERR are 0 and CMD holds its word; ERR holds no reserved code. -/
def StatusInv (s : State) : Prop :=
  s.err.toNat ≤ 8 ∧
  ∀ c o, s.inflight = some (c, o) → s.done = false ∧ s.err = 0 ∧ c = s.cmd

/-- A code of legal width (42_truncation.md R146, R151): `text` is its rendering. -/
def CodeOk (val len : Word) (text : Bytes) : Prop :=
  6 ≤ len.toNat ∧ len.toNat ≤ 10 ∧ val.toNat < 2 ^ 31 ∧ val.toNat < 10 ^ len.toNat ∧
  text = renderDigits val.toNat len.toNat

/-- A time step in its range (44_totp.md R180). -/
def StepInRange (n : BitVec 64) : Prop :=
  -9223372036854776 ≤ n.toInt ∧ n.toInt ≤ 9223372036854775

/-- The writes a command may have in flight. -/
structure WritesOk (p : Params) (ws : Writes) : Prop where
  code : ∀ c, ws.code = some c → CodeOk c.val c.len c.text
  verify : ∀ v, ws.verify = some v → v.success = false → v.delta = 0
  rctr : ∀ n, ws.rctr = some n → StepInRange n
  rem : ∀ n, ws.rem = some n → 1 ≤ n.toNat ∧ n.toNat ≤ 1000 * (2 ^ 31 - 1)
  dout : ∀ o, ws.dout = some o → o.length ≤ doutMax p

/-- The results are what some command left (R29-R32): no code yet, or a code of legal width with its digits in
CODE_MEM; DELTA 0 without SUCCESS; RCTR a time step; DOUT_MEM 0x00 from DOUT_LEN on; and a command in flight
will leave such results too. -/
structure ResultInv (s : State) : Prop where
  legal : s.cfg.legal
  code : (s.codeVal = 0 ∧ s.codeLen = 0 ∧ OutputHolds s .code 12 []) ∨
    ∃ text, CodeOk s.codeVal s.codeLen text ∧ OutputHolds s .code 12 text
  verify : s.success = false → s.delta = 0
  rctr : StepInRange s.rctr
  rem : s.rem.toNat ≤ 1000 * (2 ^ 31 - 1)
  dout : s.doutLen.toNat ≤ doutMax s.cfg ∧
    ∀ k, s.doutLen.toNat ≤ k → k < doutMax s.cfg → memGet s.mem (bufBase .dout + k) = some 0
  inflight : ∀ c ws, s.inflight = some (c, .ok ws) → WritesOk s.cfg ws

end Sys2Proof.Machine
end

