-- ==== Sys2Proof/Certificates/Slice0/Obligations.lean ====
section
/-! DEFINITION. The statements for the provers. Each docstring names the rules of spec/ it formalises or rests
on. -/

open Sys2Proof Sys2Proof.Machine

/-! ### Encoding and decoding -/

/-- Decoding an encoded well-formed command gives it back, and the word of a command that decodes is that command's
encoding, so that no operand and no bit of a legal word is lost (30_encoding.md sections 1, 2 and 5: the field
layout, the opcode map and the assembled word). -/
def Obligations.EncodedCommandDecodesBack : Prop :=
  (∀ i : Instr, i.WellFormed → decode (encode i) = .ok i) ∧
  ∀ (c : Word) (i : Instr), decode c = .ok i → i.WellFormed ∧ encode i = c

/-- A word decodes to a command exactly when it matches that command's row under the mask 0xFF00F0FF, and then ALG
and DIGITS are its bits 11:8 and 23:16 (30_encoding.md section 2, the opcode map, and section 1). -/
def Obligations.DecodingFollowsTheOpcodeMap : Prop :=
  ∀ (c : Word) (i : Instr), decode c = .ok i ↔
    ∃ row ∈ [((0x01 : Word), Instr.b32enc), (0x02, Instr.b32dec), (0x03, Instr.trunc), (0x10, Instr.hotpgen),
        (0x11, Instr.hotpver), (0x20, Instr.totpgen), (0x21, Instr.totpver), (0x22, Instr.tstep),
        (0x23, Instr.trem)],
      c &&& 0xFF00F0FF = row.1 ∧ i = row.2 (c.toNat / 2 ^ 8 % 16) (c.toNat / 2 ^ 16 % 256)

/-- The twelve words the spec works out decode to the commands it writes beside them (30_encoding.md section 6,
worked encodings, which the spec marks as derived). -/
def Obligations.WorkedWordsDecode : Prop :=
  decode 0x00000001 = .ok (.b32enc 0 0) ∧ decode 0x00000002 = .ok (.b32dec 0 0) ∧
  decode 0x00060003 = .ok (.trunc 0 6) ∧ decode 0x00060010 = .ok (.hotpgen 0 6) ∧
  decode 0x000A0310 = .ok (.hotpgen 3 10) ∧ decode 0x00060011 = .ok (.hotpver 0 6) ∧
  decode 0x00080220 = .ok (.totpgen 2 8) ∧ decode 0x00060021 = .ok (.totpver 0 6) ∧
  decode 0x00000022 = .ok (.tstep 0 0) ∧ decode 0x00000023 = .ok (.trem 0 0) ∧
  decode 0x00060F10 = .ok (.hotpgen 15 6) ∧ decode 0x000C0010 = .ok (.hotpgen 0 12)

/-- R75: a word is illegal exactly when a reserved bit is 1 or OP is none of the nine values; it is accepted like any
other and completes with IllegalCommand (ERR 7), changing no result, and CMD then holds it. -/
def Obligations.IllegalWordsCompleteWithIllegalCommand : Prop :=
  ∀ c : Word,
    (if c.extractLsb' 24 8 ≠ 0 ∨ c.extractLsb' 12 4 ≠ 0 ∨
        c.toNat % 256 ∉ [0x01, 0x02, 0x03, 0x10, 0x11, 0x20, 0x21, 0x22, 0x23] then
      ∀ (s : State) (rest : List HostOp), s.busy = false → s.host = .write 0 .word c :: rest →
        ∃ t, step s = .next t ∧ IssuedFrom c { s with host := rest } t ∧
          CompletedFrom c 7 { s with host := rest } (complete t) ∧ ResultsKept s (complete t) ∧
          (complete t).mem = s.mem
    else ∃ i, decode c = .ok i)

/-! ### The step -/

/-- While the block is idle, a host write of a legal word to CMD makes the step exactly the decoded command's
meaning, with that write taken off the host's list; and once a command's delay has passed, the step is exactly its
completion, whatever the host would do next (10_state.md section 7, command life cycle; 30_encoding.md section
4; log entry 3 for the delay). -/
def Obligations.StepRunsTheWrittenCommand : Prop :=
  (∀ (s : State) (rest : List HostOp) (c : Word) (i : Instr), s.busy = false →
    s.host = .write 0 .word c :: rest → decode c = .ok i → step s = exec i { s with host := rest }) ∧
  ∀ (s : State) (c : Word) (o : CmdOutcome), s.inflight = some (c, o) → s.delay = 0 → step s = .next (complete s)

/-- The very next step of a state with a table word placed runs that word's command. A convention of the model (log
entry 7); 10_state.md section 7. -/
def Obligations.PlacedCommandRunsNext : Prop :=
  ∀ (s : State) (w : Nat) (i : Instr), decodeTableWord 32 w = some i →
    step (s.withFetchWord 32 w) = exec i { s with inflight := none }

/-- Issue (10_state.md section 7): whatever the command, accepting it puts its word in CMD, sets BUSY, clears DONE and
ERR, and changes no operand, no result and no byte of memory; while BUSY = 1 it is dropped instead, and only
DROPPED changes. This is the frame of every command's meaning, for all nine and every form of each. -/
def Obligations.IssueFrame : Prop :=
  ∀ (i : Instr) (s t : State), exec i s = .next t →
    if s.busy = true then t = { s with dropped := true } else IssuedFrom (encode i) s t

/-- The frame of completion by the table of results in 10_state.md section 3: the columns a command does not write,
every operand register, and every byte outside the output buffer it writes are as at issue. DOUT_MEM is
written by B32ENC and B32DEC only, CODE_MEM by TRUNC, HOTPGEN and TOTPGEN only. -/
def Obligations.CompletionFrame : Prop :=
  ∀ (i : Instr) (s t : State), s.busy = false → exec i s = .next t →
    OperandsKept s (complete t) ∧ HostSideKept s (complete t) ∧ (complete t).dropped = s.dropped ∧
    (complete t).cmd = encode i ∧ (complete t).busy = false ∧ (complete t).done = true ∧
    (match i with
     | .b32enc _ _ => ResultsKept s { complete t with doutLen := s.doutLen } ∧ MemKeptOutside .dout s (complete t)
     | .b32dec _ _ => ResultsKept s { complete t with doutLen := s.doutLen } ∧ MemKeptOutside .dout s (complete t)
     | .trunc _ _ => ResultsKept s { complete t with codeVal := s.codeVal, codeLen := s.codeLen } ∧
         MemKeptOutside .code s (complete t)
     | .hotpgen _ _ => ResultsKept s { complete t with codeVal := s.codeVal, codeLen := s.codeLen } ∧
         MemKeptOutside .code s (complete t)
     | .totpgen _ _ => ResultsKept s { complete t with codeVal := s.codeVal, codeLen := s.codeLen, rctr := s.rctr } ∧
         MemKeptOutside .code s (complete t)
     | .hotpver _ _ => ResultsKept s { complete t with success := s.success, delta := s.delta } ∧
         (complete t).mem = s.mem
     | .totpver _ _ => ResultsKept s { complete t with success := s.success, delta := s.delta, rctr := s.rctr } ∧
         (complete t).mem = s.mem
     | .tstep _ _ => ResultsKept s { complete t with rctr := s.rctr } ∧ (complete t).mem = s.mem
     | .trem _ _ => ResultsKept s { complete t with rem := s.rem } ∧ (complete t).mem = s.mem)

/-- R213: a command that raises an error completes with that error's code, BUSY 0 and DONE 1; it writes no result
register, no output buffer and no operand register, and CMD still reads the command word. -/
def Obligations.ErrorHasNoOtherEffect : Prop :=
  ∀ (s : State) (c : Word) (k : ErrKind), s.inflight = some (c, .error k) → s.delay = 0 →
    ∃ u, step s = .next u ∧ u.err = errCode k ∧ u.busy = false ∧ u.done = true ∧ u.cmd = s.cmd ∧
      u.dropped = s.dropped ∧ OperandsKept s u ∧ ResultsKept s u ∧ u.mem = s.mem ∧ HostSideKept s u

/-- A command's meaning always answers a next state but where it reads a buffer byte that nothing has written since
reset (10_state.md section 5; 60_exceptions.md section 3): it never refuses, and the fault names such a byte. -/
def Obligations.MeaningsStopOnlyOnUnwrittenBytes : Prop :=
  ∀ (i : Instr) (s : State), (∃ t, exec i s = .next t) ∨
    (∃ a, exec i s = .fault (.uninitRead a) ∧ memGet s.mem a = none ∧ s.busy = false)

/-- A command that gets as far as reading a buffer with an unwritten byte below its length stops with UninitRead, which
names such a byte of that buffer (10_state.md section 5; 70_reset_and_hazards.md section 2; log entry 5). -/
def Obligations.UnwrittenInputStopsTheCommand : Prop :=
  ∀ (alg digits : Nat) (s : State) (k : Nat), s.busy = false →
    (k < s.dinLen.toNat → s.dinLen.toNat ≤ s.cfg.dinMax → memGet s.mem (0x3000 + k) = none →
      ∃ a, 0x3000 ≤ a ∧ a ≤ 0x3000 + k ∧ memGet s.mem a = none ∧
        exec (.b32enc alg digits) s = .fault (.uninitRead a) ∧
        exec (.b32dec alg digits) s = .fault (.uninitRead a) ∧
        (6 ≤ digits → digits ≤ 10 → exec (.trunc alg digits) s = .fault (.uninitRead a))) ∧
    (k < s.secretLen.toNat → s.secretLen.toNat ≤ s.cfg.secretMax → memGet s.mem (0x1000 + k) = none →
      6 ≤ digits → digits ≤ 10 →
      ∃ a, 0x1000 ≤ a ∧ a ≤ 0x1000 + k ∧ memGet s.mem a = none ∧
        (s.ctrExt = 0 → exec (.hotpgen alg digits) s = .fault (.uninitRead a)) ∧
        (s.ctrExt = 0 → s.tokenLen.toNat ≤ 16 → alg < 4 → exec (.hotpver alg digits) s = .fault (.uninitRead a)) ∧
        (0 < periodSeconds s → 0 ≤ timestampMillis s →
          exec (.totpgen alg digits) s = .fault (.uninitRead a)) ∧
        (0 < periodSeconds s → s.tokenLen.toNat ≤ 16 → alg < 4 →
          exec (.totpver alg digits) s = .fault (.uninitRead a))) ∧
    (k < s.tokenLen.toNat → s.tokenLen.toNat ≤ 16 → memGet s.mem (0x2000 + k) = none →
      6 ≤ digits → digits ≤ 10 → alg < 4 → ∀ sec, SecretReady s sec →
      ∃ a, 0x2000 ≤ a ∧ a ≤ 0x2000 + k ∧ memGet s.mem a = none ∧
        (s.ctrExt = 0 → exec (.hotpver alg digits) s = .fault (.uninitRead a)) ∧
        (0 < periodSeconds s → exec (.totpver alg digits) s = .fault (.uninitRead a)))

/-! ### Base32 commands -/

/-- R106, B32ENC: with a length over capacity it is rejected with LengthOutOfRange (ERR 8), else DOUT_LEN and DOUT_MEM
hold the encoding and then 0x00; no other result and no other byte changes; ALG and DIGITS are ignored. The empty
input gives an empty output, and "foobar" gives "MZXW6YTBOI======". -/
def Obligations.B32encEncodesDin : Prop :=
  decode 0x00000001 = .ok (.b32enc 0 0) ∧ base32Encode [] = [] ∧
  base32Encode [0x66, 0x6F, 0x6F, 0x62, 0x61, 0x72] =
    [0x4D, 0x5A, 0x58, 0x57, 0x36, 0x59, 0x54, 0x42, 0x4F, 0x49, 0x3D, 0x3D, 0x3D, 0x3D, 0x3D, 0x3D] ∧
  ∀ (alg digits : Nat) (s : State), s.busy = false → s.cfg.legal →
    (s.dinLen.toNat > s.cfg.dinMax → Rejects (.b32enc alg digits) s 8) ∧
    ∀ inp, DinReady s inp →
      ∃ t, exec (.b32enc alg digits) s = .next t ∧ IssuedFrom (encode (.b32enc alg digits)) s t ∧
        CompletedFrom (encode (.b32enc alg digits)) 0 s (complete t) ∧
        (complete t).doutLen.toNat = (base32Encode inp).length ∧
        OutputHolds (complete t) .dout (doutMax s.cfg) (base32Encode inp) ∧
        ResultsKept s { complete t with doutLen := s.doutLen } ∧ MemKeptOutside .dout s (complete t)

/-- B32DEC (40_base32.md sections 3 and 4): with a length over capacity it is rejected with LengthOutOfRange (ERR 8), else
DOUT_LEN and DOUT_MEM hold the decoding and then 0x00, whatever the characters; nothing else changes; ALG and
DIGITS are ignored. That DOUT_LEN is floor(5k/8) for k kept characters is what the spec derives from its unpacking
rule. The spec's cases: "========", "0189" and "A" give nothing, "mzxw6ytboi======" gives "foobar", "MY==MY" gives
66 19, "MF" and "ME" give 61, "GEZDGNBV" gives "12345". -/
def Obligations.B32decDecodesDin : Prop :=
  decode 0x00000002 = .ok (.b32dec 0 0) ∧ base32Decode (List.replicate 8 0x3D) = [] ∧
  base32Decode [0x30, 0x31, 0x38, 0x39] = [] ∧ base32Decode [0x41] = [] ∧
  base32Decode [0x6D, 0x7A, 0x78, 0x77, 0x36, 0x79, 0x74, 0x62, 0x6F, 0x69, 0x3D, 0x3D, 0x3D, 0x3D, 0x3D, 0x3D] =
    [0x66, 0x6F, 0x6F, 0x62, 0x61, 0x72] ∧
  base32Decode [0x4D, 0x59, 0x3D, 0x3D, 0x4D, 0x59] = [0x66, 0x19] ∧
  base32Decode [0x4D, 0x46] = [0x61] ∧ base32Decode [0x4D, 0x45] = [0x61] ∧
  base32Decode [0x47, 0x45, 0x5A, 0x44, 0x47, 0x4E, 0x42, 0x56] = [0x31, 0x32, 0x33, 0x34, 0x35] ∧
  ∀ (alg digits : Nat) (s : State), s.busy = false → s.cfg.legal →
    (s.dinLen.toNat > s.cfg.dinMax → Rejects (.b32dec alg digits) s 8) ∧
    ∀ inp, DinReady s inp →
      ∃ t, exec (.b32dec alg digits) s = .next t ∧ IssuedFrom (encode (.b32dec alg digits)) s t ∧
        CompletedFrom (encode (.b32dec alg digits)) 0 s (complete t) ∧
        (complete t).doutLen.toNat = (base32Decode inp).length ∧
        (complete t).doutLen.toNat = 5 * (keptChars inp).length / 8 ∧
        OutputHolds (complete t) .dout (doutMax s.cfg) (base32Decode inp) ∧
        ResultsKept s { complete t with doutLen := s.doutLen } ∧ MemKeptOutside .dout s (complete t)

/-- R108: decoding an encoding gives the bytes back, for every byte sequence, the empty one included. -/
def Obligations.Base32RoundTrip : Prop :=
  ∀ b : Bytes, base32Decode (base32Encode b) = b

/-- R102: an encoding of n bytes is ceil(8n/5) alphabet characters followed by 8*ceil(n/5) - ceil(8n/5) '=', so
8*ceil(n/5) characters in all, none for the empty input. -/
def Obligations.EncodingIsPaddedToEight : Prop :=
  ∀ b : Bytes, ∃ chars : Bytes,
    base32Encode b = chars ++ List.replicate (8 * ((b.length + 4) / 5) - (8 * b.length + 4) / 5) 0x3D ∧
    chars.length = (8 * b.length + 4) / 5 ∧
    (base32Encode b).length = 8 * ((b.length + 4) / 5) ∧
    ∀ ch ∈ chars, (0x41 ≤ ch.toNat ∧ ch.toNat ≤ 0x5A) ∨ (0x32 ≤ ch.toNat ∧ ch.toNat ≤ 0x37)

/-- Decoding depends only on the kept characters in order: lower-case letters count as upper case, every byte that is
then not in the alphabet is skipped, and k kept characters give floor(5k/8) bytes (40_base32.md sections 3
and 5; the totality law is one the spec marks as derived). -/
def Obligations.DecodingSkipsOtherCharacters : Prop :=
  ∀ s : Bytes, base32Decode s = base32Decode (keptChars s) ∧ (base32Decode s).length = 5 * (keptChars s).length / 8

/-- The reverse law fails: "MF" decodes to one byte, whose encoding is not "MF" (40_base32.md section 5, a law the spec
derives). -/
def Obligations.ReverseCodecLawFails : Prop :=
  ∃ s : Bytes, s = [0x4D, 0x46] ∧ base32Decode s = [0x61] ∧ base32Encode (base32Decode s) ≠ s

/-! ### Dynamic truncation -/

/-- TRUNC (42_truncation.md section 3): the checks in order (LengthOutOfRange 8, InvalidDigits 3, TruncationOutOfRange 6),
else CODE_VAL, CODE_LEN and CODE_MEM hold the code of the digest in DIN_MEM; nothing else changes; ALG is ignored.
The spec's cases: four bytes with low nibble 0 are enough and with low nibble 1 are not, only the last byte and the
four at the offset matter, and the example's digest gives 872921. That more than 19 bytes are always enough is what
the spec derives from its offset and range check (section 1). -/
def Obligations.TruncWritesTheCode : Prop :=
  decode 0x00060003 = .ok (.trunc 0 6) ∧
  (∀ (b0 b1 b2 b3 : Byte) (d : Nat), (b3.toNat % 16 = 0 → ∃ v r, truncate [b0, b1, b2, b3] d = .ok (v, r)) ∧
    (b3.toNat % 16 = 1 → truncate [b0, b1, b2, b3] d = .error .truncationOutOfRange)) ∧
  (∀ (dig : Bytes) (d : Nat), 19 < dig.length → ∃ v r, truncate dig d = .ok (v, r)) ∧
  (∀ (dig dig' : Bytes) (last : Byte) (d : Nat), dig.length = dig'.length →
    (∀ j, j < 4 → (dig ++ [last]).getD (last.toNat % 16 + j) 0 = (dig' ++ [last]).getD (last.toNat % 16 + j) 0) →
    truncate (dig ++ [last]) d = truncate (dig' ++ [last]) d) ∧
  truncate [0x1f, 0x86, 0x98, 0x69, 0x0e, 0x02, 0xca, 0x16, 0x61, 0x85, 0x50, 0xef, 0x7f, 0x19, 0xda, 0x8e, 0x94, 0x5b,
    0x55, 0x5a] 6 = .ok (872921, [0x38, 0x37, 0x32, 0x39, 0x32, 0x31]) ∧
  ∀ (alg digits : Nat) (s : State), s.busy = false →
    (s.dinLen.toNat > s.cfg.dinMax → Rejects (.trunc alg digits) s 8) ∧
    (s.dinLen.toNat ≤ s.cfg.dinMax → digits < 6 ∨ digits > 10 → Rejects (.trunc alg digits) s 3) ∧
    ∀ dig, DinReady s dig → 6 ≤ digits → digits ≤ 10 →
      (∀ k, truncate dig digits = .error k → Rejects (.trunc alg digits) s 6) ∧
      ∀ v r, truncate dig digits = .ok (v, r) →
        ∃ t, exec (.trunc alg digits) s = .next t ∧ IssuedFrom (encode (.trunc alg digits)) s t ∧
          CompletedFrom (encode (.trunc alg digits)) 0 s (complete t) ∧
          (complete t).codeVal.toNat = v ∧ (complete t).codeLen.toNat = digits ∧
          OutputHolds (complete t) .code 12 r ∧
          ResultsKept s { complete t with codeVal := s.codeVal, codeLen := s.codeLen } ∧
          MemKeptOutside .code s (complete t)

/-- R143 (with R142 and R141): truncation fails exactly for an empty digest and for one whose length is below offset + 4,
where the offset is the low 4 bits of the last byte; the error is always TruncationOutOfRange. -/
def Obligations.TruncationRangeCheck : Prop :=
  (∀ d, truncate [] d = .error .truncationOutOfRange) ∧
  ∀ (dig : Bytes) (last : Byte) (d : Nat),
    if (last &&& 0x0F).toNat + 4 > (dig ++ [last]).length then
      truncate (dig ++ [last]) d = .error .truncationOutOfRange
    else ∃ v r, truncate (dig ++ [last]) d = .ok (v, r)

/-- R144 and R145: the code value is the 31-bit slice of the four bytes at the offset, the top bit masked, modulo
10^digits. -/
def Obligations.TruncationSlicesAndReduces : Prop :=
  ∀ (dig : Bytes) (last : Byte) (d v : Nat) (r : Bytes), truncate (dig ++ [last]) d = .ok (v, r) →
    let full := dig ++ [last]
    let o := (last &&& 0x0F).toNat
    v = ((((full.getD o 0).toNat &&& 0x7F) <<< 24) ||| ((full.getD (o + 1) 0).toNat <<< 16) |||
      ((full.getD (o + 2) 0).toNat <<< 8) ||| (full.getD (o + 3) 0).toNat) % 10 ^ d

/-- R147: the rendering has exactly d characters, all decimal digits, and read as a decimal number, most significant
digit first, it is the value. -/
def Obligations.RenderingIsZeroPaddedDecimal : Prop :=
  ∀ v d : Nat, v < 10 ^ d →
    (renderDigits v d).length = d ∧
    (∀ ch ∈ renderDigits v d, 0x30 ≤ ch.toNat ∧ ch.toNat ≤ 0x39) ∧
    (renderDigits v d).foldl (fun acc ch => 10 * acc + (ch.toNat - 0x30)) 0 = v

/-- The range of a code (42_truncation.md section 1, a range the spec derives): below 2^31 and below 10^d; of width 10 it
begins with 0, 1 or 2. -/
def Obligations.CodesStayInRange : Prop :=
  ∀ (dig : Bytes) (d v : Nat) (r : Bytes), truncate dig d = .ok (v, r) →
    v < 2 ^ 31 ∧ v < 10 ^ d ∧ r = renderDigits v d ∧
    (d = 10 → r.getD 0 0 = 0x30 ∨ r.getD 0 0 = 0x31 ∨ r.getD 0 0 = 0x32)

/-- Nesting of widths (42_truncation.md section 4, a law the spec derives): the narrower code is the wider one reduced, and
its rendering is the wider one's last characters. -/
def Obligations.NarrowerCodesAreSuffixes : Prop :=
  ∀ (dig : Bytes) (d d' v v' : Nat) (r r' : Bytes), d ≤ d' →
    truncate dig d = .ok (v, r) → truncate dig d' = .ok (v', r') →
    v = v' % 10 ^ d ∧ r = r'.drop (d' - d)

/-- A digest of a conformant length is never too short; so with an HMAC unit whose digests have their algorithms' lengths
every counter has a code, and no HOTP or TOTP command ends in TruncationOutOfRange (42_truncation.md section 4, a
law the spec derives; 41_hmac_interface.md section 1 for the property; 00_scope.md section 4 for the lengths). -/
def Obligations.ConformantDigestsTruncate : Prop :=
  (∀ (a : Alg) (dig : Bytes) (d : Nat), dig.length = a.digestLength → ∃ v r, truncate dig d = .ok (v, r)) ∧
  ∀ hmac : Oracle, HmacLengthConformant hmac →
    (∀ (a : Alg) (key : Bytes) (c d : Nat), ∃ v r, hotpCode hmac a key c d = .ok (v, r)) ∧
    ∀ (alg d : Nat) (s : State),
      hotpgenResult alg d s hmac ≠ .error (.err .truncationOutOfRange) ∧
      hotpverResult alg d s hmac ≠ .error (.err .truncationOutOfRange) ∧
      totpgenResult alg d s hmac ≠ .error (.err .truncationOutOfRange) ∧
      totpverResult alg d s hmac ≠ .error (.err .truncationOutOfRange)

/-! ### HOTP -/

/-- R123: the counter message is exactly 8 bytes, big-endian, for every counter from 0 to 2^64 - 1. -/
def Obligations.CounterMessageIsBigEndian : Prop :=
  ∀ c : Nat, c < 2 ^ 64 →
    (counterBytes c).length = 8 ∧
    (counterBytes c).foldl (fun acc b => 256 * acc + b.toNat) 0 = c ∧
    ∀ j, j < 8 → ((counterBytes c).getD j 0).toNat = c / 2 ^ (56 - 8 * j) % 256

/-- HOTPGEN's result (43_hotp.md section 2): for a ready secret, a non-negative counter, a legal width and a known
algorithm it writes the truncation of the HMAC unit's digest of the counter message under the decoded key, and
nothing else; the counter is every 64-bit value. -/
def Obligations.HotpgenWritesTheCode : Prop :=
  ∀ (digits : Nat) (a : Alg) (s : State) (sec : Bytes) (v : Nat) (r : Bytes),
    s.busy = false → SecretReady s sec → s.ctrExt = 0 → 6 ≤ digits → digits ≤ 10 →
    truncate (hmacOf s.cfg a (base32Decode sec) (counterBytes (s.ctrHi ++ s.ctrLo).toNat)) digits = .ok (v, r) →
    ∃ t, exec (.hotpgen (algCode a) digits) s = .next t ∧ IssuedFrom (encode (.hotpgen (algCode a) digits)) s t ∧
      CompletedFrom (encode (.hotpgen (algCode a) digits)) 0 s (complete t) ∧
      (complete t).codeVal.toNat = v ∧ (complete t).codeLen.toNat = digits ∧
      OutputHolds (complete t) .code 12 r ∧
      ResultsKept s { complete t with codeVal := s.codeVal, codeLen := s.codeLen } ∧
      MemKeptOutside .code s (complete t)

/-- HOTPGEN's errors in their order (60_exceptions.md section 2; 43_hotp.md section 2): LengthOutOfRange 8,
InvalidSecret 1, InvalidCounter 2, InvalidDigits 3, UnsupportedAlgorithm 5, TruncationOutOfRange 6. -/
def Obligations.HotpgenErrorsInOrder : Prop :=
  ∀ (alg digits : Nat) (s : State), s.busy = false →
    (s.secretLen.toNat > s.cfg.secretMax → Rejects (.hotpgen alg digits) s 8) ∧
    (s.secretLen.toNat ≤ s.cfg.secretMax →
      (s.secretLen = 0 → Rejects (.hotpgen alg digits) s 1) ∧
      (s.secretLen ≠ 0 →
        (s.ctrExt = 1 → Rejects (.hotpgen alg digits) s 2) ∧
        (s.ctrExt = 0 → digits < 6 ∨ digits > 10 → Rejects (.hotpgen alg digits) s 3))) ∧
    (∀ sec, SecretReady s sec → s.ctrExt = 0 → 6 ≤ digits → digits ≤ 10 →
      (4 ≤ alg → Rejects (.hotpgen alg digits) s 5) ∧
      ∀ a k, algCode a = alg →
        truncate (hmacOf s.cfg a (base32Decode sec) (counterBytes (s.ctrHi ++ s.ctrLo).toNat)) digits = .error k →
        Rejects (.hotpgen alg digits) s 6)

/-- HOTPVER with a match (43_hotp.md section 3): the first candidate CTR + i, i at most w and CTR + i at most 2^64 - 1, whose
code is the token gives SUCCESS 1 and DELTA i; nothing else changes. -/
def Obligations.HotpverReportsTheFirstMatch : Prop :=
  ∀ (digits : Nat) (a : Alg) (s : State) (sec tok : Bytes) (i v : Nat),
    s.busy = false → SecretReady s sec → TokenReady s tok → s.ctrExt = 0 → 6 ≤ digits → digits ≤ 10 →
    i ≤ s.window.toNat → (s.ctrHi ++ s.ctrLo).toNat + i ≤ 2 ^ 64 - 1 →
    (∀ j, j < i → Misses (fun c => hotpCode (hmacOf s.cfg) a (base32Decode sec) c digits) tok
      ((s.ctrHi ++ s.ctrLo).toNat + j)) →
    hotpCode (hmacOf s.cfg) a (base32Decode sec) ((s.ctrHi ++ s.ctrLo).toNat + i) digits = .ok (v, tok) →
    ∃ t, exec (.hotpver (algCode a) digits) s = .next t ∧ IssuedFrom (encode (.hotpver (algCode a) digits)) s t ∧
      CompletedFrom (encode (.hotpver (algCode a) digits)) 0 s (complete t) ∧
      (complete t).success = true ∧ (complete t).delta.toInt = i ∧
      ResultsKept s { complete t with success := s.success, delta := s.delta } ∧ (complete t).mem = s.mem

/-- HOTPVER without a match (43_hotp.md section 3): when every candidate in the window and in range has another code than
the token, it completes without error with SUCCESS 0 and DELTA 0. -/
def Obligations.HotpverReportsNoMatch : Prop :=
  ∀ (digits : Nat) (a : Alg) (s : State) (sec tok : Bytes),
    s.busy = false → SecretReady s sec → TokenReady s tok → s.ctrExt = 0 → 6 ≤ digits → digits ≤ 10 →
    (∀ j, j ≤ s.window.toNat → (s.ctrHi ++ s.ctrLo).toNat + j ≤ 2 ^ 64 - 1 →
      Misses (fun c => hotpCode (hmacOf s.cfg) a (base32Decode sec) c digits) tok
        ((s.ctrHi ++ s.ctrLo).toNat + j)) →
    ∃ t, exec (.hotpver (algCode a) digits) s = .next t ∧ IssuedFrom (encode (.hotpver (algCode a) digits)) s t ∧
      CompletedFrom (encode (.hotpver (algCode a) digits)) 0 s (complete t) ∧
      (complete t).success = false ∧ (complete t).delta = 0 ∧
      ResultsKept s { complete t with success := s.success, delta := s.delta } ∧ (complete t).mem = s.mem

/-- HOTPVER's errors in their order (60_exceptions.md section 2; 43_hotp.md section 3); a short digest counts only when no
earlier candidate matched. -/
def Obligations.HotpverErrorsInOrder : Prop :=
  ∀ (alg digits : Nat) (s : State), s.busy = false →
    (s.secretLen.toNat > s.cfg.secretMax ∨ s.tokenLen.toNat > 16 → Rejects (.hotpver alg digits) s 8) ∧
    (s.secretLen.toNat ≤ s.cfg.secretMax → s.tokenLen.toNat ≤ 16 →
      (s.secretLen = 0 → Rejects (.hotpver alg digits) s 1) ∧
      (s.secretLen ≠ 0 →
        (s.ctrExt = 1 → Rejects (.hotpver alg digits) s 2) ∧
        (s.ctrExt = 0 →
          (digits < 6 ∨ digits > 10 → Rejects (.hotpver alg digits) s 3) ∧
          (6 ≤ digits → digits ≤ 10 → 4 ≤ alg → Rejects (.hotpver alg digits) s 5)))) ∧
    (∀ sec tok a i k, SecretReady s sec → TokenReady s tok → s.ctrExt = 0 → 6 ≤ digits → digits ≤ 10 →
      algCode a = alg → i ≤ s.window.toNat → (s.ctrHi ++ s.ctrLo).toNat + i ≤ 2 ^ 64 - 1 →
      (∀ j, j < i → Misses (fun c => hotpCode (hmacOf s.cfg) a (base32Decode sec) c digits) tok
        ((s.ctrHi ++ s.ctrLo).toNat + j)) →
      hotpCode (hmacOf s.cfg) a (base32Decode sec) ((s.ctrHi ++ s.ctrLo).toNat + i) digits = .error k →
      Rejects (.hotpver alg digits) s 6)

/-- Forward only (43_hotp.md section 4, a law the spec derives): whatever the operands, a successful HOTPVER reports a delta
from 0 to w, and the code of CTR + DELTA, a 64-bit counter, is the token. -/
def Obligations.HotpverNeverLooksBack : Prop :=
  ∀ (alg digits : Nat) (s t : State), s.busy = false → exec (.hotpver alg digits) s = .next t →
    (complete t).err = 0 → (complete t).success = true →
    0 ≤ (complete t).delta.toInt ∧ (complete t).delta.toInt ≤ s.window.toNat ∧
    (s.ctrHi ++ s.ctrLo).toNat + (complete t).delta.toNat < 2 ^ 64 ∧
    ∃ a sec tok v, algCode a = alg ∧ SecretReady s sec ∧ TokenReady s tok ∧
      hotpCode (hmacOf s.cfg) a (base32Decode sec) ((s.ctrHi ++ s.ctrLo).toNat + (complete t).delta.toNat) digits =
        .ok (v, tok)

/-- Window zero (43_hotp.md section 4, a law the spec derives): with w = 0 and a token within capacity, HOTPVER ends with
HOTPGEN's error, and where there is none it succeeds exactly when HOTPGEN's code is the token, with DELTA 0. -/
def Obligations.WindowZeroAgreesWithGeneration : Prop :=
  ∀ (alg digits : Nat) (s tg tv : State) (tok : Bytes), s.busy = false → TokenReady s tok → s.window = 0 →
    exec (.hotpgen alg digits) s = .next tg → exec (.hotpver alg digits) s = .next tv →
    (complete tv).err = (complete tg).err ∧
    ((complete tv).err = 0 →
      (complete tv).delta = 0 ∧
      ((complete tv).success = true ↔ tok.length = digits ∧ BufHolds (complete tg) .code tok))

/-! ### TOTP -/

/-- R182, TSTEP: a period that is not positive is rejected with InvalidPeriod (ERR 4); else RCTR is the floor of TS / (1000
P), negative steps included, and nothing else changes; ALG and DIGITS are ignored. -/
def Obligations.TstepWritesTheFloor : Prop :=
  decode 0x00000022 = .ok (.tstep 0 0) ∧
  ∀ (alg digits : Nat) (s : State), s.busy = false →
    (s.period.toInt ≤ 0 → Rejects (.tstep alg digits) s 4) ∧
    (0 < s.period.toInt →
      ∃ t, exec (.tstep alg digits) s = .next t ∧ IssuedFrom (encode (.tstep alg digits)) s t ∧
        CompletedFrom (encode (.tstep alg digits)) 0 s (complete t) ∧
        1000 * s.period.toInt * (complete t).rctr.toInt ≤ (s.tsHi ++ s.tsLo).toInt ∧
        (s.tsHi ++ s.tsLo).toInt < 1000 * s.period.toInt * ((complete t).rctr.toInt + 1) ∧
        ResultsKept s { complete t with rctr := s.rctr } ∧ (complete t).mem = s.mem)

/-- TREM (44_totp.md section 1): a period that is not positive is rejected with InvalidPeriod (ERR 4); else REM, in
milliseconds, is 1000 P minus TS mod 1000 P, from 1 to 1000 P; nothing else changes; ALG and DIGITS are ignored.
That TS + REM is the start of the next step, 1000 P (timeStep + 1), is what the spec derives from its time step. -/
def Obligations.TremWritesTheRemainder : Prop :=
  decode 0x00000023 = .ok (.trem 0 0) ∧
  ∀ (alg digits : Nat) (s : State), s.busy = false →
    (s.period.toInt ≤ 0 → Rejects (.trem alg digits) s 4) ∧
    (0 < s.period.toInt →
      ∃ t, exec (.trem alg digits) s = .next t ∧ IssuedFrom (encode (.trem alg digits)) s t ∧
        CompletedFrom (encode (.trem alg digits)) 0 s (complete t) ∧
        ((complete t).rem.toNat : Int) =
          1000 * s.period.toInt - (s.tsHi ++ s.tsLo).toInt % (1000 * s.period.toInt) ∧
        1 ≤ (complete t).rem.toNat ∧ ((complete t).rem.toNat : Int) ≤ 1000 * s.period.toInt ∧
        (s.tsHi ++ s.tsLo).toInt + (complete t).rem.toNat =
          1000 * s.period.toInt * (timeStep (s.tsHi ++ s.tsLo).toInt s.period.toInt + 1) ∧
        ResultsKept s { complete t with rem := s.rem } ∧ (complete t).mem = s.mem)

/-- TOTPGEN's result (44_totp.md section 2): for a ready secret, a positive period, a timestamp at or after the epoch, a
legal width and a known algorithm it writes the code of the time step and the step itself in RCTR; nothing else
changes. -/
def Obligations.TotpgenWritesCodeAndStep : Prop :=
  ∀ (digits : Nat) (a : Alg) (s : State) (sec : Bytes) (v : Nat) (r : Bytes),
    s.busy = false → SecretReady s sec → 0 < s.period.toInt → 0 ≤ (s.tsHi ++ s.tsLo).toInt →
    6 ≤ digits → digits ≤ 10 →
    truncate (hmacOf s.cfg a (base32Decode sec)
      (counterBytes ((s.tsHi ++ s.tsLo).toInt / (1000 * s.period.toInt)).toNat)) digits = .ok (v, r) →
    ∃ t, exec (.totpgen (algCode a) digits) s = .next t ∧ IssuedFrom (encode (.totpgen (algCode a) digits)) s t ∧
      CompletedFrom (encode (.totpgen (algCode a) digits)) 0 s (complete t) ∧
      (complete t).codeVal.toNat = v ∧ (complete t).codeLen.toNat = digits ∧
      OutputHolds (complete t) .code 12 r ∧
      (complete t).rctr.toInt = (s.tsHi ++ s.tsLo).toInt / (1000 * s.period.toInt) ∧
      ResultsKept s { complete t with codeVal := s.codeVal, codeLen := s.codeLen, rctr := s.rctr } ∧
      MemKeptOutside .code s (complete t)

/-- TOTPGEN's errors in their order (60_exceptions.md section 2; 44_totp.md section 2). -/
def Obligations.TotpgenErrorsInOrder : Prop :=
  ∀ (alg digits : Nat) (s : State), s.busy = false →
    (s.secretLen.toNat > s.cfg.secretMax → Rejects (.totpgen alg digits) s 8) ∧
    (s.secretLen.toNat ≤ s.cfg.secretMax →
      (s.period.toInt ≤ 0 → Rejects (.totpgen alg digits) s 4) ∧
      (0 < s.period.toInt →
        (s.secretLen = 0 → Rejects (.totpgen alg digits) s 1) ∧
        (s.secretLen ≠ 0 →
          ((s.tsHi ++ s.tsLo).toInt < 0 → Rejects (.totpgen alg digits) s 2) ∧
          (0 ≤ (s.tsHi ++ s.tsLo).toInt → digits < 6 ∨ digits > 10 → Rejects (.totpgen alg digits) s 3)))) ∧
    (∀ sec, SecretReady s sec → 0 < s.period.toInt → 0 ≤ (s.tsHi ++ s.tsLo).toInt → 6 ≤ digits → digits ≤ 10 →
      (4 ≤ alg → Rejects (.totpgen alg digits) s 5) ∧
      ∀ a k, algCode a = alg →
        truncate (hmacOf s.cfg a (base32Decode sec)
          (counterBytes ((s.tsHi ++ s.tsLo).toInt / (1000 * s.period.toInt)).toNat)) digits = .error k →
        Rejects (.totpgen alg digits) s 6)

/-- TOTPVER with a match (44_totp.md section 3): of the candidates current + delta for delta from -w to w, the non-negative
ones in ascending order, the first whose code is the token gives SUCCESS 1 and its signed DELTA; RCTR is
current; nothing else changes. -/
def Obligations.TotpverReportsTheLeastDelta : Prop :=
  ∀ (digits : Nat) (a : Alg) (s : State) (sec tok : Bytes) (δ : Int) (v : Nat),
    let current := (s.tsHi ++ s.tsLo).toInt / (1000 * s.period.toInt)
    s.busy = false → SecretReady s sec → TokenReady s tok → 0 < s.period.toInt → 6 ≤ digits → digits ≤ 10 →
    -(s.window.toNat : Int) ≤ δ → δ ≤ s.window.toNat → 0 ≤ current + δ →
    (∀ ε : Int, -(s.window.toNat : Int) ≤ ε → ε < δ → 0 ≤ current + ε →
      Misses (fun c => hotpCode (hmacOf s.cfg) a (base32Decode sec) c digits) tok (current + ε).toNat) →
    hotpCode (hmacOf s.cfg) a (base32Decode sec) (current + δ).toNat digits = .ok (v, tok) →
    ∃ t, exec (.totpver (algCode a) digits) s = .next t ∧ IssuedFrom (encode (.totpver (algCode a) digits)) s t ∧
      CompletedFrom (encode (.totpver (algCode a) digits)) 0 s (complete t) ∧
      (complete t).success = true ∧ (complete t).delta.toInt = δ ∧ (complete t).rctr.toInt = current ∧
      ResultsKept s { complete t with success := s.success, delta := s.delta, rctr := s.rctr } ∧
      (complete t).mem = s.mem

/-- TOTPVER without a match (44_totp.md section 3): when every non-negative candidate of the window has another code than
the token (also when there is no such candidate), it completes without error with SUCCESS 0, DELTA 0 and RCTR
current. -/
def Obligations.TotpverReportsNoMatch : Prop :=
  ∀ (digits : Nat) (a : Alg) (s : State) (sec tok : Bytes),
    let current := (s.tsHi ++ s.tsLo).toInt / (1000 * s.period.toInt)
    s.busy = false → SecretReady s sec → TokenReady s tok → 0 < s.period.toInt → 6 ≤ digits → digits ≤ 10 →
    (∀ ε : Int, -(s.window.toNat : Int) ≤ ε → ε ≤ s.window.toNat → 0 ≤ current + ε →
      Misses (fun c => hotpCode (hmacOf s.cfg) a (base32Decode sec) c digits) tok (current + ε).toNat) →
    ∃ t, exec (.totpver (algCode a) digits) s = .next t ∧ IssuedFrom (encode (.totpver (algCode a) digits)) s t ∧
      CompletedFrom (encode (.totpver (algCode a) digits)) 0 s (complete t) ∧
      (complete t).success = false ∧ (complete t).delta = 0 ∧ (complete t).rctr.toInt = current ∧
      ResultsKept s { complete t with success := s.success, delta := s.delta, rctr := s.rctr } ∧
      (complete t).mem = s.mem

/-- TOTPVER's errors in their order (60_exceptions.md section 2; 44_totp.md section 3); InvalidCounter is not among them,
and a short digest counts only when no earlier candidate matched. -/
def Obligations.TotpverErrorsInOrder : Prop :=
  ∀ (alg digits : Nat) (s : State), s.busy = false →
    (s.secretLen.toNat > s.cfg.secretMax ∨ s.tokenLen.toNat > 16 → Rejects (.totpver alg digits) s 8) ∧
    (s.secretLen.toNat ≤ s.cfg.secretMax → s.tokenLen.toNat ≤ 16 →
      (s.period.toInt ≤ 0 → Rejects (.totpver alg digits) s 4) ∧
      (0 < s.period.toInt →
        (s.secretLen = 0 → Rejects (.totpver alg digits) s 1) ∧
        (s.secretLen ≠ 0 →
          (digits < 6 ∨ digits > 10 → Rejects (.totpver alg digits) s 3) ∧
          (6 ≤ digits → digits ≤ 10 → 4 ≤ alg → Rejects (.totpver alg digits) s 5)))) ∧
    (∀ sec tok a k, ∀ δ : Int, SecretReady s sec → TokenReady s tok → 0 < s.period.toInt →
      6 ≤ digits → digits ≤ 10 → algCode a = alg →
      -(s.window.toNat : Int) ≤ δ → δ ≤ s.window.toNat →
      0 ≤ (s.tsHi ++ s.tsLo).toInt / (1000 * s.period.toInt) + δ →
      (∀ ε : Int, -(s.window.toNat : Int) ≤ ε → ε < δ →
        0 ≤ (s.tsHi ++ s.tsLo).toInt / (1000 * s.period.toInt) + ε →
        Misses (fun c => hotpCode (hmacOf s.cfg) a (base32Decode sec) c digits) tok
          ((s.tsHi ++ s.tsLo).toInt / (1000 * s.period.toInt) + ε).toNat) →
      hotpCode (hmacOf s.cfg) a (base32Decode sec)
        ((s.tsHi ++ s.tsLo).toInt / (1000 * s.period.toInt) + δ).toNat digits = .error k →
      Rejects (.totpver alg digits) s 6)

/-- Delegation (44_totp.md section 4, a law the spec derives): where TOTPGEN ends without error, HOTPGEN with the counter set
to the time step ends without error and leaves the same code. -/
def Obligations.TotpgenDelegatesToHotpgen : Prop :=
  ∀ (alg digits : Nat) (s t : State) (c : BitVec 64), s.busy = false → exec (.totpgen alg digits) s = .next t →
    (complete t).err = 0 → (c.toNat : Int) = (s.tsHi ++ s.tsLo).toInt / (1000 * s.period.toInt) →
    ∃ u, exec (.hotpgen alg digits)
        { s with ctrExt := 0, ctrHi := c.extractLsb' 32 32, ctrLo := c.extractLsb' 0 32 } = .next u ∧
      (complete u).err = 0 ∧ (complete u).codeVal = (complete t).codeVal ∧
      (complete u).codeLen = (complete t).codeLen ∧
      ∀ a, memGet (complete u).mem a = memGet (complete t).mem a

/-! ### The host bus -/

/-- R57: what a host write to a mapped address does. RW registers hold the used bits of the value, STATUS loses DROPPED if
bit 8 is set, RO registers and RO buffers stay, an RW buffer's four bytes are written, and with BUSY = 1 only
DROPPED changes; a write to CMD that goes on issues that word. -/
def Obligations.HostWritesByTarget : Prop :=
  ∀ (s : State) (a : BitVec 16) (v : Word) (tgt : Target), busTarget s.cfg a .word = some tgt →
    if s.busy = true then hostWrite a .word v s = .next { s with dropped := true }
    else match tgt with
      | .reg .cmd => hostWrite a .word v s = writeCmd v s ∧ ∀ t, hostWrite a .word v s = .next t → IssuedFrom v s t
      | .reg .status => hostWrite a .word v s =
          .next { s with dropped := if v &&& 0x100 = 0 then s.dropped else false }
      | .reg .ctrLo => hostWrite a .word v s = .next { s with ctrLo := v }
      | .reg .ctrHi => hostWrite a .word v s = .next { s with ctrHi := v }
      | .reg .ctrExt => ∃ b, hostWrite a .word v s = .next { s with ctrExt := b } ∧ b.toNat = v.toNat % 2
      | .reg .window => hostWrite a .word v s = .next { s with window := v }
      | .reg .period => hostWrite a .word v s = .next { s with period := v }
      | .reg .tsLo => hostWrite a .word v s = .next { s with tsLo := v }
      | .reg .tsHi => hostWrite a .word v s = .next { s with tsHi := v }
      | .reg .secretLen => ∃ n, hostWrite a .word v s = .next { s with secretLen := n } ∧ n.toNat = v.toNat % 2 ^ 16
      | .reg .tokenLen => ∃ n, hostWrite a .word v s = .next { s with tokenLen := n } ∧ n.toNat = v.toNat % 2 ^ 16
      | .reg .dinLen => ∃ n, hostWrite a .word v s = .next { s with dinLen := n } ∧ n.toNat = v.toNat % 2 ^ 16
      | .reg _ => hostWrite a .word v s = .next s
      | .buf b k =>
        if b = .dout ∨ b = .code then hostWrite a .word v s = .next s
        else ∃ m, hostWrite a .word v s = .next { s with mem := m } ∧
          ∀ x, memGet m x =
            if bufBase b + k ≤ x ∧ x < bufBase b + k + 4 then
              some (BitVec.ofNat 8 (v.toNat / 2 ^ (8 * (x - (bufBase b + k))))) else memGet s.mem x

/-- R53: a buffer word is little-endian: its read is the four bytes, that of the least index in the low bits; a write to an
RW buffer while the block is idle stores the word's bytes so; byte k of a buffer is at its base + k. -/
def Obligations.BufferWordsAreLittleEndian : Prop :=
  ∀ (s : State) (a : BitVec 16) (b : Buf) (k : Nat), busTarget s.cfg a .word = some (.buf b k) →
    a.toNat = bufBase b + k ∧
    (∀ b0 b1 b2 b3 : Byte, memGet s.mem (bufBase b + k) = some b0 → memGet s.mem (bufBase b + k + 1) = some b1 →
      memGet s.mem (bufBase b + k + 2) = some b2 → memGet s.mem (bufBase b + k + 3) = some b3 →
      ∃ t, hostRead a .word s = .ok (b3 ++ b2 ++ b1 ++ b0, t)) ∧
    ∀ v : Word, s.busy = false → bufWritable b = true →
      ∃ t, hostWrite a .word v s = .next t ∧
        memGet t.mem (bufBase b + k) = some (v.extractLsb' 0 8) ∧
        memGet t.mem (bufBase b + k + 1) = some (v.extractLsb' 8 8) ∧
        memGet t.mem (bufBase b + k + 2) = some (v.extractLsb' 16 8) ∧
        memGet t.mem (bufBase b + k + 3) = some (v.extractLsb' 24 8)

/-- The three kinds of bus error (20_memory.md section 1) stop the run, for reads and writes, also while BUSY = 1; every other
access of a mapped word does not (section 3; log entry 8 for the order against the write lock). -/
def Obligations.BusErrorsExactly : Prop :=
  ∀ (s : State) (a : BitVec 16) (w : AccessWidth) (v : Word),
    if w ≠ .word ∨ a.toNat % 4 ≠ 0 ∨
        ¬ (a.toNat ≤ 0x2C ∨ (0x40 ≤ a.toNat ∧ a.toNat ≤ 0x64) ∨
          (0x1000 ≤ a.toNat ∧ a.toNat < 0x1000 + s.cfg.secretMax) ∨ (0x2000 ≤ a.toNat ∧ a.toNat < 0x2010) ∨
          (0x3000 ≤ a.toNat ∧ a.toNat < 0x3000 + s.cfg.dinMax) ∨
          (0x4000 ≤ a.toNat ∧ a.toNat < 0x4000 + 8 * ((s.cfg.dinMax + 4) / 5)) ∨
          (0x5000 ≤ a.toNat ∧ a.toNat < 0x500C)) then
      hostRead a w s = .error (.busError false a w) ∧ hostWrite a w v s = .fault (.busError true a w)
    else (∃ x, hostRead a w s = .ok x) ∧ ∀ f, hostWrite a w v s = .fault f → ∃ b, f = .uninitRead b

/-- R36: while a command is in flight (and it is not the sequencer's turn), a host write to any mapped address is ignored and
sets DROPPED: no operand, no result, no byte of memory and nothing of the command in flight changes; and a host
read returns what the register's fields or the buffer's bytes hold, which are the values at issue because only
completion commits results. -/
def Obligations.WriteLockWhileBusy : Prop :=
  ∀ (s : State) (a : BitVec 16) (v : Word) (tgt : Target) (rest : List HostOp),
    s.busy = true → 0 < s.delay → busTarget s.cfg a .word = some tgt →
    (s.host = .write a .word v :: rest →
      ∃ t, step s = .next t ∧ t.dropped = true ∧ t.inflight = s.inflight ∧ t.cmd = s.cmd ∧ t.err = s.err ∧
        t.done = s.done ∧ OperandsKept s t ∧ ResultsKept s t ∧ t.mem = s.mem) ∧
    (s.host = .read a .word :: rest →
      ∃ t, step s = .next t ∧ t.inflight = s.inflight ∧ OperandsKept s t ∧ ResultsKept s t ∧ t.mem = s.mem ∧
        (∀ r, tgt = .reg r → t.observed = s.observed ++ [readReg r s] ∧ RegReads s r (readReg r s)) ∧
        ∀ b k, tgt = .buf b k → ∀ b0 b1 b2 b3 : Byte, memGet s.mem (bufBase b + k) = some b0 →
          memGet s.mem (bufBase b + k + 1) = some b1 → memGet s.mem (bufBase b + k + 2) = some b2 →
          memGet s.mem (bufBase b + k + 3) = some b3 → t.observed = s.observed ++ [b3 ++ b2 ++ b1 ++ b0])

/-- Every register is at its address (20_memory.md section 3). Reads have no side effect (20_memory.md section 4): a host read
changes nothing but the host's own observation and the counter of free values. A register read gives that register's
fields at their bits, reserved bits 0, and the half of a wide value its address names (10_state.md sections 1, 3, 4
and 6; 20_memory.md section 2), and it is repeatable. -/
def Obligations.ReadsHaveNoSideEffect : Prop :=
  (∀ p : Params, ∀ x ∈ [((0x0000 : BitVec 16), Reg.cmd), (0x0004, .status), (0x0008, .ctrLo), (0x000C, .ctrHi),
      (0x0010, .ctrExt), (0x0014, .window), (0x0018, .period), (0x001C, .tsLo), (0x0020, .tsHi), (0x0024, .secretLen),
      (0x0028, .tokenLen), (0x002C, .dinLen), (0x0040, .codeVal), (0x0044, .codeLen), (0x0048, .resFlags),
      (0x004C, .deltaLo), (0x0050, .deltaHi), (0x0054, .rctrLo), (0x0058, .rctrHi), (0x005C, .remLo), (0x0060, .remHi),
      (0x0064, .doutLen)], busTarget p x.1 .word = some (.reg x.2)) ∧
  ∀ (s t : State) (a : BitVec 16) (w : AccessWidth) (v : Word), hostRead a w s = .ok (v, t) →
    t = { s with observed := s.observed ++ [v], draws := t.draws } ∧
    ∀ r, busTarget s.cfg a w = some (.reg r) →
      v = readReg r s ∧ RegReads s r v ∧ ∃ u, hostRead a w t = .ok (v, u)

/-- R33: the bits of STATUS as the host reads it: BUSY 0, DONE 1, ERR 7:4, DROPPED 8, every other bit 0. -/
def Obligations.StatusBits : Prop :=
  ∀ (s : State) (n : Nat), (readReg .status s).getLsbD n =
    if n = 0 then s.busy else if n = 1 then s.done
    else if 4 ≤ n ∧ n ≤ 7 then s.err.getLsbD (n - 4) else n == 8 && s.dropped

/-! ### Reset -/

/-- R230: after reset every register reads 0, nothing is in flight, DOUT_MEM and CODE_MEM are 0x00, and every byte of the
host-writable buffers is unwritten. -/
def Obligations.ResetLeavesEverythingZero : Prop :=
  (∀ r : Reg, readReg r State.reset = 0) ∧ State.reset.inflight = none ∧
  (∀ a, 0x4000 ≤ a → a < 0x6000 → memGet State.reset.mem a = some 0) ∧
  (∀ a, 0x1000 ≤ a → a < 0x4000 → memGet State.reset.mem a = none)

/-- A reset, also during a command, leaves the state of reset: the command is abandoned, nothing of it is committed, and a
later completion has nothing to commit (70_reset_and_hazards.md section 1). That reset is one operation of the
host's list, done in one step that is not the sequencer's turn, and that it keeps the configuration and the rest of
the list, is the model's choice (log entry 9). -/
def Obligations.ResetAbandonsTheCommand : Prop :=
  ∀ (s : State) (rest : List HostOp), s.host = .reset :: rest → (s.busy = false ∨ 0 < s.delay) →
    ∃ t, step s = .next t ∧ t.busy = false ∧ t.inflight = none ∧ (∀ r : Reg, readReg r t = 0) ∧
      t.mem = [] ∧ complete t = t ∧ t.cfg = s.cfg ∧ t.host = rest

/-- What the commands give with every register at its reset value (70_reset_and_hazards.md section 2): empty codec output,
TruncationOutOfRange or InvalidDigits from TRUNC, InvalidSecret from HOTP, InvalidPeriod from TOTP commands. -/
def Obligations.CommandsAtReset : Prop :=
  ∀ alg digits : Nat,
    (∃ t, exec (.b32enc alg digits) State.reset = .next t ∧ (complete t).err = 0 ∧ (complete t).doutLen = 0) ∧
    (∃ t, exec (.b32dec alg digits) State.reset = .next t ∧ (complete t).err = 0 ∧ (complete t).doutLen = 0) ∧
    Rejects (.trunc alg digits) State.reset (if 6 ≤ digits ∧ digits ≤ 10 then 6 else 3) ∧
    Rejects (.hotpgen alg digits) State.reset 1 ∧ Rejects (.hotpver alg digits) State.reset 1 ∧
    Rejects (.totpgen alg digits) State.reset 4 ∧ Rejects (.totpver alg digits) State.reset 4 ∧
    Rejects (.tstep alg digits) State.reset 4 ∧ Rejects (.trem alg digits) State.reset 4

/-! ### Invariants and whole-machine rules -/

/-- Every step keeps buffer memory in its canonical form (the model's own form of the buffers of 10_state.md section 1). -/
def Obligations.StepKeepsMemoryCanonical : Prop :=
  ∀ s t : State, s.mem.wf → step s = .next t → t.mem.wf

/-- Every step keeps STATUS consistent: ERR never holds a reserved code, and while a command is in flight DONE and ERR are 0
and CMD holds its word (10_state.md sections 4, 5 and 7; 60_exceptions.md section 1). -/
def Obligations.StepKeepsStatusConsistent : Prop :=
  ∀ s t : State, StatusInv s → step s = .next t → StatusInv t

/-- Every step keeps the results consistent: the code registers hold a code of legal width with its digits in CODE_MEM or
nothing yet, DELTA is 0 without SUCCESS, RCTR is a time step in its range, DOUT_MEM is 0x00 from DOUT_LEN on, and
what a command in flight will write keeps that so (10_state.md section 3; 42_truncation.md section 4;
44_totp.md section 1). -/
def Obligations.StepKeepsResultsConsistent : Prop :=
  ∀ s t : State, ResultInv s → step s = .next t → ResultInv t

/-- The three invariants hold at reset (70_reset_and_hazards.md section 1), and reset is a clean entry. -/
def Obligations.ResetMeetsTheInvariants : Prop :=
  State.reset.mem.wf ∧ StatusInv State.reset ∧ ResultInv State.reset ∧ CleanEntry State.reset

/-- No step changes the configuration (10_state.md section 6). -/
def Obligations.ConfigurationNeverChanges : Prop :=
  ∀ s t : State, step s = .next t → t.cfg = s.cfg

/-- Only completion and reset change a result register or an output buffer (10_state.md section 7): a step in which neither
happens leaves every result and every byte of DOUT_MEM and CODE_MEM as it was. The windows are apart in a legal
configuration. -/
def Obligations.ResultsChangeOnlyAtCompletion : Prop :=
  ∀ s t : State, s.cfg.legal → step s = .next t → (s.busy = false ∨ 0 < s.delay) → s.host.head? ≠ some .reset →
    ResultsKept s t ∧ ∀ a, 0x4000 ≤ a → memGet t.mem a = memGet s.mem a

/-- A step stops only as 60_exceptions.md section 3 names: a bus error, a command that reads an unwritten byte, or a driver
argument out of range; no command is left without a meaning. -/
def Obligations.StepStopsOnlyAsNamed : Prop :=
  ∀ s : State, (∃ t, step s = .next t) ∨ (∃ w a width, step s = .fault (.busError w a width)) ∨
    (∃ a, step s = .fault (.uninitRead a) ∧ memGet s.mem a = none) ∨
    (∃ arg, step s = .refused (.operandOutOfRange arg))

/-- With the host waiting, the command in flight completes after exactly its delay of polls, each of which read the same
BUSY status, and its outcome is the one fixed at issue. The spec has completion come after an unspecified finite
number of host steps (70_reset_and_hazards.md section 3); that the number is the model's own delay field (log entry
3) and that WAIT is one STATUS read a step (log entry 10) are the model's choices. -/
def Obligations.WaitingEndsInCompletion : Prop :=
  ∀ (s : State) (c : Word) (o : CmdOutcome) (rest : List HostOp), s.inflight = some (c, o) → s.host = .wait :: rest →
    ∃ u, Host.Core.run Sys2Proof.core (s.delay + 1) s = .next u ∧ u.busy = false ∧ u.done = true ∧
      u.observed = s.observed ++ List.replicate s.delay (statusWord s) ∧
      u = { complete s with observed := s.observed ++ List.replicate s.delay (statusWord s) }

/-! ### The driver -/

/-- Which calls the driver refuses, and that it refuses no other: a counter of 2^64 or more, a period above 2^31 - 1, a
timestamp outside 64 bits, a window outside 32 bits, a secret longer than SECRET_MAX; digits and tokens are never
refused (30_encoding.md section 5). That the codec calls are never refused, also beyond DIN_MAX, is the model's
inference from the rule's silence on their argument (log entry 11). -/
def Obligations.DriverRefusesExactlyOutOfRange : Prop :=
  ∀ (p : Params) (sec tok tag : Bytes) (counter digits period ts window : Int),
    ((∃ e, expandCall p (.hotpGenerate sec counter digits tag) = .error e) ↔
      sec.length > p.secretMax ∨ counter ≥ 2 ^ 64) ∧
    ((∃ e, expandCall p (.hotpVerify tok sec counter digits tag window) = .error e) ↔
      sec.length > p.secretMax ∨ counter ≥ 2 ^ 64 ∨ window < 0 ∨ window ≥ 2 ^ 32) ∧
    ((∃ e, expandCall p (.totpGenerate sec period digits ts tag) = .error e) ↔
      sec.length > p.secretMax ∨ period ≥ 2 ^ 31 ∨ ts < -(2 ^ 63) ∨ ts ≥ 2 ^ 63) ∧
    ((∃ e, expandCall p (.totpVerify tok sec period digits window ts tag) = .error e) ↔
      sec.length > p.secretMax ∨ period ≥ 2 ^ 31 ∨ ts < -(2 ^ 63) ∨ ts ≥ 2 ^ 63 ∨ window < 0 ∨ window ≥ 2 ^ 32) ∧
    ((∃ e, expandCall p (.timeStep ts period) = .error e) ↔ period ≥ 2 ^ 31 ∨ ts < -(2 ^ 63) ∨ ts ≥ 2 ^ 63) ∧
    ((∃ e, expandCall p (.timeRemaining ts period) = .error e) ↔ period ≥ 2 ^ 31 ∨ ts < -(2 ^ 63) ∨ ts ≥ 2 ^ 63) ∧
    (∃ ops, expandCall p (.base32Encode sec) = .ok ops) ∧ (∃ ops, expandCall p (.base32Decode sec) = .ok ops)

/-- A driver call of timeStep from an idle block ends, after some number of steps whatever the delay of the command (the
model's own, log entry 3; the readback is one step, log entry 10), with the floor of timestamp / (1000 period)
returned to the caller (30_encoding.md section 6; 44_totp.md section 1). -/
def Obligations.TimeStepCallReturnsTheFloor : Prop :=
  ∀ (s : State) (ts period : Int), s.busy = false → s.host = [.call (.timeStep ts period)] →
    1 ≤ period → period < 2 ^ 31 → -(2 ^ 63) ≤ ts → ts < 2 ^ 63 →
    ∃ n u, Host.Core.run Sys2Proof.core n s = .next u ∧ RunEnded u ∧ u.err = 0 ∧
      u.returned = s.returned ++ [.step (ts / (1000 * period))]

/-- A driver call of timeStep with a period that is not positive ends with InvalidPeriod returned to the caller
(30_encoding.md section 6; 44_totp.md section 1), also one below -2^31, which the driver writes as 0 (30_encoding.md
section 5). That the run ends rests on the finite completion of 70_reset_and_hazards.md section 3, which is the
model's own delay (log entry 3); the readback is one step (log entry 10). -/
def Obligations.TimeStepCallReportsBadPeriod : Prop :=
  ∀ (s : State) (ts period : Int), s.busy = false → s.host = [.call (.timeStep ts period)] →
    period ≤ 0 → -(2 ^ 63) ≤ ts → ts < 2 ^ 63 →
    ∃ n u, Host.Core.run Sys2Proof.core n s = .next u ∧ RunEnded u ∧ u.returned = s.returned ++ [.failed 4]
end

