-- ==== Sys2Proof/Laws/Memory.lean ====
section
/-! SUPPORT. The laws of buffer memory: a read after a write, writes elsewhere, and that every memory operation
keeps the canonical form. -/

namespace Sys2Proof.Machine

/-! ### The canonical form -/

theorem wf_nil : Memory.wf [] := ⟨List.Pairwise.nil, fun _ h => nomatch h⟩

/-- Memory is canonical at reset. -/
theorem reset_mem_wf : State.reset.mem.wf := wf_nil

theorem wf_filter {m : Memory} (p : Host.Cell → Bool) (h : m.wf) : Memory.wf (m.filter p) :=
  ⟨h.1.filter p, fun c hc => h.2 c (List.mem_filter.mp hc).1⟩

theorem wf_memErase {m : Memory} (a : Nat) (h : m.wf) : Memory.wf (memErase m a) := wf_filter _ h

theorem wf_memUnlist {m : Memory} (a n : Nat) (h : m.wf) : Memory.wf (memUnlist m a n) := wf_filter _ h

/-- The cells of an insertion: the new one, and old ones. -/
theorem mem_memInsert {m : Memory} {a : Nat} {v : Byte} {c : Host.Cell} (h : c ∈ memInsert m a v) :
    c = (a, v) ∨ c ∈ m := by
  induction m with
  | nil => simpa [memInsert] using h
  | cons hd tl ih =>
    obtain ⟨k, b⟩ := hd
    unfold memInsert at h
    split at h
    · simpa using h
    · split at h
      · rcases List.mem_cons.mp h with h | h
        · exact .inl h
        · exact .inr (List.mem_cons_of_mem _ h)
      · rcases List.mem_cons.mp h with h | h
        · exact .inr (h ▸ List.mem_cons_self)
        · exact (ih h).imp_right (List.mem_cons_of_mem _)

theorem pairwise_memInsert {m : Memory} (a : Nat) (v : Byte) (h : m.Pairwise (fun x y => x.1 < y.1)) :
    (memInsert m a v).Pairwise (fun x y => x.1 < y.1) := by
  induction m with
  | nil => simp [memInsert]
  | cons hd tl ih =>
    obtain ⟨k, b⟩ := hd
    rw [List.pairwise_cons] at h
    unfold memInsert
    split
    · rename_i hlt
      refine List.pairwise_cons.mpr ⟨fun c hc => ?_, List.pairwise_cons.mpr h⟩
      rcases List.mem_cons.mp hc with rfl | hc
      · exact hlt
      · exact Nat.lt_trans hlt (h.1 c hc)
    · split
      · rename_i heq
        exact List.pairwise_cons.mpr ⟨fun c hc => heq ▸ h.1 c hc, h.2⟩
      · refine List.pairwise_cons.mpr ⟨fun c hc => ?_, ih h.2⟩
        rcases mem_memInsert hc with rfl | hc
        · show k < a
          omega
        · exact h.1 c hc

/-- Writing a byte keeps the canonical form. -/
theorem wf_memSet {m : Memory} (a : Nat) (v : Byte) (h : m.wf) : Memory.wf (memSet m a v) := by
  unfold memSet
  split
  · exact wf_memErase a h
  · rename_i hne
    refine ⟨pairwise_memInsert a v h.1, fun c hc => ?_⟩
    rcases mem_memInsert hc with rfl | hc
    · exact hne
    · exact h.2 c hc

theorem wf_memSetBytes {m : Memory} (a : Nat) (bs : Bytes) (h : m.wf) : Memory.wf (memSetBytes m a bs) := by
  induction bs generalizing m a with
  | nil => exact h
  | cons b bs ih => exact ih (a + 1) (wf_memSet a b h)

theorem wf_writeOutput {m : Memory} (p : Params) (b : Buf) (bs : Bytes) (h : m.wf) :
    Memory.wf (writeOutput p m b bs) :=
  wf_memSetBytes _ _ (wf_memUnlist _ _ h)

theorem wf_commitMem {m : Memory} (p : Params) (ws : Writes) (h : m.wf) : Memory.wf (commitMem p ws m) := by
  unfold commitMem
  cases ws.code <;> cases ws.dout <;> simp only [] <;>
    first
    | exact h
    | exact wf_writeOutput _ _ _ h
    | exact wf_writeOutput _ _ _ (wf_writeOutput _ _ _ h)

/-! ### Reads after writes -/

theorem memFind_filter_kept (m : Memory) (p : Host.Cell → Bool) (a : Nat) (h : ∀ b, p (a, b) = true) :
    memFind (m.filter p) a = memFind m a := by
  induction m with
  | nil => rfl
  | cons hd tl ih =>
    obtain ⟨k, b⟩ := hd
    by_cases hk : k = a
    · subst hk
      simp [h, memFind]
    · by_cases hp : p (k, b) = true
      · simp [hp, memFind, hk, ih]
      · simp [hp, memFind, hk, ih]

theorem memFind_filter_gone (m : Memory) (p : Host.Cell → Bool) (a : Nat) (h : ∀ b, p (a, b) = false) :
    memFind (m.filter p) a = none := by
  induction m with
  | nil => rfl
  | cons hd tl ih =>
    obtain ⟨k, b⟩ := hd
    by_cases hk : k = a
    · subst hk
      simp [h, ih]
    · by_cases hp : p (k, b) = true
      · simp [hp, memFind, hk, ih]
      · simp [hp, ih]

theorem memFind_memInsert_same (m : Memory) (a : Nat) (v : Byte) : memFind (memInsert m a v) a = some v := by
  induction m with
  | nil => simp [memInsert, memFind]
  | cons hd tl ih =>
    obtain ⟨k, b⟩ := hd
    unfold memInsert
    split
    · simp [memFind]
    · split
      · simp [memFind]
      · rename_i hne
        simp [memFind, Ne.symm hne, ih]

theorem memFind_memInsert_other (m : Memory) {a x : Nat} (v : Byte) (h : x ≠ a) :
    memFind (memInsert m a v) x = memFind m x := by
  induction m with
  | nil => simp [memInsert, memFind, h.symm]
  | cons hd tl ih =>
    obtain ⟨k, b⟩ := hd
    unfold memInsert
    split
    · simp [memFind, h.symm]
    · split
      · rename_i heq
        simp [memFind, h.symm, ← heq]
      · simp [memFind, ih]

/-- A read of the byte just written gives it; every other byte reads as before. -/
theorem memGet_memSet (m : Memory) (a x : Nat) (v : Byte) :
    memGet (memSet m a v) x = if x = a then some v else memGet m x := by
  unfold memSet
  split
  · rename_i hu
    by_cases hx : x = a
    · subst hx
      simp [memGet, memErase, memFind_filter_gone, hu]
    · have := memFind_filter_kept m (fun c => c.1 != a) x (by simp [hx])
      simp [memGet, memErase, this, hx]
  · by_cases hx : x = a
    · subst hx
      simp [memGet, memFind_memInsert_same]
    · simp [memGet, memFind_memInsert_other _ _ hx, hx]

/-- A read after writing a byte sequence. -/
theorem memGet_memSetBytes (m : Memory) (a x : Nat) (bs : Bytes) :
    memGet (memSetBytes m a bs) x =
      if a ≤ x ∧ x < a + bs.length then some (bs.getD (x - a) 0) else memGet m x := by
  induction bs generalizing m a with
  | nil =>
    rw [if_neg (by simp)]
    rfl
  | cons b bs ih =>
    rw [memSetBytes, ih, memGet_memSet]
    by_cases hx : x = a
    · subst hx
      rw [if_neg (by omega), if_pos rfl, if_pos (by simp)]
      simp
    · by_cases hin : a + 1 ≤ x ∧ x < a + 1 + bs.length
      · rw [if_pos hin, if_pos (by simp only [List.length_cons]; omega)]
        obtain ⟨n, rfl⟩ : ∃ n, x = a + 1 + n := ⟨x - (a + 1), by omega⟩
        have h1 : a + 1 + n - (a + 1) = n := by omega
        have h2 : a + 1 + n - a = n + 1 := by omega
        rw [h1, h2, List.getD_cons_succ]
      · rw [if_neg hin, if_neg hx, if_neg (by simp only [List.length_cons]; omega)]

/-- The addresses taken off the list read as unlisted again; the others as before. -/
theorem memGet_memUnlist (m : Memory) (a n x : Nat) :
    memGet (memUnlist m a n) x = if a ≤ x ∧ x < a + n then unlisted x else memGet m x := by
  by_cases h : a ≤ x ∧ x < a + n
  · rw [if_pos h, memGet, memUnlist, memFind_filter_gone _ _ _ (by simp [h.1, h.2])]
  · rw [if_neg h, memGet, memUnlist, memFind_filter_kept _ _ _ (by simp; omega)]
    rfl

/-- A read of an output buffer after a command wrote it. -/
theorem memGet_writeOutput (p : Params) (m : Memory) (b : Buf) (bs : Bytes) (x : Nat) :
    memGet (writeOutput p m b bs) x =
      if bufBase b ≤ x ∧ x < bufBase b + bs.length then some (bs.getD (x - bufBase b) 0)
      else if bufBase b ≤ x ∧ x < bufBase b + bufCap p b then unlisted x
      else memGet m x := by
  rw [writeOutput, memGet_memSetBytes, memGet_memUnlist]

/-! ### Reading a byte sequence -/

/-- A successful read: every byte has been written, and these are the bytes. -/
theorem memGetBytes_ok {m : Memory} {a n : Nat} {bs : Bytes} :
    memGetBytes m a n = .ok bs ↔ bs.length = n ∧ ∀ k, k < n → memGet m (a + k) = some (bs.getD k 0) := by
  induction n generalizing a bs with
  | zero =>
    cases bs <;> simp [memGetBytes]
  | succ n ih =>
    rw [memGetBytes]
    constructor
    · intro h
      split at h
      · cases h
      · rename_i b hb
        split at h
        · rename_i tl htl
          cases h
          obtain ⟨h1, h2⟩ := ih.mp htl
          refine ⟨by simp [h1], fun k hk => ?_⟩
          cases k with
          | zero => simpa using hb
          | succ k =>
            have := h2 k (by omega)
            rw [show a + (k + 1) = a + 1 + k by omega, List.getD_cons_succ]
            exact this
        · cases h
    · rintro ⟨hl, h⟩
      cases bs with
      | nil => simp at hl
      | cons b tl =>
        have h0 : memGet m a = some b := by simpa using h 0 (by omega)
        have htl : memGetBytes m (a + 1) n = .ok tl := by
          refine ih.mpr ⟨by simpa using hl, fun k hk => ?_⟩
          have := h (k + 1) (by omega)
          rw [show a + (k + 1) = a + 1 + k by omega, List.getD_cons_succ] at this
          exact this
        rw [h0]
        simp only [htl]

/-- A failed read names the first byte nothing has written. -/
theorem memGetBytes_error {m : Memory} {a n x : Nat} :
    memGetBytes m a n = .error x ↔
      ∃ k, k < n ∧ x = a + k ∧ memGet m x = none ∧ ∀ j, j < k → memGet m (a + j) ≠ none := by
  induction n generalizing a with
  | zero => simp [memGetBytes]
  | succ n ih =>
    rw [memGetBytes]
    constructor
    · intro h
      split at h
      · rename_i hb
        cases h
        exact ⟨0, by omega, by omega, hb, fun j hj => absurd hj (by omega)⟩
      · rename_i b hb
        split at h
        · cases h
        · rename_i e he
          cases h
          obtain ⟨k, hk, rfl, hn, hj⟩ := ih.mp he
          refine ⟨k + 1, by omega, by omega, hn, fun j hjk => ?_⟩
          cases j with
          | zero => simp [hb]
          | succ j =>
            rw [show a + (j + 1) = a + 1 + j by omega]
            exact hj j (by omega)
    · rintro ⟨k, hk, rfl, hn, hj⟩
      cases k with
      | zero =>
        have hn' : memGet m a = none := hn
        rw [hn']
        rfl
      | succ k =>
        have h0 := hj 0 (by omega)
        rw [Nat.add_zero] at h0
        have he : memGetBytes m (a + 1) n = .error (a + (k + 1)) := by
          refine ih.mpr ⟨k, by omega, by omega, hn, fun j hjk => ?_⟩
          have := hj (j + 1) (by omega)
          rw [show a + (j + 1) = a + 1 + j by omega] at this
          exact this
        cases hb : memGet m a with
        | none => exact absurd hb h0
        | some b => simp [he]

end Sys2Proof.Machine
end

