-- ==== Sys2Proof/Laws/State.lean ====
section
/-! SUPPORT. One lemma per field per update of State, each true by rfl. -/

namespace Sys2Proof.Machine

/-! ### A dropped write -/

@[simp] theorem dropWrite_cmd (s : State) : (dropWrite s).cmd = s.cmd := rfl
@[simp] theorem dropWrite_done (s : State) : (dropWrite s).done = s.done := rfl
@[simp] theorem dropWrite_err (s : State) : (dropWrite s).err = s.err := rfl
@[simp] theorem dropWrite_dropped (s : State) : (dropWrite s).dropped = true := rfl
@[simp] theorem dropWrite_ctrLo (s : State) : (dropWrite s).ctrLo = s.ctrLo := rfl
@[simp] theorem dropWrite_ctrHi (s : State) : (dropWrite s).ctrHi = s.ctrHi := rfl
@[simp] theorem dropWrite_ctrExt (s : State) : (dropWrite s).ctrExt = s.ctrExt := rfl
@[simp] theorem dropWrite_window (s : State) : (dropWrite s).window = s.window := rfl
@[simp] theorem dropWrite_period (s : State) : (dropWrite s).period = s.period := rfl
@[simp] theorem dropWrite_tsLo (s : State) : (dropWrite s).tsLo = s.tsLo := rfl
@[simp] theorem dropWrite_tsHi (s : State) : (dropWrite s).tsHi = s.tsHi := rfl
@[simp] theorem dropWrite_secretLen (s : State) : (dropWrite s).secretLen = s.secretLen := rfl
@[simp] theorem dropWrite_tokenLen (s : State) : (dropWrite s).tokenLen = s.tokenLen := rfl
@[simp] theorem dropWrite_dinLen (s : State) : (dropWrite s).dinLen = s.dinLen := rfl
@[simp] theorem dropWrite_mem (s : State) : (dropWrite s).mem = s.mem := rfl
@[simp] theorem dropWrite_codeVal (s : State) : (dropWrite s).codeVal = s.codeVal := rfl
@[simp] theorem dropWrite_codeLen (s : State) : (dropWrite s).codeLen = s.codeLen := rfl
@[simp] theorem dropWrite_success (s : State) : (dropWrite s).success = s.success := rfl
@[simp] theorem dropWrite_delta (s : State) : (dropWrite s).delta = s.delta := rfl
@[simp] theorem dropWrite_rctr (s : State) : (dropWrite s).rctr = s.rctr := rfl
@[simp] theorem dropWrite_rem (s : State) : (dropWrite s).rem = s.rem := rfl
@[simp] theorem dropWrite_doutLen (s : State) : (dropWrite s).doutLen = s.doutLen := rfl
@[simp] theorem dropWrite_inflight (s : State) : (dropWrite s).inflight = s.inflight := rfl
@[simp] theorem dropWrite_cfg (s : State) : (dropWrite s).cfg = s.cfg := rfl
@[simp] theorem dropWrite_delay (s : State) : (dropWrite s).delay = s.delay := rfl
@[simp] theorem dropWrite_delays (s : State) : (dropWrite s).delays = s.delays := rfl
@[simp] theorem dropWrite_draws (s : State) : (dropWrite s).draws = s.draws := rfl
@[simp] theorem dropWrite_host (s : State) : (dropWrite s).host = s.host := rfl
@[simp] theorem dropWrite_observed (s : State) : (dropWrite s).observed = s.observed := rfl
@[simp] theorem dropWrite_returned (s : State) : (dropWrite s).returned = s.returned := rfl

/-! ### A write to STATUS -/

@[simp] theorem writeStatus_cmd (v : Word) (s : State) : (writeStatus v s).cmd = s.cmd := rfl
@[simp] theorem writeStatus_done (v : Word) (s : State) : (writeStatus v s).done = s.done := rfl
@[simp] theorem writeStatus_err (v : Word) (s : State) : (writeStatus v s).err = s.err := rfl
@[simp] theorem writeStatus_dropped (v : Word) (s : State) : (writeStatus v s).dropped = (s.dropped && !v.getLsbD 8) := rfl
@[simp] theorem writeStatus_ctrLo (v : Word) (s : State) : (writeStatus v s).ctrLo = s.ctrLo := rfl
@[simp] theorem writeStatus_ctrHi (v : Word) (s : State) : (writeStatus v s).ctrHi = s.ctrHi := rfl
@[simp] theorem writeStatus_ctrExt (v : Word) (s : State) : (writeStatus v s).ctrExt = s.ctrExt := rfl
@[simp] theorem writeStatus_window (v : Word) (s : State) : (writeStatus v s).window = s.window := rfl
@[simp] theorem writeStatus_period (v : Word) (s : State) : (writeStatus v s).period = s.period := rfl
@[simp] theorem writeStatus_tsLo (v : Word) (s : State) : (writeStatus v s).tsLo = s.tsLo := rfl
@[simp] theorem writeStatus_tsHi (v : Word) (s : State) : (writeStatus v s).tsHi = s.tsHi := rfl
@[simp] theorem writeStatus_secretLen (v : Word) (s : State) : (writeStatus v s).secretLen = s.secretLen := rfl
@[simp] theorem writeStatus_tokenLen (v : Word) (s : State) : (writeStatus v s).tokenLen = s.tokenLen := rfl
@[simp] theorem writeStatus_dinLen (v : Word) (s : State) : (writeStatus v s).dinLen = s.dinLen := rfl
@[simp] theorem writeStatus_mem (v : Word) (s : State) : (writeStatus v s).mem = s.mem := rfl
@[simp] theorem writeStatus_codeVal (v : Word) (s : State) : (writeStatus v s).codeVal = s.codeVal := rfl
@[simp] theorem writeStatus_codeLen (v : Word) (s : State) : (writeStatus v s).codeLen = s.codeLen := rfl
@[simp] theorem writeStatus_success (v : Word) (s : State) : (writeStatus v s).success = s.success := rfl
@[simp] theorem writeStatus_delta (v : Word) (s : State) : (writeStatus v s).delta = s.delta := rfl
@[simp] theorem writeStatus_rctr (v : Word) (s : State) : (writeStatus v s).rctr = s.rctr := rfl
@[simp] theorem writeStatus_rem (v : Word) (s : State) : (writeStatus v s).rem = s.rem := rfl
@[simp] theorem writeStatus_doutLen (v : Word) (s : State) : (writeStatus v s).doutLen = s.doutLen := rfl
@[simp] theorem writeStatus_inflight (v : Word) (s : State) : (writeStatus v s).inflight = s.inflight := rfl
@[simp] theorem writeStatus_cfg (v : Word) (s : State) : (writeStatus v s).cfg = s.cfg := rfl
@[simp] theorem writeStatus_delay (v : Word) (s : State) : (writeStatus v s).delay = s.delay := rfl
@[simp] theorem writeStatus_delays (v : Word) (s : State) : (writeStatus v s).delays = s.delays := rfl
@[simp] theorem writeStatus_draws (v : Word) (s : State) : (writeStatus v s).draws = s.draws := rfl
@[simp] theorem writeStatus_host (v : Word) (s : State) : (writeStatus v s).host = s.host := rfl
@[simp] theorem writeStatus_observed (v : Word) (s : State) : (writeStatus v s).observed = s.observed := rfl
@[simp] theorem writeStatus_returned (v : Word) (s : State) : (writeStatus v s).returned = s.returned := rfl

/-! ### Issue -/

@[simp] theorem issued_cmd (c : Word) (o : CmdOutcome) (s : State) : (issued c o s).cmd = c := rfl
@[simp] theorem issued_done (c : Word) (o : CmdOutcome) (s : State) : (issued c o s).done = false := rfl
@[simp] theorem issued_err (c : Word) (o : CmdOutcome) (s : State) : (issued c o s).err = 0 := rfl
@[simp] theorem issued_dropped (c : Word) (o : CmdOutcome) (s : State) : (issued c o s).dropped = s.dropped := rfl
@[simp] theorem issued_ctrLo (c : Word) (o : CmdOutcome) (s : State) : (issued c o s).ctrLo = s.ctrLo := rfl
@[simp] theorem issued_ctrHi (c : Word) (o : CmdOutcome) (s : State) : (issued c o s).ctrHi = s.ctrHi := rfl
@[simp] theorem issued_ctrExt (c : Word) (o : CmdOutcome) (s : State) : (issued c o s).ctrExt = s.ctrExt := rfl
@[simp] theorem issued_window (c : Word) (o : CmdOutcome) (s : State) : (issued c o s).window = s.window := rfl
@[simp] theorem issued_period (c : Word) (o : CmdOutcome) (s : State) : (issued c o s).period = s.period := rfl
@[simp] theorem issued_tsLo (c : Word) (o : CmdOutcome) (s : State) : (issued c o s).tsLo = s.tsLo := rfl
@[simp] theorem issued_tsHi (c : Word) (o : CmdOutcome) (s : State) : (issued c o s).tsHi = s.tsHi := rfl
@[simp] theorem issued_secretLen (c : Word) (o : CmdOutcome) (s : State) : (issued c o s).secretLen = s.secretLen := rfl
@[simp] theorem issued_tokenLen (c : Word) (o : CmdOutcome) (s : State) : (issued c o s).tokenLen = s.tokenLen := rfl
@[simp] theorem issued_dinLen (c : Word) (o : CmdOutcome) (s : State) : (issued c o s).dinLen = s.dinLen := rfl
@[simp] theorem issued_mem (c : Word) (o : CmdOutcome) (s : State) : (issued c o s).mem = s.mem := rfl
@[simp] theorem issued_codeVal (c : Word) (o : CmdOutcome) (s : State) : (issued c o s).codeVal = s.codeVal := rfl
@[simp] theorem issued_codeLen (c : Word) (o : CmdOutcome) (s : State) : (issued c o s).codeLen = s.codeLen := rfl
@[simp] theorem issued_success (c : Word) (o : CmdOutcome) (s : State) : (issued c o s).success = s.success := rfl
@[simp] theorem issued_delta (c : Word) (o : CmdOutcome) (s : State) : (issued c o s).delta = s.delta := rfl
@[simp] theorem issued_rctr (c : Word) (o : CmdOutcome) (s : State) : (issued c o s).rctr = s.rctr := rfl
@[simp] theorem issued_rem (c : Word) (o : CmdOutcome) (s : State) : (issued c o s).rem = s.rem := rfl
@[simp] theorem issued_doutLen (c : Word) (o : CmdOutcome) (s : State) : (issued c o s).doutLen = s.doutLen := rfl
@[simp] theorem issued_inflight (c : Word) (o : CmdOutcome) (s : State) : (issued c o s).inflight = some (c, o) := rfl
@[simp] theorem issued_cfg (c : Word) (o : CmdOutcome) (s : State) : (issued c o s).cfg = s.cfg := rfl
@[simp] theorem issued_delay (c : Word) (o : CmdOutcome) (s : State) : (issued c o s).delay = nextDelay s := rfl
@[simp] theorem issued_delays (c : Word) (o : CmdOutcome) (s : State) : (issued c o s).delays = s.delays.tail := rfl
@[simp] theorem issued_draws (c : Word) (o : CmdOutcome) (s : State) : (issued c o s).draws = if s.delays.isEmpty then s.draws + 1 else s.draws := rfl
@[simp] theorem issued_host (c : Word) (o : CmdOutcome) (s : State) : (issued c o s).host = s.host := rfl
@[simp] theorem issued_observed (c : Word) (o : CmdOutcome) (s : State) : (issued c o s).observed = s.observed := rfl
@[simp] theorem issued_returned (c : Word) (o : CmdOutcome) (s : State) : (issued c o s).returned = s.returned := rfl

/-! ### Error entry -/

@[simp] theorem enterError_cmd (k : ErrKind) (s : State) : (enterError k s).cmd = s.cmd := rfl
@[simp] theorem enterError_done (k : ErrKind) (s : State) : (enterError k s).done = s.done := rfl
@[simp] theorem enterError_err (k : ErrKind) (s : State) : (enterError k s).err = errCode k := rfl
@[simp] theorem enterError_dropped (k : ErrKind) (s : State) : (enterError k s).dropped = s.dropped := rfl
@[simp] theorem enterError_ctrLo (k : ErrKind) (s : State) : (enterError k s).ctrLo = s.ctrLo := rfl
@[simp] theorem enterError_ctrHi (k : ErrKind) (s : State) : (enterError k s).ctrHi = s.ctrHi := rfl
@[simp] theorem enterError_ctrExt (k : ErrKind) (s : State) : (enterError k s).ctrExt = s.ctrExt := rfl
@[simp] theorem enterError_window (k : ErrKind) (s : State) : (enterError k s).window = s.window := rfl
@[simp] theorem enterError_period (k : ErrKind) (s : State) : (enterError k s).period = s.period := rfl
@[simp] theorem enterError_tsLo (k : ErrKind) (s : State) : (enterError k s).tsLo = s.tsLo := rfl
@[simp] theorem enterError_tsHi (k : ErrKind) (s : State) : (enterError k s).tsHi = s.tsHi := rfl
@[simp] theorem enterError_secretLen (k : ErrKind) (s : State) : (enterError k s).secretLen = s.secretLen := rfl
@[simp] theorem enterError_tokenLen (k : ErrKind) (s : State) : (enterError k s).tokenLen = s.tokenLen := rfl
@[simp] theorem enterError_dinLen (k : ErrKind) (s : State) : (enterError k s).dinLen = s.dinLen := rfl
@[simp] theorem enterError_mem (k : ErrKind) (s : State) : (enterError k s).mem = s.mem := rfl
@[simp] theorem enterError_codeVal (k : ErrKind) (s : State) : (enterError k s).codeVal = s.codeVal := rfl
@[simp] theorem enterError_codeLen (k : ErrKind) (s : State) : (enterError k s).codeLen = s.codeLen := rfl
@[simp] theorem enterError_success (k : ErrKind) (s : State) : (enterError k s).success = s.success := rfl
@[simp] theorem enterError_delta (k : ErrKind) (s : State) : (enterError k s).delta = s.delta := rfl
@[simp] theorem enterError_rctr (k : ErrKind) (s : State) : (enterError k s).rctr = s.rctr := rfl
@[simp] theorem enterError_rem (k : ErrKind) (s : State) : (enterError k s).rem = s.rem := rfl
@[simp] theorem enterError_doutLen (k : ErrKind) (s : State) : (enterError k s).doutLen = s.doutLen := rfl
@[simp] theorem enterError_inflight (k : ErrKind) (s : State) : (enterError k s).inflight = s.inflight := rfl
@[simp] theorem enterError_cfg (k : ErrKind) (s : State) : (enterError k s).cfg = s.cfg := rfl
@[simp] theorem enterError_delay (k : ErrKind) (s : State) : (enterError k s).delay = s.delay := rfl
@[simp] theorem enterError_delays (k : ErrKind) (s : State) : (enterError k s).delays = s.delays := rfl
@[simp] theorem enterError_draws (k : ErrKind) (s : State) : (enterError k s).draws = s.draws := rfl
@[simp] theorem enterError_host (k : ErrKind) (s : State) : (enterError k s).host = s.host := rfl
@[simp] theorem enterError_observed (k : ErrKind) (s : State) : (enterError k s).observed = s.observed := rfl
@[simp] theorem enterError_returned (k : ErrKind) (s : State) : (enterError k s).returned = s.returned := rfl

/-! ### Commit -/

@[simp] theorem commit_cmd (ws : Writes) (s : State) : (commit ws s).cmd = s.cmd := rfl
@[simp] theorem commit_done (ws : Writes) (s : State) : (commit ws s).done = s.done := rfl
@[simp] theorem commit_err (ws : Writes) (s : State) : (commit ws s).err = s.err := rfl
@[simp] theorem commit_dropped (ws : Writes) (s : State) : (commit ws s).dropped = s.dropped := rfl
@[simp] theorem commit_ctrLo (ws : Writes) (s : State) : (commit ws s).ctrLo = s.ctrLo := rfl
@[simp] theorem commit_ctrHi (ws : Writes) (s : State) : (commit ws s).ctrHi = s.ctrHi := rfl
@[simp] theorem commit_ctrExt (ws : Writes) (s : State) : (commit ws s).ctrExt = s.ctrExt := rfl
@[simp] theorem commit_window (ws : Writes) (s : State) : (commit ws s).window = s.window := rfl
@[simp] theorem commit_period (ws : Writes) (s : State) : (commit ws s).period = s.period := rfl
@[simp] theorem commit_tsLo (ws : Writes) (s : State) : (commit ws s).tsLo = s.tsLo := rfl
@[simp] theorem commit_tsHi (ws : Writes) (s : State) : (commit ws s).tsHi = s.tsHi := rfl
@[simp] theorem commit_secretLen (ws : Writes) (s : State) : (commit ws s).secretLen = s.secretLen := rfl
@[simp] theorem commit_tokenLen (ws : Writes) (s : State) : (commit ws s).tokenLen = s.tokenLen := rfl
@[simp] theorem commit_dinLen (ws : Writes) (s : State) : (commit ws s).dinLen = s.dinLen := rfl
@[simp] theorem commit_mem (ws : Writes) (s : State) : (commit ws s).mem = commitMem s.cfg ws s.mem := rfl
@[simp] theorem commit_codeVal (ws : Writes) (s : State) : (commit ws s).codeVal = (ws.code.map (·.val)).getD s.codeVal := rfl
@[simp] theorem commit_codeLen (ws : Writes) (s : State) : (commit ws s).codeLen = (ws.code.map (·.len)).getD s.codeLen := rfl
@[simp] theorem commit_success (ws : Writes) (s : State) : (commit ws s).success = (ws.verify.map (·.success)).getD s.success := rfl
@[simp] theorem commit_delta (ws : Writes) (s : State) : (commit ws s).delta = (ws.verify.map (·.delta)).getD s.delta := rfl
@[simp] theorem commit_rctr (ws : Writes) (s : State) : (commit ws s).rctr = ws.rctr.getD s.rctr := rfl
@[simp] theorem commit_rem (ws : Writes) (s : State) : (commit ws s).rem = ws.rem.getD s.rem := rfl
@[simp] theorem commit_doutLen (ws : Writes) (s : State) : (commit ws s).doutLen = (ws.dout.map (fun o => BitVec.ofNat 32 o.length)).getD s.doutLen := rfl
@[simp] theorem commit_inflight (ws : Writes) (s : State) : (commit ws s).inflight = s.inflight := rfl
@[simp] theorem commit_cfg (ws : Writes) (s : State) : (commit ws s).cfg = s.cfg := rfl
@[simp] theorem commit_delay (ws : Writes) (s : State) : (commit ws s).delay = s.delay := rfl
@[simp] theorem commit_delays (ws : Writes) (s : State) : (commit ws s).delays = s.delays := rfl
@[simp] theorem commit_draws (ws : Writes) (s : State) : (commit ws s).draws = s.draws := rfl
@[simp] theorem commit_host (ws : Writes) (s : State) : (commit ws s).host = s.host := rfl
@[simp] theorem commit_observed (ws : Writes) (s : State) : (commit ws s).observed = s.observed := rfl
@[simp] theorem commit_returned (ws : Writes) (s : State) : (commit ws s).returned = s.returned := rfl

/-! ### Reset -/

@[simp] theorem resetBlock_cmd (s : State) : (resetBlock s).cmd = 0 := rfl
@[simp] theorem resetBlock_done (s : State) : (resetBlock s).done = false := rfl
@[simp] theorem resetBlock_err (s : State) : (resetBlock s).err = 0 := rfl
@[simp] theorem resetBlock_dropped (s : State) : (resetBlock s).dropped = false := rfl
@[simp] theorem resetBlock_ctrLo (s : State) : (resetBlock s).ctrLo = 0 := rfl
@[simp] theorem resetBlock_ctrHi (s : State) : (resetBlock s).ctrHi = 0 := rfl
@[simp] theorem resetBlock_ctrExt (s : State) : (resetBlock s).ctrExt = 0 := rfl
@[simp] theorem resetBlock_window (s : State) : (resetBlock s).window = 0 := rfl
@[simp] theorem resetBlock_period (s : State) : (resetBlock s).period = 0 := rfl
@[simp] theorem resetBlock_tsLo (s : State) : (resetBlock s).tsLo = 0 := rfl
@[simp] theorem resetBlock_tsHi (s : State) : (resetBlock s).tsHi = 0 := rfl
@[simp] theorem resetBlock_secretLen (s : State) : (resetBlock s).secretLen = 0 := rfl
@[simp] theorem resetBlock_tokenLen (s : State) : (resetBlock s).tokenLen = 0 := rfl
@[simp] theorem resetBlock_dinLen (s : State) : (resetBlock s).dinLen = 0 := rfl
@[simp] theorem resetBlock_mem (s : State) : (resetBlock s).mem = [] := rfl
@[simp] theorem resetBlock_codeVal (s : State) : (resetBlock s).codeVal = 0 := rfl
@[simp] theorem resetBlock_codeLen (s : State) : (resetBlock s).codeLen = 0 := rfl
@[simp] theorem resetBlock_success (s : State) : (resetBlock s).success = false := rfl
@[simp] theorem resetBlock_delta (s : State) : (resetBlock s).delta = 0 := rfl
@[simp] theorem resetBlock_rctr (s : State) : (resetBlock s).rctr = 0 := rfl
@[simp] theorem resetBlock_rem (s : State) : (resetBlock s).rem = 0 := rfl
@[simp] theorem resetBlock_doutLen (s : State) : (resetBlock s).doutLen = 0 := rfl
@[simp] theorem resetBlock_inflight (s : State) : (resetBlock s).inflight = none := rfl
@[simp] theorem resetBlock_cfg (s : State) : (resetBlock s).cfg = s.cfg := rfl
@[simp] theorem resetBlock_delay (s : State) : (resetBlock s).delay = 0 := rfl
@[simp] theorem resetBlock_delays (s : State) : (resetBlock s).delays = s.delays := rfl
@[simp] theorem resetBlock_draws (s : State) : (resetBlock s).draws = s.draws := rfl
@[simp] theorem resetBlock_host (s : State) : (resetBlock s).host = s.host := rfl
@[simp] theorem resetBlock_observed (s : State) : (resetBlock s).observed = s.observed := rfl
@[simp] theorem resetBlock_returned (s : State) : (resetBlock s).returned = s.returned := rfl

/-! ### Placing a command -/

@[simp] theorem placeCommand_cmd (c : Word) (s : State) : (placeCommand c s).cmd = s.cmd := rfl
@[simp] theorem placeCommand_done (c : Word) (s : State) : (placeCommand c s).done = s.done := rfl
@[simp] theorem placeCommand_err (c : Word) (s : State) : (placeCommand c s).err = s.err := rfl
@[simp] theorem placeCommand_dropped (c : Word) (s : State) : (placeCommand c s).dropped = s.dropped := rfl
@[simp] theorem placeCommand_ctrLo (c : Word) (s : State) : (placeCommand c s).ctrLo = s.ctrLo := rfl
@[simp] theorem placeCommand_ctrHi (c : Word) (s : State) : (placeCommand c s).ctrHi = s.ctrHi := rfl
@[simp] theorem placeCommand_ctrExt (c : Word) (s : State) : (placeCommand c s).ctrExt = s.ctrExt := rfl
@[simp] theorem placeCommand_window (c : Word) (s : State) : (placeCommand c s).window = s.window := rfl
@[simp] theorem placeCommand_period (c : Word) (s : State) : (placeCommand c s).period = s.period := rfl
@[simp] theorem placeCommand_tsLo (c : Word) (s : State) : (placeCommand c s).tsLo = s.tsLo := rfl
@[simp] theorem placeCommand_tsHi (c : Word) (s : State) : (placeCommand c s).tsHi = s.tsHi := rfl
@[simp] theorem placeCommand_secretLen (c : Word) (s : State) : (placeCommand c s).secretLen = s.secretLen := rfl
@[simp] theorem placeCommand_tokenLen (c : Word) (s : State) : (placeCommand c s).tokenLen = s.tokenLen := rfl
@[simp] theorem placeCommand_dinLen (c : Word) (s : State) : (placeCommand c s).dinLen = s.dinLen := rfl
@[simp] theorem placeCommand_mem (c : Word) (s : State) : (placeCommand c s).mem = s.mem := rfl
@[simp] theorem placeCommand_codeVal (c : Word) (s : State) : (placeCommand c s).codeVal = s.codeVal := rfl
@[simp] theorem placeCommand_codeLen (c : Word) (s : State) : (placeCommand c s).codeLen = s.codeLen := rfl
@[simp] theorem placeCommand_success (c : Word) (s : State) : (placeCommand c s).success = s.success := rfl
@[simp] theorem placeCommand_delta (c : Word) (s : State) : (placeCommand c s).delta = s.delta := rfl
@[simp] theorem placeCommand_rctr (c : Word) (s : State) : (placeCommand c s).rctr = s.rctr := rfl
@[simp] theorem placeCommand_rem (c : Word) (s : State) : (placeCommand c s).rem = s.rem := rfl
@[simp] theorem placeCommand_doutLen (c : Word) (s : State) : (placeCommand c s).doutLen = s.doutLen := rfl
@[simp] theorem placeCommand_inflight (c : Word) (s : State) : (placeCommand c s).inflight = none := rfl
@[simp] theorem placeCommand_cfg (c : Word) (s : State) : (placeCommand c s).cfg = s.cfg := rfl
@[simp] theorem placeCommand_delay (c : Word) (s : State) : (placeCommand c s).delay = s.delay := rfl
@[simp] theorem placeCommand_delays (c : Word) (s : State) : (placeCommand c s).delays = s.delays := rfl
@[simp] theorem placeCommand_draws (c : Word) (s : State) : (placeCommand c s).draws = s.draws := rfl
@[simp] theorem placeCommand_host (c : Word) (s : State) : (placeCommand c s).host = .write 0 .word c :: s.host := rfl
@[simp] theorem placeCommand_observed (c : Word) (s : State) : (placeCommand c s).observed = s.observed := rfl
@[simp] theorem placeCommand_returned (c : Word) (s : State) : (placeCommand c s).returned = s.returned := rfl

/-! ### BUSY -/

@[simp] theorem dropWrite_busy (s : State) : (dropWrite s).busy = s.busy := rfl
@[simp] theorem writeStatus_busy (v : Word) (s : State) : (writeStatus v s).busy = s.busy := rfl
@[simp] theorem issued_busy (c : Word) (o : CmdOutcome) (s : State) : (issued c o s).busy = true := rfl
@[simp] theorem enterError_busy (k : ErrKind) (s : State) : (enterError k s).busy = s.busy := rfl
@[simp] theorem commit_busy (ws : Writes) (s : State) : (commit ws s).busy = s.busy := rfl
@[simp] theorem resetBlock_busy (s : State) : (resetBlock s).busy = false := rfl

/-! ### A write of a buffer word and of a register -/

@[simp] theorem writeBufWord_cmd (b : Buf) (k : Nat) (v : Word) (s : State) : (writeBufWord b k v s).cmd = s.cmd := by
  unfold writeBufWord; split <;> rfl
@[simp] theorem writeBufWord_done (b : Buf) (k : Nat) (v : Word) (s : State) : (writeBufWord b k v s).done = s.done := by
  unfold writeBufWord; split <;> rfl
@[simp] theorem writeBufWord_err (b : Buf) (k : Nat) (v : Word) (s : State) : (writeBufWord b k v s).err = s.err := by
  unfold writeBufWord; split <;> rfl
@[simp] theorem writeBufWord_dropped (b : Buf) (k : Nat) (v : Word) (s : State) : (writeBufWord b k v s).dropped = s.dropped := by
  unfold writeBufWord; split <;> rfl
@[simp] theorem writeBufWord_ctrLo (b : Buf) (k : Nat) (v : Word) (s : State) : (writeBufWord b k v s).ctrLo = s.ctrLo := by
  unfold writeBufWord; split <;> rfl
@[simp] theorem writeBufWord_ctrHi (b : Buf) (k : Nat) (v : Word) (s : State) : (writeBufWord b k v s).ctrHi = s.ctrHi := by
  unfold writeBufWord; split <;> rfl
@[simp] theorem writeBufWord_ctrExt (b : Buf) (k : Nat) (v : Word) (s : State) : (writeBufWord b k v s).ctrExt = s.ctrExt := by
  unfold writeBufWord; split <;> rfl
@[simp] theorem writeBufWord_window (b : Buf) (k : Nat) (v : Word) (s : State) : (writeBufWord b k v s).window = s.window := by
  unfold writeBufWord; split <;> rfl
@[simp] theorem writeBufWord_period (b : Buf) (k : Nat) (v : Word) (s : State) : (writeBufWord b k v s).period = s.period := by
  unfold writeBufWord; split <;> rfl
@[simp] theorem writeBufWord_tsLo (b : Buf) (k : Nat) (v : Word) (s : State) : (writeBufWord b k v s).tsLo = s.tsLo := by
  unfold writeBufWord; split <;> rfl
@[simp] theorem writeBufWord_tsHi (b : Buf) (k : Nat) (v : Word) (s : State) : (writeBufWord b k v s).tsHi = s.tsHi := by
  unfold writeBufWord; split <;> rfl
@[simp] theorem writeBufWord_secretLen (b : Buf) (k : Nat) (v : Word) (s : State) : (writeBufWord b k v s).secretLen = s.secretLen := by
  unfold writeBufWord; split <;> rfl
@[simp] theorem writeBufWord_tokenLen (b : Buf) (k : Nat) (v : Word) (s : State) : (writeBufWord b k v s).tokenLen = s.tokenLen := by
  unfold writeBufWord; split <;> rfl
@[simp] theorem writeBufWord_dinLen (b : Buf) (k : Nat) (v : Word) (s : State) : (writeBufWord b k v s).dinLen = s.dinLen := by
  unfold writeBufWord; split <;> rfl
@[simp] theorem writeBufWord_codeVal (b : Buf) (k : Nat) (v : Word) (s : State) : (writeBufWord b k v s).codeVal = s.codeVal := by
  unfold writeBufWord; split <;> rfl
@[simp] theorem writeBufWord_codeLen (b : Buf) (k : Nat) (v : Word) (s : State) : (writeBufWord b k v s).codeLen = s.codeLen := by
  unfold writeBufWord; split <;> rfl
@[simp] theorem writeBufWord_success (b : Buf) (k : Nat) (v : Word) (s : State) : (writeBufWord b k v s).success = s.success := by
  unfold writeBufWord; split <;> rfl
@[simp] theorem writeBufWord_delta (b : Buf) (k : Nat) (v : Word) (s : State) : (writeBufWord b k v s).delta = s.delta := by
  unfold writeBufWord; split <;> rfl
@[simp] theorem writeBufWord_rctr (b : Buf) (k : Nat) (v : Word) (s : State) : (writeBufWord b k v s).rctr = s.rctr := by
  unfold writeBufWord; split <;> rfl
@[simp] theorem writeBufWord_rem (b : Buf) (k : Nat) (v : Word) (s : State) : (writeBufWord b k v s).rem = s.rem := by
  unfold writeBufWord; split <;> rfl
@[simp] theorem writeBufWord_doutLen (b : Buf) (k : Nat) (v : Word) (s : State) : (writeBufWord b k v s).doutLen = s.doutLen := by
  unfold writeBufWord; split <;> rfl
@[simp] theorem writeBufWord_inflight (b : Buf) (k : Nat) (v : Word) (s : State) : (writeBufWord b k v s).inflight = s.inflight := by
  unfold writeBufWord; split <;> rfl
@[simp] theorem writeBufWord_cfg (b : Buf) (k : Nat) (v : Word) (s : State) : (writeBufWord b k v s).cfg = s.cfg := by
  unfold writeBufWord; split <;> rfl
@[simp] theorem writeBufWord_delay (b : Buf) (k : Nat) (v : Word) (s : State) : (writeBufWord b k v s).delay = s.delay := by
  unfold writeBufWord; split <;> rfl
@[simp] theorem writeBufWord_delays (b : Buf) (k : Nat) (v : Word) (s : State) : (writeBufWord b k v s).delays = s.delays := by
  unfold writeBufWord; split <;> rfl
@[simp] theorem writeBufWord_draws (b : Buf) (k : Nat) (v : Word) (s : State) : (writeBufWord b k v s).draws = s.draws := by
  unfold writeBufWord; split <;> rfl
@[simp] theorem writeBufWord_host (b : Buf) (k : Nat) (v : Word) (s : State) : (writeBufWord b k v s).host = s.host := by
  unfold writeBufWord; split <;> rfl
@[simp] theorem writeBufWord_observed (b : Buf) (k : Nat) (v : Word) (s : State) : (writeBufWord b k v s).observed = s.observed := by
  unfold writeBufWord; split <;> rfl
@[simp] theorem writeBufWord_returned (b : Buf) (k : Nat) (v : Word) (s : State) : (writeBufWord b k v s).returned = s.returned := by
  unfold writeBufWord; split <;> rfl
@[simp] theorem writeReg_cmd (r : Reg) (v : Word) (s : State) : (writeReg r v s).cmd = s.cmd := by
  cases r <;> rfl
@[simp] theorem writeReg_done (r : Reg) (v : Word) (s : State) : (writeReg r v s).done = s.done := by
  cases r <;> rfl
@[simp] theorem writeReg_err (r : Reg) (v : Word) (s : State) : (writeReg r v s).err = s.err := by
  cases r <;> rfl
@[simp] theorem writeReg_mem (r : Reg) (v : Word) (s : State) : (writeReg r v s).mem = s.mem := by
  cases r <;> rfl
@[simp] theorem writeReg_codeVal (r : Reg) (v : Word) (s : State) : (writeReg r v s).codeVal = s.codeVal := by
  cases r <;> rfl
@[simp] theorem writeReg_codeLen (r : Reg) (v : Word) (s : State) : (writeReg r v s).codeLen = s.codeLen := by
  cases r <;> rfl
@[simp] theorem writeReg_success (r : Reg) (v : Word) (s : State) : (writeReg r v s).success = s.success := by
  cases r <;> rfl
@[simp] theorem writeReg_delta (r : Reg) (v : Word) (s : State) : (writeReg r v s).delta = s.delta := by
  cases r <;> rfl
@[simp] theorem writeReg_rctr (r : Reg) (v : Word) (s : State) : (writeReg r v s).rctr = s.rctr := by
  cases r <;> rfl
@[simp] theorem writeReg_rem (r : Reg) (v : Word) (s : State) : (writeReg r v s).rem = s.rem := by
  cases r <;> rfl
@[simp] theorem writeReg_doutLen (r : Reg) (v : Word) (s : State) : (writeReg r v s).doutLen = s.doutLen := by
  cases r <;> rfl
@[simp] theorem writeReg_inflight (r : Reg) (v : Word) (s : State) : (writeReg r v s).inflight = s.inflight := by
  cases r <;> rfl
@[simp] theorem writeReg_cfg (r : Reg) (v : Word) (s : State) : (writeReg r v s).cfg = s.cfg := by
  cases r <;> rfl
@[simp] theorem writeReg_delay (r : Reg) (v : Word) (s : State) : (writeReg r v s).delay = s.delay := by
  cases r <;> rfl
@[simp] theorem writeReg_delays (r : Reg) (v : Word) (s : State) : (writeReg r v s).delays = s.delays := by
  cases r <;> rfl
@[simp] theorem writeReg_draws (r : Reg) (v : Word) (s : State) : (writeReg r v s).draws = s.draws := by
  cases r <;> rfl
@[simp] theorem writeReg_host (r : Reg) (v : Word) (s : State) : (writeReg r v s).host = s.host := by
  cases r <;> rfl
@[simp] theorem writeReg_observed (r : Reg) (v : Word) (s : State) : (writeReg r v s).observed = s.observed := by
  cases r <;> rfl
@[simp] theorem writeReg_returned (r : Reg) (v : Word) (s : State) : (writeReg r v s).returned = s.returned := by
  cases r <;> rfl

end Sys2Proof.Machine
end

