-- ==== Sys2Proof/Laws/Commands.lean ====
section
/-! SUPPORT. What each shared operation of the commands can do, said once: the checks, the operand reads, the outcome
function of every command, and issue and completion. -/

namespace Sys2Proof.Machine

/-! ### Sequencing -/

theorem bind_eq_ok {α β : Type} {x : Except Stop α} {f : α → Except Stop β} {b : β} :
    (x >>= f) = .ok b ↔ ∃ a, x = .ok a ∧ f a = .ok b := by
  cases x <;> simp [bind, Except.bind]

theorem bind_eq_error {α β : Type} {x : Except Stop α} {f : α → Except Stop β} {e : Stop} :
    (x >>= f) = .error e ↔ x = .error e ∨ ∃ a, x = .ok a ∧ f a = .error e := by
  cases x <;> simp [bind, Except.bind]

/-! ### The checks -/

theorem checkLength_ok {n cap : Nat} {u : Unit} : checkLength n cap = .ok u ↔ n ≤ cap := by
  unfold checkLength raise; split <;> simp <;> omega

theorem checkLength_error {n cap : Nat} {e : Stop} :
    checkLength n cap = .error e ↔ cap < n ∧ e = .err .lengthOutOfRange := by
  unfold checkLength raise; grind

theorem checkSecret_ok {s : State} {u : Unit} : checkSecret s = .ok u ↔ s.secretLen ≠ 0 := by
  unfold checkSecret raise; split <;> simp_all

theorem checkSecret_error {s : State} {e : Stop} :
    checkSecret s = .error e ↔ s.secretLen = 0 ∧ e = .err .invalidSecret := by
  unfold checkSecret raise; grind

theorem checkCounter_ok {c : Int} {u : Unit} : checkCounter c = .ok u ↔ 0 ≤ c := by
  unfold checkCounter raise; split <;> simp <;> omega

theorem checkCounter_error {c : Int} {e : Stop} :
    checkCounter c = .error e ↔ c < 0 ∧ e = .err .invalidCounter := by
  unfold checkCounter raise; grind

theorem checkDigits_ok {d : Nat} {u : Unit} : checkDigits d = .ok u ↔ 6 ≤ d ∧ d ≤ 10 := by
  unfold checkDigits raise; split <;> simp <;> omega

theorem checkDigits_error {d : Nat} {e : Stop} :
    checkDigits d = .error e ↔ (d < 6 ∨ d > 10) ∧ e = .err .invalidDigits := by
  unfold checkDigits raise; grind

theorem checkPeriod_ok {s : State} {u : Unit} : checkPeriod s = .ok u ↔ 0 < periodSeconds s := by
  unfold checkPeriod raise; split <;> simp <;> omega

theorem checkPeriod_error {s : State} {e : Stop} :
    checkPeriod s = .error e ↔ periodSeconds s ≤ 0 ∧ e = .err .invalidPeriod := by
  unfold checkPeriod raise; grind

theorem dispatchAlg_ok {alg : Nat} {a : Alg} : dispatchAlg alg = .ok a ↔ algCode a = alg := by
  unfold dispatchAlg raise
  cases a <;> grind [algCode]

theorem dispatchAlg_error {alg : Nat} {e : Stop} :
    dispatchAlg alg = .error e ↔ 4 ≤ alg ∧ e = .err .unsupportedAlgorithm := by
  unfold dispatchAlg raise
  grind

/-! ### Operand reads -/

theorem readBuf_ok {s : State} {b : Buf} {n : Nat} {bs : Bytes} :
    readBuf s b n = .ok bs ↔ bs.length = n ∧ BufHolds s b bs := by
  unfold readBuf BufHolds
  constructor
  · intro h
    split at h
    · rename_i bs' hb
      cases h
      obtain ⟨h1, h2⟩ := memGetBytes_ok.mp hb
      exact ⟨h1, h1 ▸ h2⟩
    · cases h
  · rintro ⟨rfl, h⟩
    rw [memGetBytes_ok.mpr ⟨rfl, h⟩]

theorem readBuf_error {s : State} {b : Buf} {n : Nat} {e : Stop} :
    readBuf s b n = .error e ↔
      ∃ k, k < n ∧ e = .uninit (bufBase b + k) ∧ memGet s.mem (bufBase b + k) = none ∧
        ∀ j, j < k → memGet s.mem (bufBase b + j) ≠ none := by
  unfold readBuf
  constructor
  · intro h
    split at h
    · cases h
    · rename_i a ha
      cases h
      obtain ⟨k, hk, rfl, h2⟩ := memGetBytes_error.mp ha
      exact ⟨k, hk, rfl, h2⟩
  · rintro ⟨k, hk, rfl, h2⟩
    rw [memGetBytes_error.mpr ⟨k, hk, rfl, h2⟩]

theorem secretOperand_ok {s : State} {bs : Bytes} :
    secretOperand s = .ok bs ↔ s.secretLen.toNat = bs.length ∧ BufHolds s .secret bs := by
  rw [secretOperand, readBuf_ok, eq_comm]

theorem tokenOperand_ok {s : State} {bs : Bytes} :
    tokenOperand s = .ok bs ↔ s.tokenLen.toNat = bs.length ∧ BufHolds s .token bs := by
  rw [tokenOperand, readBuf_ok, eq_comm]

theorem dinOperand_ok {s : State} {bs : Bytes} :
    dinOperand s = .ok bs ↔ s.dinLen.toNat = bs.length ∧ BufHolds s .din bs := by
  rw [dinOperand, readBuf_ok, eq_comm]

theorem liftErr_ok {α : Type} {r : Except ErrKind α} {x : α} : liftErr r = .ok x ↔ r = .ok x := by
  cases r <;> simp [liftErr, raise]

theorem liftErr_error {α : Type} {r : Except ErrKind α} {e : Stop} :
    liftErr r = .error e ↔ ∃ k, r = .error k ∧ e = .err k := by
  cases r <;> simp [liftErr, raise, eq_comm]

/-! ### The outcome function -/

/-- Outcome(c, s, hmac) of a legal command (30_encoding.md R79), as writes or the reason it stops. -/
def commandResult (i : Instr) (s : State) : Except Stop Writes :=
  match i with
  | .b32enc _ _ => b32encResult s
  | .b32dec _ _ => b32decResult s
  | .trunc _ d => truncResult d s
  | .hotpgen a d => hotpgenResult a d s (hmacOf s.cfg)
  | .hotpver a d => hotpverResult a d s (hmacOf s.cfg)
  | .totpgen a d => totpgenResult a d s (hmacOf s.cfg)
  | .totpver a d => totpverResult a d s (hmacOf s.cfg)
  | .tstep _ _ => tstepResult s
  | .trem _ _ => tremResult s

/-- Every meaning is the write of its own word with its outcome. -/
theorem exec_eq (i : Instr) (s : State) : exec i s = issueCommand (encode i) (commandResult i s) s := by
  cases i <;> rfl

theorem b32encResult_ok {s : State} {ws : Writes} :
    b32encResult s = .ok ws ↔
      ∃ inp, s.dinLen.toNat ≤ s.cfg.dinMax ∧ s.dinLen.toNat = inp.length ∧ BufHolds s .din inp ∧
        ws = { dout := some (base32Encode inp) } := by
  simp only [b32encResult, bind_eq_ok, checkLength_ok, dinOperand_ok, pure, Except.pure, Except.ok.injEq, bufCap]
  grind

theorem b32decResult_ok {s : State} {ws : Writes} :
    b32decResult s = .ok ws ↔
      ∃ inp, s.dinLen.toNat ≤ s.cfg.dinMax ∧ s.dinLen.toNat = inp.length ∧ BufHolds s .din inp ∧
        ws = { dout := some (base32Decode inp) } := by
  simp only [b32decResult, bind_eq_ok, checkLength_ok, dinOperand_ok, pure, Except.pure, Except.ok.injEq, bufCap]
  grind

theorem truncResult_ok {d : Nat} {s : State} {ws : Writes} :
    truncResult d s = .ok ws ↔
      ∃ inp v r, s.dinLen.toNat ≤ s.cfg.dinMax ∧ 6 ≤ d ∧ d ≤ 10 ∧ s.dinLen.toNat = inp.length ∧
        BufHolds s .din inp ∧ truncate inp d = .ok (v, r) ∧ ws = { code := some (codeWrite d v r) } := by
  simp only [truncResult, bind_eq_ok, checkLength_ok, checkDigits_ok, dinOperand_ok, liftErr_ok, pure, Except.pure,
    Except.ok.injEq, bufCap, Prod.exists]
  grind

theorem hotpgenResult_ok {alg d : Nat} {s : State} {hmac : Oracle} {ws : Writes} :
    hotpgenResult alg d s hmac = .ok ws ↔
      ∃ sec a v r, s.secretLen.toNat ≤ s.cfg.secretMax ∧ s.secretLen ≠ 0 ∧ 0 ≤ counterOperand s ∧ 6 ≤ d ∧ d ≤ 10 ∧
        s.secretLen.toNat = sec.length ∧ BufHolds s .secret sec ∧ algCode a = alg ∧
        hotpCode hmac a (base32Decode sec) (counterOperand s).toNat d = .ok (v, r) ∧
        ws = { code := some (codeWrite d v r) } := by
  simp only [hotpgenResult, bind_eq_ok, checkLength_ok, checkSecret_ok, checkCounter_ok, checkDigits_ok,
    secretOperand_ok, dispatchAlg_ok, liftErr_ok, pure, Except.pure, Except.ok.injEq, bufCap, Prod.exists]
  grind

theorem hotpverResult_ok {alg d : Nat} {s : State} {hmac : Oracle} {ws : Writes} :
    hotpverResult alg d s hmac = .ok ws ↔
      ∃ sec tok a found, s.secretLen.toNat ≤ s.cfg.secretMax ∧ s.tokenLen.toNat ≤ 16 ∧ s.secretLen ≠ 0 ∧
        0 ≤ counterOperand s ∧ 6 ≤ d ∧ d ≤ 10 ∧ algCode a = alg ∧ s.secretLen.toNat = sec.length ∧
        BufHolds s .secret sec ∧ s.tokenLen.toNat = tok.length ∧ BufHolds s .token tok ∧
        forwardSearch (fun c => hotpCode hmac a (base32Decode sec) c d) tok d (counterOperand s).toNat
          (windowRadius s + 1) 0 = .ok found ∧
        ws = { verify := some (verifyWrite (found.map Int.ofNat)) } := by
  simp only [hotpverResult, bind_eq_ok, checkLength_ok, checkSecret_ok, checkCounter_ok, checkDigits_ok,
    secretOperand_ok, tokenOperand_ok, dispatchAlg_ok, liftErr_ok, pure, Except.pure, Except.ok.injEq, bufCap,
    tokenMax]
  grind

theorem totpgenResult_ok {alg d : Nat} {s : State} {hmac : Oracle} {ws : Writes} :
    totpgenResult alg d s hmac = .ok ws ↔
      ∃ sec a v r, s.secretLen.toNat ≤ s.cfg.secretMax ∧ 0 < periodSeconds s ∧ s.secretLen ≠ 0 ∧
        0 ≤ timeStep (timestampMillis s) (periodSeconds s) ∧ 6 ≤ d ∧ d ≤ 10 ∧
        s.secretLen.toNat = sec.length ∧ BufHolds s .secret sec ∧ algCode a = alg ∧
        hotpCode hmac a (base32Decode sec) (timeStep (timestampMillis s) (periodSeconds s)).toNat d = .ok (v, r) ∧
        ws = { code := some (codeWrite d v r),
               rctr := some (BitVec.ofInt 64 (timeStep (timestampMillis s) (periodSeconds s))) } := by
  simp only [totpgenResult, bind_eq_ok, checkLength_ok, checkPeriod_ok, checkSecret_ok, checkCounter_ok,
    checkDigits_ok, secretOperand_ok, dispatchAlg_ok, liftErr_ok, pure, Except.pure, Except.ok.injEq, bufCap,
    Prod.exists]
  grind

theorem totpverResult_ok {alg d : Nat} {s : State} {hmac : Oracle} {ws : Writes} :
    totpverResult alg d s hmac = .ok ws ↔
      ∃ sec tok a found, s.secretLen.toNat ≤ s.cfg.secretMax ∧ s.tokenLen.toNat ≤ 16 ∧ 0 < periodSeconds s ∧
        s.secretLen ≠ 0 ∧ 6 ≤ d ∧ d ≤ 10 ∧ algCode a = alg ∧ s.secretLen.toNat = sec.length ∧
        BufHolds s .secret sec ∧ s.tokenLen.toNat = tok.length ∧ BufHolds s .token tok ∧
        symmetricSearch (fun c => hotpCode hmac a (base32Decode sec) c d) tok d
          (timeStep (timestampMillis s) (periodSeconds s)) (2 * windowRadius s + 1) (-(windowRadius s : Int)) =
          .ok found ∧
        ws = { verify := some (verifyWrite found),
               rctr := some (BitVec.ofInt 64 (timeStep (timestampMillis s) (periodSeconds s))) } := by
  simp only [totpverResult, bind_eq_ok, checkLength_ok, checkPeriod_ok, checkSecret_ok, checkDigits_ok,
    secretOperand_ok, tokenOperand_ok, dispatchAlg_ok, liftErr_ok, pure, Except.pure, Except.ok.injEq, bufCap,
    tokenMax]
  grind

theorem tstepResult_ok {s : State} {ws : Writes} :
    tstepResult s = .ok ws ↔ 0 < periodSeconds s ∧
      ws = { rctr := some (BitVec.ofInt 64 (timeStep (timestampMillis s) (periodSeconds s))) } := by
  simp only [tstepResult, bind_eq_ok, checkPeriod_ok, pure, Except.pure, Except.ok.injEq]
  grind

theorem tremResult_ok {s : State} {ws : Writes} :
    tremResult s = .ok ws ↔ 0 < periodSeconds s ∧
      ws = { rem := some (BitVec.ofInt 64 (timeRemaining (timestampMillis s) (periodSeconds s))) } := by
  simp only [tremResult, bind_eq_ok, checkPeriod_ok, pure, Except.pure, Except.ok.injEq]
  grind

/-! ### Issue -/

/-- What a command's write can do: dropped while busy; in flight with its outcome; the fault UninitRead. -/
theorem issueCommand_cases (c : Word) (r : Except Stop Writes) (s : State) :
    (s.busy = true ∧ issueCommand c r s = .next (dropWrite s)) ∨
    (s.busy = false ∧ ∃ ws, r = .ok ws ∧ issueCommand c r s = .next (issued c (.ok ws) s)) ∨
    (s.busy = false ∧ ∃ k, r = .error (.err k) ∧ issueCommand c r s = .next (issued c (.error k) s)) ∨
    (s.busy = false ∧ ∃ a, r = .error (.uninit a) ∧ issueCommand c r s = .fault (.uninitRead a)) := by
  unfold issueCommand
  cases s.busy <;> rcases r with (k | a) | ws <;> simp

/-- A command's next state while the block is idle: issued with an outcome that its evaluation gave. -/
theorem exec_next {i : Instr} {s t : State} (hb : s.busy = false) (h : exec i s = .next t) :
    (∃ ws, commandResult i s = .ok ws ∧ t = issued (encode i) (.ok ws) s) ∨
    (∃ k, commandResult i s = .error (.err k) ∧ t = issued (encode i) (.error k) s) := by
  rw [exec_eq] at h
  rcases issueCommand_cases (encode i) (commandResult i s) s with h' | ⟨_, ws, h1, h2⟩ | ⟨_, k, h1, h2⟩ | ⟨_, a, _, h2⟩
  · simp [hb] at h'
  · rw [h2] at h; cases h; exact .inl ⟨ws, h1, rfl⟩
  · rw [h2] at h; cases h; exact .inr ⟨k, h1, rfl⟩
  · rw [h2] at h; cases h

theorem exec_of_ok {i : Instr} {s : State} {ws : Writes} (hb : s.busy = false) (h : commandResult i s = .ok ws) :
    exec i s = .next (issued (encode i) (.ok ws) s) := by
  simp [exec_eq, issueCommand, hb, h]

theorem exec_of_err {i : Instr} {s : State} {k : ErrKind} (hb : s.busy = false)
    (h : commandResult i s = .error (.err k)) : exec i s = .next (issued (encode i) (.error k) s) := by
  simp [exec_eq, issueCommand, hb, h]

theorem exec_of_uninit {i : Instr} {s : State} {a : Nat} (hb : s.busy = false)
    (h : commandResult i s = .error (.uninit a)) : exec i s = .fault (.uninitRead a) := by
  simp [exec_eq, issueCommand, hb, h]

theorem issued_issuedFrom (c : Word) (o : CmdOutcome) (s : State) : IssuedFrom c s (issued c o s) := by
  constructor <;> first | rfl | (constructor <;> rfl)

/-! ### Completion -/

/-- Completion of a command just issued with an error: nothing but the command's life is left of it. -/
theorem complete_issued_error (c : Word) (k : ErrKind) (s : State) :
    complete (issued c (.error k) s) =
      { issued c (.error k) s with err := errCode k, done := true, inflight := none, delay := 0 } := rfl

/-- Completion of a command just issued with writes: they are committed at once. -/
theorem complete_issued_ok (c : Word) (ws : Writes) (s : State) :
    complete (issued c (.ok ws) s) =
      { commit ws { issued c (.ok ws) s with err := 0 } with done := true, inflight := none, delay := 0 } := rfl

theorem complete_issued_completedFrom_error (c : Word) (k : ErrKind) (s : State) :
    CompletedFrom c (errCode k) s (complete (issued c (.error k) s)) := by
  constructor <;> first | rfl | (constructor <;> rfl)

theorem complete_issued_completedFrom_ok (c : Word) (ws : Writes) (s : State) :
    CompletedFrom c 0 s (complete (issued c (.ok ws) s)) := by
  constructor <;> first | rfl | (constructor <;> rfl)

/-- A command whose evaluation raises an error is rejected with its code. -/
theorem rejects_of_err {i : Instr} {s : State} {k : ErrKind} {e : BitVec 4} (hb : s.busy = false)
    (h : commandResult i s = .error (.err k)) (he : errCode k = e) : Rejects i s e := by
  subst he
  exact ⟨_, exec_of_err hb h, issued_issuedFrom _ _ _, complete_issued_completedFrom_error _ _ _,
    by constructor <;> rfl, rfl⟩

end Sys2Proof.Machine
end

