-- ==== Sys2Proof/Laws/PerInstr.lean ====
section
/-! SUPPORT. One statement made of every command as syntax, per constructor: its row of the opcode map
(30_encoding.md R73). -/

namespace Sys2Proof.Laws.OpcodeRow

open Sys2Proof

/-- The command's OP value fits the OP field, is not the never-assigned 0x00, and selects the command back with its
own operands. -/
def Statement (i : Instr) : Prop :=
  opOf i < 256 ∧ opOf i ≠ 0 ∧ instrOfOp (opOf i) i.alg i.digits = some i

theorem b32enc (alg digits : Nat) : Statement (.b32enc alg digits) := ⟨by simp [opOf], by simp [opOf], rfl⟩

theorem b32dec (alg digits : Nat) : Statement (.b32dec alg digits) := ⟨by simp [opOf], by simp [opOf], rfl⟩

theorem trunc (alg digits : Nat) : Statement (.trunc alg digits) := ⟨by simp [opOf], by simp [opOf], rfl⟩

theorem hotpgen (alg digits : Nat) : Statement (.hotpgen alg digits) := ⟨by simp [opOf], by simp [opOf], rfl⟩

theorem hotpver (alg digits : Nat) : Statement (.hotpver alg digits) := ⟨by simp [opOf], by simp [opOf], rfl⟩

theorem totpgen (alg digits : Nat) : Statement (.totpgen alg digits) := ⟨by simp [opOf], by simp [opOf], rfl⟩

theorem totpver (alg digits : Nat) : Statement (.totpver alg digits) := ⟨by simp [opOf], by simp [opOf], rfl⟩

theorem tstep (alg digits : Nat) : Statement (.tstep alg digits) := ⟨by simp [opOf], by simp [opOf], rfl⟩

theorem trem (alg digits : Nat) : Statement (.trem alg digits) := ⟨by simp [opOf], by simp [opOf], rfl⟩

end Sys2Proof.Laws.OpcodeRow
end

