-- ==== Sys2Proof/Laws/Search.lean ====
section
/-! SUPPORT. What truncation, token comparison and the two window searches can answer, said once. -/

namespace Sys2Proof.Machine

/-! ### Truncation -/

/-- A truncation that succeeds: the digest reaches the four bytes at the offset, and this is the code. -/
theorem truncate_ok {dig : Bytes} {d v : Nat} {r : Bytes} :
    truncate dig d = .ok (v, r) ↔
      ∃ last, dig.getLast? = some last ∧ truncOffset last + 4 ≤ dig.length ∧
        v = truncBinary dig (truncOffset last) % 10 ^ d ∧ r = renderDigits v d := by
  unfold truncate
  cases dig.getLast? with
  | none => simp
  | some last =>
    by_cases h : truncOffset last + 4 > dig.length
    · simp only [h, if_true, Option.some.injEq]
      constructor
      · intro h'; cases h'
      · rintro ⟨_, rfl, h', _⟩
        omega
    · simp only [h, if_false, Except.ok.injEq, Prod.mk.injEq, Option.some.injEq]
      constructor
      · rintro ⟨rfl, rfl⟩
        exact ⟨last, rfl, by omega, rfl, rfl⟩
      · rintro ⟨_, rfl, _, rfl, rfl⟩
        exact ⟨rfl, rfl⟩

/-- Truncation raises one error only. -/
theorem truncate_error {dig : Bytes} {d : Nat} {k : ErrKind} (h : truncate dig d = .error k) :
    k = .truncationOutOfRange := by
  unfold truncate at h
  split at h
  · cases h; rfl
  · split at h <;> cases h; rfl

theorem renderDigits_length (v d : Nat) : (renderDigits v d).length = d := by simp [renderDigits]

theorem truncate_text_length {dig : Bytes} {d v : Nat} {r : Bytes} (h : truncate dig d = .ok (v, r)) :
    r.length = d := by
  obtain ⟨_, _, _, _, rfl⟩ := truncate_ok.mp h
  exact renderDigits_length v d

/-! ### Token comparison -/

theorem tokenMatches_iff {tok r : Bytes} {d : Nat} : tokenMatches tok r d = true ↔ tok.length = d ∧ tok = r := by
  simp [tokenMatches]

theorem tokenMatches_self {tok : Bytes} {d : Nat} (h : tok.length = d) : tokenMatches tok tok d = true :=
  tokenMatches_iff.mpr ⟨h, rfl⟩

theorem tokenMatches_of_ne {tok r : Bytes} {d : Nat} (h : r ≠ tok) : tokenMatches tok r d = false := by
  cases hm : tokenMatches tok r d
  · rfl
  · exact absurd (tokenMatches_iff.mp hm).2.symm h

/-! ### The forward search -/

variable {code : Nat → Except ErrKind (Nat × Bytes)} {tok : Bytes} {d : Nat}

/-- A match the forward search reports is a candidate in range whose code is the token. -/
theorem forwardSearch_some {base n i j : Nat} (h : forwardSearch code tok d base n i = .ok (some j)) :
    i ≤ j ∧ j < i + n ∧ base + j ≤ counterMax ∧ ∃ v, code (base + j) = .ok (v, tok) ∧ tok.length = d := by
  induction n generalizing i with
  | zero => cases h
  | succ n ih =>
    rw [forwardSearch] at h
    split at h
    · cases h
    · split at h
      · cases h
      · rename_i v r hc
        split at h
        · rename_i hm
          cases h
          obtain ⟨h1, rfl⟩ := tokenMatches_iff.mp hm
          exact ⟨Nat.le_refl _, by omega, by omega, v, hc, h1⟩
        · obtain ⟨h1, h2, h3⟩ := ih h
          exact ⟨by omega, by omega, h3⟩

/-- Past candidates that miss, the forward search goes on at the next one. -/
theorem forwardSearch_skip {base n i : Nat} (m : Nat) (hm : m ≤ n) (hb : base + i + m ≤ counterMax + 1)
    (h : ∀ j, i ≤ j → j < i + m → Misses code tok (base + j)) :
    forwardSearch code tok d base n i = forwardSearch code tok d base (n - m) (i + m) := by
  induction m generalizing n i with
  | zero => rfl
  | succ m ih =>
    obtain ⟨n, rfl⟩ : ∃ n', n = n' + 1 := ⟨n - 1, by omega⟩
    obtain ⟨v, r, hc, hne⟩ := h i (Nat.le_refl _) (by omega)
    rw [forwardSearch, if_neg (by omega), hc]
    simp only [tokenMatches_of_ne hne, Bool.false_eq_true, if_false]
    rw [ih (by omega) (by omega) (fun j h1 h2 => h j (by omega) (by omega)), show i + 1 + m = i + (m + 1) by omega,
      show n + 1 - (m + 1) = n - m by omega]

/-- The first candidate that matches ends the forward search. -/
theorem forwardSearch_hit {base n i v : Nat} (hb : base + i ≤ counterMax) (hc : code (base + i) = .ok (v, tok))
    (hl : tok.length = d) : forwardSearch code tok d base (n + 1) i = .ok (some i) := by
  rw [forwardSearch, if_neg (by omega), hc]
  simp only [tokenMatches_self hl, if_true]

/-- A candidate with a short digest ends the forward search with its error. -/
theorem forwardSearch_err {base n i : Nat} {k : ErrKind} (hb : base + i ≤ counterMax)
    (hc : code (base + i) = .error k) : forwardSearch code tok d base (n + 1) i = .error k := by
  rw [forwardSearch, if_neg (by omega), hc]

/-- Past the last counter the forward search ends without a match. -/
theorem forwardSearch_end {base n i : Nat} (hb : base + i > counterMax) :
    forwardSearch code tok d base n i = .ok none := by
  cases n with
  | zero => rfl
  | succ n => rw [forwardSearch, if_pos hb]

/-- Where every counter has a code, the forward search ends without an error. -/
theorem forwardSearch_total (hc : ∀ c, ∃ v r, code c = .ok (v, r)) (base n i : Nat) :
    ∃ found, forwardSearch code tok d base n i = .ok found := by
  induction n generalizing i with
  | zero => exact ⟨none, rfl⟩
  | succ n ih =>
    obtain ⟨v, r, h⟩ := hc (base + i)
    rw [forwardSearch, h]
    split
    · exact ⟨none, rfl⟩
    · simp only []
      split
      · exact ⟨some i, rfl⟩
      · exact ih (i + 1)

/-! ### The symmetric search -/

/-- A match the symmetric search reports is a non-negative candidate of the window whose code is the token. -/
theorem symmetricSearch_some {current δ ε : Int} {n : Nat}
    (h : symmetricSearch code tok d current n δ = .ok (some ε)) :
    δ ≤ ε ∧ ε < δ + n ∧ 0 ≤ current + ε ∧ ∃ v, code (current + ε).toNat = .ok (v, tok) ∧ tok.length = d := by
  induction n generalizing δ with
  | zero => cases h
  | succ n ih =>
    rw [symmetricSearch] at h
    split at h
    · obtain ⟨h1, h2, h3⟩ := ih h
      exact ⟨by omega, by omega, h3⟩
    · split at h
      · cases h
      · rename_i v r hc
        split at h
        · rename_i hm
          cases h
          obtain ⟨h1, rfl⟩ := tokenMatches_iff.mp hm
          exact ⟨Int.le_refl _, by omega, by omega, v, hc, h1⟩
        · obtain ⟨h1, h2, h3⟩ := ih h
          exact ⟨by omega, by omega, h3⟩

/-- Past candidates that are negative or miss, the symmetric search goes on at the next one. -/
theorem symmetricSearch_skip {current δ : Int} {n : Nat} (m : Nat) (hm : m ≤ n)
    (h : ∀ ε : Int, δ ≤ ε → ε < δ + m → 0 ≤ current + ε → Misses code tok (current + ε).toNat) :
    symmetricSearch code tok d current n δ = symmetricSearch code tok d current (n - m) (δ + m) := by
  induction m generalizing n δ with
  | zero => simp
  | succ m ih =>
    obtain ⟨n, rfl⟩ : ∃ n', n = n' + 1 := ⟨n - 1, by omega⟩
    have hrec := ih (n := n) (δ := δ + 1) (by omega) (fun ε h1 h2 h3 => h ε (by omega) (by omega) h3)
    rw [show δ + ((m + 1 : Nat) : Int) = δ + 1 + (m : Int) by omega, show n + 1 - (m + 1) = n - m by omega, ← hrec,
      symmetricSearch]
    split
    · rfl
    · obtain ⟨v, r, hc, hne⟩ := h δ (Int.le_refl _) (by omega) (by omega)
      rw [hc]
      simp only [tokenMatches_of_ne hne, Bool.false_eq_true, if_false]

/-- The first candidate that matches ends the symmetric search. -/
theorem symmetricSearch_hit {current δ : Int} {n v : Nat} (hb : 0 ≤ current + δ)
    (hc : code (current + δ).toNat = .ok (v, tok)) (hl : tok.length = d) :
    symmetricSearch code tok d current (n + 1) δ = .ok (some δ) := by
  rw [symmetricSearch, if_neg (by omega), hc]
  simp only [tokenMatches_self hl, if_true]

/-- A candidate with a short digest ends the symmetric search with its error. -/
theorem symmetricSearch_err {current δ : Int} {n : Nat} {k : ErrKind} (hb : 0 ≤ current + δ)
    (hc : code (current + δ).toNat = .error k) : symmetricSearch code tok d current (n + 1) δ = .error k := by
  rw [symmetricSearch, if_neg (by omega), hc]

/-- Where every counter has a code, the symmetric search ends without an error. -/
theorem symmetricSearch_total (hc : ∀ c, ∃ v r, code c = .ok (v, r)) (current : Int) (n : Nat) (δ : Int) :
    ∃ found, symmetricSearch code tok d current n δ = .ok found := by
  induction n generalizing δ with
  | zero => exact ⟨none, rfl⟩
  | succ n ih =>
    obtain ⟨v, r, h⟩ := hc (current + δ).toNat
    rw [symmetricSearch, h]
    split
    · exact ih (δ + 1)
    · simp only []
      split
      · exact ⟨some δ, rfl⟩
      · exact ih (δ + 1)

end Sys2Proof.Machine
end

