-- ==== Sys2Proof/Laws/Step.lean ====
section
/-! SUPPORT. What each bus and host operation, and a step, can do, said once: later proofs cite these instead of
unfolding the operations. -/

namespace Sys2Proof.Machine

/-- Everything of the block itself is as it was; only the host's side, the free-value counter and the delay may
differ. -/
structure BlockKept (s t : State) : Prop where
  cmd : t.cmd = s.cmd
  done : t.done = s.done
  err : t.err = s.err
  dropped : t.dropped = s.dropped
  mem : t.mem = s.mem
  inflight : t.inflight = s.inflight
  cfg : t.cfg = s.cfg
  operands : OperandsKept s t
  results : ResultsKept s t

theorem BlockKept.rfl' (s : State) : BlockKept s s := by
  constructor <;> first | rfl | (constructor <;> rfl)

theorem OperandsKept.trans {s t u : State} (h : OperandsKept s t) (h' : OperandsKept t u) : OperandsKept s u :=
  ⟨h'.1.trans h.1, h'.2.trans h.2, h'.3.trans h.3, h'.4.trans h.4, h'.5.trans h.5, h'.6.trans h.6, h'.7.trans h.7,
    h'.8.trans h.8, h'.9.trans h.9, h'.10.trans h.10⟩

theorem ResultsKept.trans {s t u : State} (h : ResultsKept s t) (h' : ResultsKept t u) : ResultsKept s u :=
  ⟨h'.1.trans h.1, h'.2.trans h.2, h'.3.trans h.3, h'.4.trans h.4, h'.5.trans h.5, h'.6.trans h.6, h'.7.trans h.7⟩

theorem BlockKept.trans {s t u : State} (h : BlockKept s t) (h' : BlockKept t u) : BlockKept s u :=
  ⟨h'.1.trans h.1, h'.2.trans h.2, h'.3.trans h.3, h'.4.trans h.4, h'.5.trans h.5, h'.6.trans h.6, h'.7.trans h.7,
    h.8.trans h'.8, h.9.trans h'.9⟩

theorem blockKept_tick (s : State) : BlockKept s (tick s) := by
  unfold tick
  split
  · constructor <;> first | rfl | (constructor <;> rfl)
  · exact .rfl' s

/-! ### The address map -/

/-- Every register is at its offset, whatever the configuration. -/
theorem busTarget_reg (p : Params) (r : Reg) :
    busTarget p (BitVec.ofNat 16 (regOffset r)) .word = some (.reg r) := by cases r <;> rfl

/-- The mapped addresses: the registers' offsets and the buffers' ranges. -/
theorem mappedTarget_isSome (p : Params) (a : Nat) :
    (mappedTarget p a).isSome ↔ (∃ r, regOffset r = a) ∨ ∃ b, inBuf p b a = true := by
  unfold mappedTarget
  split
  · rename_i r hr
    exact ⟨fun _ => .inl ⟨r, by simpa using List.find?_some hr⟩, fun _ => rfl⟩
  · rename_i hn
    rw [List.find?_eq_none] at hn
    have hn' : ¬ ∃ r, regOffset r = a := fun ⟨r, hr⟩ => hn r (by cases r <;> decide) (by simp [hr])
    split
    · rename_i b hb
      exact ⟨fun _ => .inr ⟨b, by simpa using List.find?_some hb⟩, fun _ => rfl⟩
    · rename_i hb
      rw [List.find?_eq_none] at hb
      exact ⟨fun h => by simp at h, fun h => h.elim (fun h => absurd h hn')
        (fun ⟨b, h⟩ => absurd h (hb b (by cases b <;> decide)))⟩

theorem inBuf_false {p : Params} {b : Buf} {a : Nat} :
    inBuf p b a = false ↔ a < bufBase b ∨ bufBase b + bufCap p b ≤ a := by
  simp only [inBuf, Bool.and_eq_false_iff, decide_eq_false_iff_not]
  omega

/-! ### Bus reads -/

/-- Reading one byte draws at most one free value. -/
theorem readByte_state (a : Nat) (s : State) : ∃ n, (readByte a s).2 = { s with draws := n } := by
  unfold readByte
  split
  · exact ⟨s.draws, rfl⟩
  · exact ⟨s.draws + 1, rfl⟩

/-- A buffer word whose four bytes have been written reads as them, and nothing is drawn. -/
theorem readBufWord_written {a : Nat} {s : State} {b0 b1 b2 b3 : Byte} (h0 : memGet s.mem a = some b0)
    (h1 : memGet s.mem (a + 1) = some b1) (h2 : memGet s.mem (a + 2) = some b2)
    (h3 : memGet s.mem (a + 3) = some b3) : readBufWord a s = (b3 ++ b2 ++ b1 ++ b0, s) := by
  simp only [readBufWord, readByte, h0, h1, h2, h3]

theorem readTarget_state (x : Target) (s : State) : ∃ n, (readTarget x s).2 = { s with draws := n } := by
  cases x with
  | reg r => exact ⟨s.draws, rfl⟩
  | buf b k =>
    obtain ⟨n0, h0⟩ := readByte_state (bufBase b + k) s
    obtain ⟨n1, h1⟩ := readByte_state (bufBase b + k + 1) { s with draws := n0 }
    obtain ⟨n2, h2⟩ := readByte_state (bufBase b + k + 2) { s with draws := n1 }
    obtain ⟨n3, h3⟩ := readByte_state (bufBase b + k + 3) { s with draws := n2 }
    refine ⟨n3, ?_⟩
    simp only [readTarget, readBufWord, h0, h1, h2, h3]

/-- A host read that succeeds reaches a target and changes the observation and the free-value counter only. -/
theorem hostRead_ok {a : BitVec 16} {w : AccessWidth} {s t : State} {v : Word} (h : hostRead a w s = .ok (v, t)) :
    ∃ x n, busTarget s.cfg a w = some x ∧ v = (readTarget x s).1 ∧
      t = { s with draws := n, observed := s.observed ++ [v] } := by
  unfold hostRead at h
  split at h
  · cases h
  · rename_i x hx
    obtain ⟨n, hn⟩ := readTarget_state x s
    simp only [Except.ok.injEq, Prod.mk.injEq] at h
    obtain ⟨h1, h2⟩ := h
    refine ⟨x, n, hx, h1.symm, ?_⟩
    rw [← h2, hn, h1]

theorem hostRead_kept {a : BitVec 16} {w : AccessWidth} {s t : State} {v : Word} (h : hostRead a w s = .ok (v, t)) :
    BlockKept s t ∧ t.host = s.host ∧ t.delay = s.delay := by
  obtain ⟨x, n, _, _, rfl⟩ := hostRead_ok h
  exact ⟨by constructor <;> first | rfl | (constructor <;> rfl), rfl, rfl⟩

theorem hostRead_error {a : BitVec 16} {w : AccessWidth} {s : State} {f : Fault} (h : hostRead a w s = .error f) :
    busTarget s.cfg a w = none ∧ f = .busError false a w := by
  unfold hostRead at h
  split at h
  · cases h; exact ⟨by assumption, rfl⟩
  · cases h

theorem hostReads_kept {as : List (BitVec 16)} {s t : State} {vs : List Word} (h : hostReads as s = .ok (vs, t)) :
    BlockKept s t ∧ t.host = s.host ∧ t.delay = s.delay := by
  induction as generalizing s vs with
  | nil => cases h; exact ⟨.rfl' _, rfl, rfl⟩
  | cons a as ih =>
    rw [hostReads] at h
    split at h
    · cases h
    · rename_i v s₁ h₁
      split at h
      · cases h
      · rename_i vs' s₂ h₂
        cases h
        have k1 := hostRead_kept h₁
        have k2 := ih h₂
        exact ⟨k1.1.trans k2.1, k2.2.1.trans k1.2.1, k2.2.2.trans k1.2.2⟩

theorem hostReads_error {as : List (BitVec 16)} {s : State} {f : Fault} (h : hostReads as s = .error f) :
    ∃ a, f = .busError false a .word := by
  induction as generalizing s with
  | nil => cases h
  | cons a as ih =>
    rw [hostReads] at h
    split at h
    · rename_i f' h₁
      cases h
      exact ⟨a, (hostRead_error h₁).2⟩
    · split at h
      · rename_i h₂
        cases h
        exact ih h₂
      · cases h

theorem rdBuf_kept {b : Buf} {n : Nat} {s t : State} {bs : Bytes} (h : rdBuf b n s = .ok (bs, t)) :
    BlockKept s t ∧ t.host = s.host ∧ t.delay = s.delay := by
  unfold rdBuf at h
  split at h
  · cases h
  · rename_i h'
    cases h
    exact hostReads_kept h'

theorem rdCounted_kept {len : Reg} {b : Buf} {s t : State} {bs : Bytes} (h : rdCounted len b s = .ok (bs, t)) :
    BlockKept s t ∧ t.host = s.host ∧ t.delay = s.delay := by
  unfold rdCounted rdRegs at h
  split at h
  · cases h
  · rename_i h'
    have k1 := hostReads_kept h'
    have k2 := rdBuf_kept h
    exact ⟨k1.1.trans k2.1, k2.2.1.trans k1.2.1, k2.2.2.trans k1.2.2⟩

theorem rdCounted_error {len : Reg} {b : Buf} {s : State} {f : Fault} (h : rdCounted len b s = .error f) :
    ∃ a, f = .busError false a .word := by
  unfold rdCounted rdRegs at h
  split at h
  · rename_i h'
    cases h
    exact hostReads_error h'
  · unfold rdBuf at h
    split at h
    · rename_i h'
      cases h
      exact hostReads_error h'
    · cases h

theorem exceptMap_ok {α β : Type} {x : Except Fault α} {f : α → β} {y : β} (h : x.map f = .ok y) :
    ∃ a, x = .ok a ∧ f a = y := by
  cases x <;> simp_all [Except.map]

theorem exceptMap_error {α β : Type} {x : Except Fault α} {f : α → β} {e : Fault} (h : x.map f = .error e) :
    x = .error e := by
  cases x <;> simp_all [Except.map]

/-- RD of one register. -/
theorem rdRegs_one (s : State) (r : Reg) :
    rdRegs [r] s = .ok ([readReg r s], { s with observed := s.observed ++ [readReg r s] }) := by
  simp only [rdRegs, List.map, hostReads, hostRead, busTarget_reg, readTarget]

/-- RD of two registers, neither of which a read changes. -/
theorem rdRegs_two (s : State) (r r' : Reg) :
    rdRegs [r, r'] s =
      .ok ([readReg r s, readReg r' s], { s with observed := s.observed ++ [readReg r s, readReg r' s] }) := by
  have h : readReg r' { s with observed := s.observed ++ [readReg r s] } = readReg r' s := by cases r' <;> rfl
  simp only [rdRegs, List.map, hostReads, hostRead, busTarget_reg, readTarget, h, List.append_assoc, List.cons_append,
    List.nil_append]

/-- RES_FLAGS bit 0 as the host reads it. -/
theorem resFlags_bit (s : State) : (readReg .resFlags s).getLsbD 0 = s.success := by
  show (resFlagsWord s).getLsbD 0 = s.success
  cases h : s.success <;> simp only [resFlagsWord, flagBit, h] <;> rfl

/-- A failed verification reads RES_FLAGS and nothing more (30_encoding.md R84). -/
theorem collectVerified_failed {s : State} (h : s.success = false) :
    collectVerified s = .ok (.verified false none, { s with observed := s.observed ++ [readReg .resFlags s] }) := by
  simp only [collectVerified, rdRegs_one, List.headD_cons, resFlags_bit, h, Bool.false_eq_true, if_false]

/-- A successful verification reads RES_FLAGS and the two halves of DELTA. -/
theorem collectVerified_succeeded {s : State} (h : s.success = true) :
    collectVerified s =
      .ok (.verified true (some (wideOf [readReg .deltaLo s, readReg .deltaHi s]).toInt),
        { s with observed := s.observed ++ [readReg .resFlags s, readReg .deltaLo s, readReg .deltaHi s] }) := by
  simp only [collectVerified, rdRegs_one, List.headD_cons, resFlags_bit, h, if_true, rdRegs_two, Except.map,
    List.append_assoc, List.cons_append, List.nil_append]
  rfl

/-- A verification call's reads always succeed and change the observation only. -/
theorem collectVerified_ok (s : State) :
    ∃ r vs, collectVerified s = .ok (r, { s with observed := s.observed ++ vs }) := by
  rcases Bool.eq_false_or_eq_true s.success with h | h
  · exact ⟨_, _, collectVerified_succeeded h⟩
  · exact ⟨_, _, collectVerified_failed h⟩

theorem collectVerified_kept {s t : State} {r : CallResult} (h : collectVerified s = .ok (r, t)) :
    BlockKept s t ∧ t.host = s.host ∧ t.delay = s.delay := by
  obtain ⟨r', vs, h'⟩ := collectVerified_ok s
  rw [h'] at h
  cases h
  exact ⟨by constructor <;> first | rfl | (constructor <;> rfl), rfl, rfl⟩

/-- A driver call's reads change nothing of the block. -/
theorem collect_kept {c : Call} {s t : State} {r : CallResult} (h : collect c s = .ok (r, t)) :
    BlockKept s t ∧ t.host = s.host ∧ t.delay = s.delay := by
  unfold collect rdRegs at h
  split at h
  · cases h
  · rename_i vs s' h'
    have k1 := hostReads_kept h'
    simp only [] at h
    split at h
    · cases h
      exact k1
    · have k2 : BlockKept s' t ∧ t.host = s'.host ∧ t.delay = s'.delay := by
        cases c <;> simp only [collectOk, rdRegs] at h <;>
          first
          | exact collectVerified_kept h
          | (obtain ⟨⟨x, u⟩, hx, hy⟩ := exceptMap_ok h
             cases hy
             first | exact rdCounted_kept hx | exact hostReads_kept hx)
      exact ⟨k1.1.trans k2.1, k2.2.1.trans k1.2.1, k2.2.2.trans k1.2.2⟩

theorem collect_error {c : Call} {s : State} {f : Fault} (h : collect c s = .error f) :
    ∃ a, f = .busError false a .word := by
  unfold collect rdRegs at h
  split at h
  · rename_i h'
    cases h
    exact hostReads_error h'
  · simp only [] at h
    split at h
    · cases h
    · cases c <;> simp only [collectOk, rdRegs] at h <;>
        first
        | (obtain ⟨_, _, h'⟩ := collectVerified_ok _
           rw [h'] at h
           cases h)
        | exact rdCounted_error (exceptMap_error h)
        | exact hostReads_error (exceptMap_error h)

/-! ### Bus writes -/

/-- A byte read after a word was written to a buffer. -/
theorem memGet_writeWord (m : Memory) (a x : Nat) (v : Word) :
    memGet (memSetBytes m a (wordBytes v)) x =
      if a ≤ x ∧ x < a + 4 then some ((wordBytes v).getD (x - a) 0) else memGet m x :=
  memGet_memSetBytes m a x (wordBytes v)

/-- What a buffer target's address is. -/
theorem busTarget_buf {p : Params} {a : BitVec 16} {w : AccessWidth} {b : Buf} {k : Nat}
    (h : busTarget p a w = some (.buf b k)) :
    w = .word ∧ a.toNat % 4 = 0 ∧ a.toNat = bufBase b + k ∧ k < bufCap p b := by
  unfold busTarget at h
  split at h
  · rename_i hw
    unfold mappedTarget at h
    split at h
    · cases h
    · split at h
      · rename_i hb
        cases h
        have := List.find?_some hb
        simp only [inBuf, Bool.and_eq_true, decide_eq_true_eq] at this
        exact ⟨hw.1, hw.2, by omega, by omega⟩
      · cases h
  · cases h

/-- What a write to CMD can do while the block is idle. -/
theorem writeCmd_next {c : Word} {s t : State} (hb : s.busy = false) (h : writeCmd c s = .next t) :
    (∃ i ws, decode c = .ok i ∧ commandResult i s = .ok ws ∧ t = issued (encode i) (.ok ws) s) ∨
    (∃ i k, decode c = .ok i ∧ commandResult i s = .error (.err k) ∧ t = issued (encode i) (.error k) s) ∨
    (∃ e, decode c = .error e ∧ t = issued c (.error .illegalCommand) s) := by
  unfold writeCmd at h
  split at h
  · rename_i i hi
    rcases exec_next hb h with ⟨ws, h1, h2⟩ | ⟨k, h1, h2⟩
    · exact .inl ⟨i, ws, hi, h1, h2⟩
    · exact .inr (.inl ⟨i, k, hi, h1, h2⟩)
  · rename_i e he
    simp only [issueCommand, hb, raise, Bool.false_eq_true, if_false, Host.Outcome.next.injEq] at h
    exact .inr (.inr ⟨e, he, h.symm⟩)

/-- What a host write that goes on can do: dropped while busy; a command issued; a register or a buffer word
written. -/
theorem hostWrite_next {a : BitVec 16} {w : AccessWidth} {v : Word} {s t : State} (h : hostWrite a w v s = .next t) :
    (s.busy = true ∧ t = dropWrite s) ∨
    (s.busy = false ∧
      ((∃ c ws i, commandResult i s = .ok ws ∧ t = issued c (.ok ws) s) ∨
       (∃ c k, t = issued c (.error k) s) ∨
       (∃ r, t = writeReg r v s) ∨
       (∃ b k, bufWritable b = true ∧ k < bufCap s.cfg b ∧ (bufBase b + k) % 4 = 0 ∧
          t = { s with mem := memSetBytes s.mem (bufBase b + k) (wordBytes v) }) ∨
       t = s)) := by
  unfold hostWrite at h
  split at h
  · cases h
  · rename_i x hx
    split at h
    · rename_i hb
      cases h
      exact .inl ⟨hb, rfl⟩
    · rename_i hb
      have hb' : s.busy = false := by simpa using hb
      refine .inr ⟨hb', ?_⟩
      split at h
      · rcases writeCmd_next hb' h with ⟨i, ws, _, h1, h2⟩ | ⟨i, k, _, _, h2⟩ | ⟨e, _, h2⟩
        · exact .inl ⟨_, ws, i, h1, h2⟩
        · exact .inr (.inl ⟨_, k, h2⟩)
        · exact .inr (.inl ⟨_, _, h2⟩)
      · cases h
        exact .inr (.inr (.inl ⟨_, rfl⟩))
      · rename_i b k
        cases h
        obtain ⟨_, h4, h5, h6⟩ := busTarget_buf hx
        unfold writeBufWord
        split
        · rename_i hw
          exact .inr (.inr (.inr (.inl ⟨b, k, hw, h6, by omega, rfl⟩)))
        · exact .inr (.inr (.inr (.inr rfl)))

/-! ### The step -/

/-- What a step that goes on can do: the completion, a change of the host's side only, a reset of the block, or
a host write. -/
theorem step_next {s t : State} (h : step s = .next t) :
    (sequencerTurn s = true ∧ t = complete s) ∨
    (sequencerTurn s = false ∧
      (BlockKept s t ∨
       (∃ rest, s.host = .reset :: rest ∧ t = resetBlock { tick s with host := rest }) ∨
       (∃ a w v rest, s.host = .write a w v :: rest ∧ hostWrite a w v { tick s with host := rest } = .next t))) := by
  unfold step agentStep at h
  split at h
  · rename_i hs
    cases h
    exact .inl ⟨hs, rfl⟩
  · rename_i hs
    refine .inr ⟨by simpa using hs, ?_⟩
    have hh : (tick s).host = s.host := by unfold tick; split <;> rfl
    have kt := blockKept_tick s
    have kh (rest : List HostOp) : BlockKept s { tick s with host := rest } :=
      kt.trans (by constructor <;> first | rfl | (constructor <;> rfl))
    unfold hostStep at h
    rw [hh] at h
    split at h
    · cases h
      exact .inl kt
    · rename_i op rest hop
      unfold runHostOp at h
      split at h
      · split at h
        · rename_i h1
          cases h
          exact .inl ((kh rest).trans (hostRead_kept h1).1)
        · cases h
      · exact .inr (.inr ⟨_, _, _, _, hop, h⟩)
      · split at h
        · rename_i h1
          have k1 := (kh rest).trans (hostReads_kept h1).1
          split at h
          · cases h
            exact .inl (k1.trans (by constructor <;> first | rfl | (constructor <;> rfl)))
          · cases h
            exact .inl k1
        · cases h
      · cases h
        exact .inr (.inl ⟨rest, hop, rfl⟩)
      · split at h
        · cases h
          exact .inl (kt.trans (by constructor <;> first | rfl | (constructor <;> rfl)))
        · cases h
      · split at h
        · rename_i h1
          cases h
          exact .inl (((kh rest).trans (collect_kept h1).1).trans
            (by constructor <;> first | rfl | (constructor <;> rfl)))
        · cases h

end Sys2Proof.Machine
end

