-- ==== Sys2Proof/Tests/Slice0.lean ====
section
/-! SUPPORT. The model's own tests: well-formedness, decoding of words written out from 30_encoding.md R71 and R73,
vectors of 95_test_vectors.md, and a witness for the hypotheses of every statement that has some. -/

namespace Sys2Proof.Tests

open Sys2Proof Sys2Proof.Machine

/-! ### Well-formedness -/

/-- ALG has 4 bits (R71): 16 is refused, 15 is not. -/
theorem test_wf_alg : ¬ (Instr.hotpgen 16 6).WellFormed ∧ (Instr.hotpgen 15 6).WellFormed := by decide

/-- DIGITS has 8 bits (R71): 256 is refused, 255 is not. -/
theorem test_wf_digits : ¬ (Instr.b32enc 0 256).WellFormed ∧ (Instr.b32enc 0 255).WellFormed := by decide

/-! ### Decoding: words written bit by bit, RSV1 DIGITS RSV0 ALG OP (R71), OP from R73 -/

theorem test_decode_b32enc : (decode 0b00000000000000000000000000000001).toOption = some (.b32enc 0 0) := by decide
theorem test_decode_b32dec : (decode 0b00000000000000000000000000000010).toOption = some (.b32dec 0 0) := by decide
theorem test_decode_trunc : (decode 0b00000000000001110000000100000011).toOption = some (.trunc 1 7) := by decide
theorem test_decode_hotpgen : (decode 0b00000000000010100000001100010000).toOption = some (.hotpgen 3 10) := by decide
theorem test_decode_hotpver : (decode 0b00000000000001100000000100010001).toOption = some (.hotpver 1 6) := by decide
theorem test_decode_totpgen : (decode 0b00000000000010000000001000100000).toOption = some (.totpgen 2 8) := by decide
theorem test_decode_totpver : (decode 0b00000000100000000000100000100001).toOption = some (.totpver 8 128) := by decide
theorem test_decode_tstep : (decode 0b00000000000000000000000000100010).toOption = some (.tstep 0 0) := by decide
theorem test_decode_trem : (decode 0b00000000111111110000111100100011).toOption = some (.trem 15 255) := by decide

/-- V-ERR-6: the illegal words. -/
theorem test_decode_illegal :
    [(0x00000000 : Word), 0x00000004, 0x00000012, 0x00000024, 0x000000FF, 0x01000010, 0x00061010].all
      (fun c => (decode c).toOption.isNone) = true := by decide

/-- The reserved fields are named first (R75). -/
theorem test_decode_reserved : decode 0x01000010 = .error .reservedBits ∧ decode 0x00000012 = .error .unassignedOp :=
  ⟨rfl, rfl⟩

/-- Each constructor's encoding is the assembled word of R80. -/
theorem test_encode : encode (.hotpgen 3 10) = 0x000A0310 ∧ encode (.totpver 0 6) = 0x00060021 ∧
    encode (.tstep 0 0) = 0x00000022 := by decide

/-! ### States and digests of 95_test_vectors.md -/

/-- ASCII bytes of a text. -/
def ascii (t : List Char) : Bytes := t.map (fun c => BitVec.ofNat 8 c.toNat)

/-- Secret R: "GEZDGNBVGY3TQOJQGEZDGNBVGY3TQOJQ" (section 4). -/
def secretR : Bytes :=
  ascii ['G', 'E', 'Z', 'D', 'G', 'N', 'B', 'V', 'G', 'Y', '3', 'T', 'Q', 'O', 'J', 'Q',
         'G', 'E', 'Z', 'D', 'G', 'N', 'B', 'V', 'G', 'Y', '3', 'T', 'Q', 'O', 'J', 'Q']

/-- Its key: "12345678901234567890". -/
def keyR : Bytes :=
  [0x31, 0x32, 0x33, 0x34, 0x35, 0x36, 0x37, 0x38, 0x39, 0x30, 0x31, 0x32, 0x33, 0x34, 0x35, 0x36, 0x37, 0x38, 0x39, 0x30]

/-- The counter message of a one-byte counter. -/
def msg (n : Byte) : Bytes := [0, 0, 0, 0, 0, 0, 0, n]

/-- V-HG-1: the digest of counter 0. -/
def digest0 : Bytes :=
  [0xcc, 0x93, 0xcf, 0x18, 0x50, 0x8d, 0x94, 0x93, 0x4c, 0x64, 0xb6, 0x5d, 0x8b, 0xa7, 0x66, 0x7f, 0xb7, 0xcd, 0xe4, 0xb0]

/-- V-HG-1: the digest of counter 1. -/
def digest1 : Bytes :=
  [0x75, 0xa4, 0x8a, 0x19, 0xd4, 0xcb, 0xe1, 0x00, 0x64, 0x4e, 0x8a, 0xc1, 0x39, 0x7e, 0xea, 0x74, 0x7a, 0x2d, 0x33, 0xab]

/-- V-HG-6: the digest of counter 2^64 - 1. -/
def digestMaxCounter : Bytes :=
  [0xf6, 0x16, 0xfd, 0x66, 0xb7, 0xf0, 0x62, 0x90, 0x68, 0x6b, 0x63, 0x20, 0xce, 0xb3, 0x4d, 0x65, 0xb1, 0xfe, 0x93, 0xea]

/-- A configuration that knows those answers, and that counter 3 gets a one-byte digest, which is too short. -/
def cfgR : Params :=
  { secretMax := 256, dinMax := 256, digestMax := 64,
    hmacAnswers :=
      [{ alg := .sha1, key := keyR, msg := msg 0, digest := digest0 },
       { alg := .sha1, key := keyR, msg := msg 1, digest := digest1 },
       { alg := .sha1, key := keyR, msg := List.replicate 8 0xFF, digest := digestMaxCounter },
       { alg := .sha1, key := keyR, msg := msg 3, digest := [0x0F] }] }

/-- "755224", the code of counter 0. -/
def code0 : Bytes := ascii ['7', '5', '5', '2', '2', '4']

/-- "287082", the code of counter 1. -/
def code1 : Bytes := ascii ['2', '8', '7', '0', '8', '2']

/-- "094451", the code of counter 2^64 - 1. -/
def codeMaxCounter : Bytes := ascii ['0', '9', '4', '4', '5', '1']

/-- An idle block with secret R, a token and an input in place, and the delay of the next command fixed. -/
def ready (tok inp : Bytes) : State :=
  { State.reset with
    cfg := cfgR
    secretLen := 32
    tokenLen := BitVec.ofNat 16 tok.length
    dinLen := BitVec.ofNat 16 inp.length
    period := 30
    mem := memSetBytes (memSetBytes (memSetBytes [] 0x1000 secretR) 0x2000 tok) 0x3000 inp
    delays := [0] }

/-- The state a command leaves: issued, then completed. -/
def after (i : Instr) (s : State) : Option State :=
  match exec i s with
  | .next t => some (complete t)
  | _ => none

/-- Bytes 0 .. n-1 of a buffer. -/
def bufOf (b : Buf) (n : Nat) (t : State) : List (Option Byte) := (List.range n).map (fun k => memGet t.mem (bufBase b + k))

/-- Whether a step goes on. -/
def goesOn (o : Host.Outcome State Fault Refusal) : Bool :=
  match o with
  | .next _ => true
  | _ => false

/-- Whether a step stops with UninitRead of an address. -/
def stopsAt (o : Host.Outcome State Fault Refusal) (a : Nat) : Bool :=
  match o with
  | .fault (.uninitRead x) => x == a
  | _ => false

/-! ### Vectors -/

/-- V-B32E-1: "foob" encodes to "MZXW6YQ=", and the rest of DOUT_MEM is 0x00. -/
theorem test_b32enc : (after (.b32enc 0 0) (ready [] [0x66, 0x6f, 0x6f, 0x62])).map
    (fun t => (t.err, t.doutLen, bufOf .dout 9 t)) =
    some (0, 8, (ascii ['M', 'Z', 'X', 'W', '6', 'Y', 'Q', '='] ++ [0]).map some) := by decide

/-- V-B32D-1: 'M' 0x80 'Z' 0xFF 'X' 'W' '6' 'Y' 'Q' '=' decodes to "foob". -/
theorem test_b32dec : (after (.b32dec 0 0)
    (ready [] [0x4D, 0x80, 0x5A, 0xFF, 0x58, 0x57, 0x36, 0x59, 0x51, 0x3D])).map
    (fun t => (t.err, t.doutLen, bufOf .dout 5 t)) = some (0, 4, [some 0x66, some 0x6f, some 0x6f, some 0x62, some 0]) := by
  decide

/-- V-TR-3: 0102030400 at width 10 gives "0016909060". -/
theorem test_trunc : (after (.trunc 0 10) (ready [] [1, 2, 3, 4, 0])).map
    (fun t => (t.err, t.codeVal, t.codeLen, bufOf .code 12 t)) =
    some (0, 16909060, 10, (ascii ['0', '0', '1', '6', '9', '0', '9', '0', '6', '0'] ++ [0, 0]).map some) := by decide

/-- V-TR-4: with an empty digest and width 12 the width is reported. -/
theorem test_trunc_order : (after (.trunc 0 12) (ready [] [])).map (·.err) = some 3 := by decide

/-- V-HG-1: counter 1 gives 287082. -/
theorem test_hotpgen : (after (.hotpgen 0 6) { ready [] [] with ctrLo := 1 }).map
    (fun t => (t.err, t.codeVal, bufOf .code 6 t, t.ctrLo)) = some (0, 287082, code1.map some, 1) := by decide

/-- V-ERR-5: a negative counter counts before the width and the algorithm. -/
theorem test_hotpgen_order : (after (.hotpgen 15 12) { ready [] [] with ctrExt := 1 }).map (·.err) = some 2 := by decide

/-- V-HV-2: token 287082 from counter 0 with a window of 5 matches at 1. -/
theorem test_hotpver : (after (.hotpver 0 6) { ready code1 [] with window := 5 }).map
    (fun t => (t.err, t.success, t.delta)) = some (0, true, 1) := by decide

/-- V-HV-13: at counter 2^64 - 1 only that counter is tried. -/
theorem test_hotpver_last : (after (.hotpver 0 6)
    { ready codeMaxCounter [] with
      ctrLo := 0xFFFFFFFF
      ctrHi := 0xFFFFFFFF
      window := 3 }).map (fun t => (t.err, t.success, t.delta)) = some (0, true, 0) := by decide

/-- TOTPGEN at 30000 ms with a period of 30 s is HOTP at step 1 (V-TS-5, V-HG-1). -/
theorem test_totpgen : (after (.totpgen 0 6) { ready [] [] with tsLo := 30000 }).map
    (fun t => (t.err, t.codeVal, t.rctr, bufOf .code 6 t)) = some (0, 287082, 1, code1.map some) := by decide

/-- V-TG-3: TS = -1 is InvalidCounter, and RCTR is not written. -/
theorem test_totpgen_epoch : (after (.totpgen 0 6)
    { ready [] [] with
      tsLo := 0xFFFFFFFF
      tsHi := 0xFFFFFFFF
      rctr := 7 }).map (fun t => (t.err, t.rctr)) = some (2, 7) := by decide

/-- V-TV-5: TS = -1 and a window of 1: the token of step 0 matches at +1, and RCTR is -1. -/
theorem test_totpver : (after (.totpver 0 6)
    { ready code0 [] with
      tsLo := 0xFFFFFFFF
      tsHi := 0xFFFFFFFF
      window := 1 }).map (fun t => (t.err, t.success, t.delta, t.rctr)) = some (0, true, 1, -1) := by decide

/-- V-TV-1 in small: the token of the step before is accepted, and DELTA reads all ones. -/
theorem test_totpver_back : (after (.totpver 0 6)
    { ready code0 [] with
      tsLo := 30000
      window := 1 }).map (fun t => (t.success, t.delta, t.rctr)) = some (true, 0xFFFFFFFFFFFFFFFF, 1) := by decide

/-- V-TS-8: TS = -30001 is in step -2. -/
theorem test_tstep : (after (.tstep 0 0)
    { ready [] [] with
      tsLo := 0xFFFF8ACF
      tsHi := 0xFFFFFFFF }).map (fun t => (t.err, t.rctr)) = some (0, -2) := by decide

/-- V-TS-12: the last timestamp at the largest period leaves 1507533520193 ms. -/
theorem test_trem : (after (.trem 0 0)
    { ready [] [] with
      tsLo := 0xFFFFFFFF
      tsHi := 0x7FFFFFFF
      period := 0x7FFFFFFF }).map (fun t => (t.err, t.rem)) = some (0, 1507533520193) := by decide

/-- V-TS-14: PERIOD = -30 is InvalidPeriod. -/
theorem test_trem_period : (after (.trem 0 0) { ready [] [] with period := 0xFFFFFFE2 }).map (·.err) = some 4 := by decide

/-- R74, R82: the tags in any ASCII case, and 15 for another. -/
theorem test_tags : tagToAlg (ascii ['s', 'h', 'a', '2', '5', '6']) = 1 ∧ tagToAlg (ascii ['S', 'm', '3']) = 3 ∧
    tagToAlg (ascii ['m', 'd', '5']) = 15 := by decide

/-- P1: "GEZDGNBV" is written as 0x445A4547 at 0x3000 and 0x56424E47 at 0x3004. -/
theorem test_pack : opWrBuf .din (ascii ['G', 'E', 'Z', 'D', 'G', 'N', 'B', 'V']) =
    [.write 0x3000 .word 0x445A4547, .write 0x3004 .word 0x56424E47] := by decide

/-- What a verification call's readback returns and reads, RES_FLAGS and DELTA apart from STATUS. -/
def verifyReadback (s : State) : Option (CallResult × List Word) :=
  match collect (.hotpVerify [] [] 0 6 [] 0) s with
  | .ok (r, t) => some (r, t.observed)
  | .error _ => none

/-- R84: DELTA is read only on success. -/
theorem test_verify_failed : verifyReadback { ready [] [] with done := true } = some (.verified false none, [2, 0]) := by
  decide

/-- R84: on success the low and the high word of DELTA are read; all ones is -1. -/
theorem test_verify_succeeded : verifyReadback
    { ready [] [] with
      done := true
      success := true
      delta := -1 } = some (.verified true (some (-1)), [2, 1, 0xFFFFFFFF, 0xFFFFFFFF]) := by decide

/-- V-LOCK-1: a write to CTR_LO while BUSY = 1 is dropped. -/
theorem test_lock : (match hostWrite 0x0008 .word 7 { ready [] [] with inflight := some (0x22, .ok { }) } with
    | .next t => some (t.ctrLo, t.dropped)
    | _ => none) = some (0, true) := by decide

/-! ### Witnesses: encoding and the step -/

theorem witness_EncodedCommandDecodesBack : (Instr.hotpgen 15 255).WellFormed ∧ decode 0x00FF0F10 = .ok (.hotpgen 15 255) :=
  ⟨by decide, rfl⟩

/-- An idle block whose host next writes a word to CMD. -/
def writing (c : Word) : State := { ready [] [] with host := [.write 0 .word c] }

theorem witness_IllegalWordsCompleteWithIllegalCommand_reserved : (0x01000010 : Word).extractLsb' 24 8 ≠ 0 ∧ (writing 0x01000010).busy = false ∧
    (writing 0x01000010).host = .write 0 .word 0x01000010 :: [] := by decide

theorem witness_IllegalWordsCompleteWithIllegalCommand_unassigned : (0x00000024 : Word).toNat % 256 ∉
    [0x01, 0x02, 0x03, 0x10, 0x11, 0x20, 0x21, 0x22, 0x23] ∧ (writing 0x24).busy = false := by decide

theorem witness_IllegalWordsCompleteWithIllegalCommand_legal : ¬ ((0x00FF0F23 : Word).extractLsb' 24 8 ≠ 0 ∨ (0x00FF0F23 : Word).extractLsb' 12 4 ≠ 0 ∨
    (0x00FF0F23 : Word).toNat % 256 ∉ [0x01, 0x02, 0x03, 0x10, 0x11, 0x20, 0x21, 0x22, 0x23]) := by decide

theorem witness_StepRunsTheWrittenCommand : (writing 0x00060010).busy = false ∧
    (writing 0x00060010).host = .write 0 .word 0x00060010 :: [] ∧ decode 0x00060010 = .ok (.hotpgen 0 6) :=
  ⟨rfl, rfl, rfl⟩

theorem witness_PlacedCommandRunsNext : decodeTableWord 32 0x00060010 = some (.hotpgen 0 6) := by decide

/-- A block with a command in flight whose turn it is not yet. -/
def busyState : State :=
  { ready [] [] with
    cmd := 0x22
    inflight := some (0x22, .ok { rctr := some 5 })
    delay := 2 }

theorem witness_IssueFrame_busy : busyState.busy = true ∧ goesOn (exec (.tstep 0 0) busyState) = true := by decide

theorem witness_IssueFrame_idle : (ready [] []).busy = false ∧ goesOn (exec (.tstep 0 0) (ready [] [])) = true := by decide

/-- Each of the nine commands is accepted in the idle state `ready`. -/
theorem witness_CompletionFrame : (ready code0 [1, 2, 3, 4, 0]).busy = false ∧
    [Instr.b32enc 0 0, .b32dec 0 0, .trunc 0 6, .hotpgen 0 6, .hotpver 0 6, .totpgen 0 6, .totpver 0 6, .tstep 0 0,
      .trem 0 0].all (fun i => goesOn (exec i (ready code0 [1, 2, 3, 4, 0]))) = true := by decide

/-- A block about to complete with an error. -/
def failing : State := { ready [] [] with inflight := some (0x22, .error .invalidPeriod) }

theorem witness_StepRunsTheWrittenCommand_completion : failing.inflight = some (0x22, .error .invalidPeriod) ∧ failing.delay = 0 := by decide

theorem witness_ErrorHasNoOtherEffect : failing.inflight = some (0x22, .error .invalidPeriod) ∧ failing.delay = 0 := by decide

/-! ### Witnesses: unwritten bytes -/

/-- Nothing written, every length register 1. -/
def unwritten : State :=
  { State.reset with
    secretLen := 1
    tokenLen := 1
    dinLen := 1
    period := 30 }

theorem witness_UnwrittenInputStopsTheCommand_din : unwritten.busy = false ∧ 0 < unwritten.dinLen.toNat ∧
    unwritten.dinLen.toNat ≤ unwritten.cfg.dinMax ∧ memGet unwritten.mem (0x3000 + 0) = none ∧
    stopsAt (exec (.b32enc 0 0) unwritten) 0x3000 = true := by decide

theorem witness_UnwrittenInputStopsTheCommand_secret : 0 < unwritten.secretLen.toNat ∧ unwritten.secretLen.toNat ≤ unwritten.cfg.secretMax ∧
    memGet unwritten.mem (0x1000 + 0) = none ∧ unwritten.ctrExt = 0 ∧ unwritten.tokenLen.toNat ≤ 16 ∧
    0 < periodSeconds unwritten ∧ 0 ≤ timestampMillis unwritten ∧
    stopsAt (exec (.hotpgen 0 6) unwritten) 0x1000 = true := by decide

/-- Secret R in place, a token length of 16, the largest, and an unwritten token. -/
def noToken : State := { ready [] [] with tokenLen := 16 }

theorem holds_secret : BufHolds (ready [] []) .secret secretR := by unfold BufHolds; decide

theorem witness_UnwrittenInputStopsTheCommand_token : SecretReady noToken secretR ∧ 15 < noToken.tokenLen.toNat ∧
    noToken.tokenLen.toNat ≤ 16 ∧ memGet noToken.mem (0x2000 + 15) = none ∧ noToken.ctrExt = 0 ∧
    0 < periodSeconds noToken ∧ stopsAt (exec (.hotpver 0 6) noToken) 0x2000 = true :=
  ⟨⟨rfl, by decide, by decide, holds_secret⟩, by decide⟩

/-! ### Witnesses: Base32 and truncation -/

theorem ready_din (tok inp : Bytes) (h1 : inp.length ≤ 256) (h2 : BufHolds (ready tok inp) .din inp) :
    DinReady (ready tok inp) inp :=
  ⟨by show (BitVec.ofNat 16 inp.length).toNat = _; rw [BitVec.toNat_ofNat]; omega, h1, h2⟩

theorem witness_B32encEncodesDin : (ready [] [0x66]).busy = false ∧ (ready [] [0x66]).cfg.legal ∧
    DinReady (ready [] [0x66]) [0x66] ∧ DinReady (ready [] []) [] :=
  ⟨rfl, by decide, ready_din _ _ (by decide) (by unfold BufHolds; decide), ready_din _ _ (by decide) (by unfold BufHolds; decide)⟩

/-- One more than DIN_MAX. -/
def longInput : State := { ready [] [] with dinLen := 257 }

theorem witness_B32encEncodesDin_length : longInput.busy = false ∧ longInput.cfg.legal ∧ longInput.dinLen.toNat > longInput.cfg.dinMax := by
  decide

theorem witness_B32decDecodesDin_length : longInput.busy = false ∧ longInput.cfg.legal ∧
    longInput.dinLen.toNat > longInput.cfg.dinMax := by decide

theorem witness_B32decDecodesDin : (ready [] [0x4D, 0x45]).busy = false ∧ (ready [] [0x4D, 0x45]).cfg.legal ∧
    DinReady (ready [] [0x4D, 0x45]) [0x4D, 0x45] :=
  ⟨rfl, by decide, ready_din _ _ (by decide) (by unfold BufHolds; decide)⟩

theorem witness_TruncWritesTheCode_digits : (ready [] []).dinLen.toNat ≤ (ready [] []).cfg.dinMax ∧ (5 < 6 ∨ 5 > 10) ∧ (11 < 6 ∨ 11 > 10) := by
  decide

/-- A digest one byte too short at offset 15, and the shortest that reaches (V-TR-3). -/
theorem witness_TruncWritesTheCode_errors : DinReady (ready [] (List.replicate 17 0 ++ [0x0F])) (List.replicate 17 0 ++ [0x0F]) ∧
    truncate (List.replicate 17 0 ++ [0x0F]) 6 = .error .truncationOutOfRange :=
  ⟨ready_din _ _ (by decide) (by unfold BufHolds; decide), by rfl⟩

theorem witness_TruncWritesTheCode_ok : DinReady (ready [] (List.replicate 18 0 ++ [0x0F])) (List.replicate 18 0 ++ [0x0F]) ∧
    truncate (List.replicate 18 0 ++ [0x0F]) 10 = .ok (15, ascii ['0', '0', '0', '0', '0', '0', '0', '0', '1', '5']) :=
  ⟨ready_din _ _ (by decide) (by unfold BufHolds; decide), by rfl⟩

theorem witness_TruncationRangeCheck : (0x0F &&& 0x0F : Byte).toNat + 4 > (List.replicate 17 (0 : Byte) ++ [0x0F]).length ∧
    ¬ ((0x0F &&& 0x0F : Byte).toNat + 4 > (List.replicate 18 (0 : Byte) ++ [0x0F]).length) := by decide

/-- R148: low nibble 0 and 1 of a 4-byte digest; 20 bytes; two digests that differ before the offset only. -/
theorem witness_TruncWritesTheCode_cases : (0xF0 : Byte).toNat % 16 = 0 ∧ (0xF1 : Byte).toNat % 16 = 1 ∧
    19 < (List.replicate 20 (0 : Byte)).length ∧ [(1 : Byte), 2, 3, 4, 5].length = [(9 : Byte), 2, 3, 4, 5].length ∧
    (∀ j, j < 4 → ([(1 : Byte), 2, 3, 4, 5] ++ [2]).getD ((2 : Byte).toNat % 16 + j) 0 =
      ([(9 : Byte), 2, 3, 4, 5] ++ [2]).getD ((2 : Byte).toNat % 16 + j) 0) := by decide

/-- V-TR-3, the largest code. -/
theorem witness_TruncationSlicesAndReduces : truncate (List.replicate 19 0xFF ++ [0xFF]) 10 =
    .ok (2147483647, ascii ['2', '1', '4', '7', '4', '8', '3', '6', '4', '7']) := by rfl

theorem witness_CodesStayInRange : truncate (List.replicate 20 0xFF) 10 =
    .ok (2147483647, ascii ['2', '1', '4', '7', '4', '8', '3', '6', '4', '7']) := by rfl

theorem witness_NarrowerCodesAreSuffixes : 6 ≤ 10 ∧
    truncate (List.replicate 20 0xFF) 6 = .ok (483647, ascii ['4', '8', '3', '6', '4', '7']) ∧
    truncate (List.replicate 20 0xFF) 10 = .ok (2147483647, ascii ['2', '1', '4', '7', '4', '8', '3', '6', '4', '7']) :=
  ⟨by decide, by rfl, by rfl⟩

theorem witness_RenderingIsZeroPaddedDecimal : 0 < 10 ^ 0 ∧ 9999999999 < 10 ^ 10 := by decide

theorem witness_ConformantDigestsTruncate : digest0.length = Alg.sha1.digestLength ∧
    HmacLengthConformant (fun a _ _ => List.replicate a.digestLength 0) :=
  ⟨by decide, fun _ _ _ => List.length_replicate⟩

theorem witness_CounterMessageIsBigEndian : 2 ^ 64 - 1 < 2 ^ 64 := by decide

/-! ### Witnesses: HOTP -/

theorem secret_any (s : State) (h1 : s.secretLen = 32) (h2 : 32 ≤ s.cfg.secretMax) (h3 : BufHolds s .secret secretR) :
    SecretReady s secretR := ⟨by rw [h1]; rfl, by decide, h2, h3⟩

theorem witness_HotpgenWritesTheCode : (ready [] []).busy = false ∧ SecretReady (ready [] []) secretR ∧ (ready [] []).ctrExt = 0 ∧
    truncate (hmacOf (ready [] []).cfg .sha1 (base32Decode secretR)
      (counterBytes ((ready [] []).ctrHi ++ (ready [] []).ctrLo).toNat)) 6 = .ok (755224, code0) :=
  ⟨rfl, secret_any _ rfl (by decide) holds_secret, rfl, by rfl⟩

theorem witness_HotpgenErrorsInOrder_length : ({ ready [] [] with secretLen := 257 } : State).secretLen.toNat >
    ({ ready [] [] with secretLen := 257 } : State).cfg.secretMax := by decide

/-- Widths 5 and 11, just outside, with every earlier check passed; algorithm 4, the first unsupported. -/
theorem witness_HotpgenErrorsInOrder_digits : (ready [] []).busy = false ∧
    (ready [] []).secretLen.toNat ≤ (ready [] []).cfg.secretMax ∧ (ready [] []).secretLen ≠ 0 ∧ (ready [] []).ctrExt = 0 ∧
    (5 < 6 ∨ 5 > 10) ∧ (11 < 6 ∨ 11 > 10) := by decide

theorem witness_HotpgenErrorsInOrder_algorithm : SecretReady (ready [] []) secretR ∧ (ready [] []).ctrExt = 0 ∧ 6 ≤ 10 ∧ 4 ≤ 4 :=
  ⟨secret_any _ rfl (by decide) holds_secret, by decide⟩

theorem witness_HotpgenErrorsInOrder_checks : (State.reset).secretLen.toNat ≤ State.reset.cfg.secretMax ∧ State.reset.secretLen = 0 ∧
    (ready [] []).secretLen.toNat ≤ (ready [] []).cfg.secretMax ∧ (ready [] []).secretLen ≠ 0 ∧
    ({ ready [] [] with ctrExt := 1 } : State).ctrExt = 1 := by decide

/-- Counter 3 gets a digest that is too short. -/
def atThree : State := { ready code1 [] with ctrLo := 3 }

theorem holds_secret_three : BufHolds atThree .secret secretR := by unfold BufHolds; decide

theorem holds_token_three : BufHolds atThree .token code1 := by unfold BufHolds; decide

theorem witness_HotpgenErrorsInOrder_short : SecretReady atThree secretR ∧ atThree.ctrExt = 0 ∧ algCode .sha1 = 0 ∧
    truncate (hmacOf atThree.cfg .sha1 (base32Decode secretR) (counterBytes (atThree.ctrHi ++ atThree.ctrLo).toNat)) 6 =
      .error .truncationOutOfRange :=
  ⟨secret_any _ rfl (by decide) holds_secret_three, rfl, rfl, by rfl⟩

/-- Token 287082 and a window of 1 from counter 0. -/
def forward : State := { ready code1 [] with window := 1 }

theorem holds_forward : BufHolds forward .secret secretR ∧ BufHolds forward .token code1 := by unfold BufHolds; decide

theorem miss_zero : Misses (fun c => hotpCode (hmacOf cfgR) .sha1 (base32Decode secretR) c 6) code1 0 :=
  ⟨755224, code0, by rfl, by decide⟩

theorem witness_HotpverReportsTheFirstMatch : forward.busy = false ∧ SecretReady forward secretR ∧ TokenReady forward code1 ∧
    forward.ctrExt = 0 ∧ 1 ≤ forward.window.toNat ∧ (forward.ctrHi ++ forward.ctrLo).toNat + 1 ≤ 2 ^ 64 - 1 ∧
    (∀ j, j < 1 → Misses (fun c => hotpCode (hmacOf forward.cfg) .sha1 (base32Decode secretR) c 6) code1
      ((forward.ctrHi ++ forward.ctrLo).toNat + j)) ∧
    hotpCode (hmacOf forward.cfg) .sha1 (base32Decode secretR) ((forward.ctrHi ++ forward.ctrLo).toNat + 1) 6 =
      .ok (287082, code1) :=
  ⟨rfl, secret_any _ rfl (by decide) holds_forward.1, ⟨rfl, by decide, holds_forward.2⟩, rfl, by decide, by decide,
    fun j hj => by obtain rfl : j = 0 := by omega
                   exact miss_zero, by rfl⟩

/-- Token 287082 at counter 2^64 - 1 with the largest window: one candidate, and it misses. -/
def lastCounter : State :=
  { ready code1 [] with
    ctrLo := 0xFFFFFFFF
    ctrHi := 0xFFFFFFFF
    window := 0xFFFFFFFF }

theorem holds_last : BufHolds lastCounter .secret secretR ∧ BufHolds lastCounter .token code1 := by unfold BufHolds; decide

theorem witness_HotpverReportsNoMatch : SecretReady lastCounter secretR ∧ TokenReady lastCounter code1 ∧ lastCounter.ctrExt = 0 ∧
    (∀ j, j ≤ lastCounter.window.toNat → (lastCounter.ctrHi ++ lastCounter.ctrLo).toNat + j ≤ 2 ^ 64 - 1 →
      Misses (fun c => hotpCode (hmacOf lastCounter.cfg) .sha1 (base32Decode secretR) c 6) code1
        ((lastCounter.ctrHi ++ lastCounter.ctrLo).toNat + j)) :=
  ⟨secret_any _ rfl (by decide) holds_last.1, ⟨rfl, by decide, holds_last.2⟩, rfl, fun j _ hj => by
    have hc : (lastCounter.ctrHi ++ lastCounter.ctrLo).toNat = 2 ^ 64 - 1 := by decide
    rw [hc] at hj ⊢
    obtain rfl : j = 0 := by omega
    exact ⟨94451, codeMaxCounter, by rfl, by decide⟩⟩

theorem witness_HotpverErrorsInOrder_length : ({ ready [] [] with tokenLen := 17 } : State).tokenLen.toNat > 16 ∧
    (ready code0 []).secretLen.toNat ≤ (ready code0 []).cfg.secretMax ∧ (ready code0 []).tokenLen.toNat ≤ 16 ∧
    (ready code0 []).secretLen ≠ 0 ∧ (ready code0 []).ctrExt = 0 ∧ 4 ≤ 15 := by decide

theorem witness_HotpverErrorsInOrder_short : SecretReady atThree secretR ∧ TokenReady atThree code1 ∧ atThree.ctrExt = 0 ∧
    0 ≤ atThree.window.toNat ∧ (atThree.ctrHi ++ atThree.ctrLo).toNat + 0 ≤ 2 ^ 64 - 1 ∧
    hotpCode (hmacOf atThree.cfg) .sha1 (base32Decode secretR) ((atThree.ctrHi ++ atThree.ctrLo).toNat + 0) 6 =
      .error .truncationOutOfRange :=
  ⟨secret_any _ rfl (by decide) holds_secret_three, ⟨rfl, by decide, holds_token_three⟩, rfl, by decide, by decide, by rfl⟩

theorem witness_HotpverNeverLooksBack : forward.busy = false ∧
    (after (.hotpver 0 6) forward).map (fun t => (t.err, t.success)) = some (0, true) := by decide

theorem holds_zero : BufHolds (ready code0 []) .secret secretR ∧ BufHolds (ready code0 []) .token code0 := by
  unfold BufHolds; decide

theorem witness_WindowZeroAgreesWithGeneration : TokenReady (ready code0 []) code0 ∧ (ready code0 []).window = 0 ∧
    goesOn (exec (.hotpgen 0 6) (ready code0 [])) = true ∧
    (after (.hotpver 0 6) (ready code0 [])).map (fun t => (t.err, t.success)) = some (0, true) :=
  ⟨⟨rfl, by decide, holds_zero.2⟩, by decide⟩

/-! ### Witnesses: TOTP -/

theorem witness_TstepWritesTheFloor : (ready [] []).busy = false ∧ 0 < (ready [] []).period.toInt ∧
    State.reset.period.toInt ≤ 0 ∧ ({ ready [] [] with period := 0xFFFFFFE2 } : State).period.toInt ≤ 0 := by decide

theorem witness_TremWritesTheRemainder : 0 < ({ ready [] [] with period := 1 } : State).period.toInt ∧
    0 < ({ ready [] [] with period := 0x7FFFFFFF } : State).period.toInt := by decide

theorem witness_TotpgenWritesCodeAndStep : SecretReady (ready [] []) secretR ∧ 0 < (ready [] []).period.toInt ∧
    0 ≤ ((ready [] []).tsHi ++ (ready [] []).tsLo).toInt ∧
    truncate (hmacOf (ready [] []).cfg .sha1 (base32Decode secretR) (counterBytes
      (((ready [] []).tsHi ++ (ready [] []).tsLo).toInt / (1000 * (ready [] []).period.toInt)).toNat)) 6 =
        .ok (755224, code0) :=
  ⟨secret_any _ rfl (by decide) holds_secret, by decide, by decide, by rfl⟩

/-- Before the epoch. -/
def beforeEpoch : State :=
  { ready code1 [] with
    tsLo := 0xFFFFFFFF
    tsHi := 0xFFFFFFFF }

theorem witness_TotpgenErrorsInOrder_checks : State.reset.secretLen.toNat ≤ State.reset.cfg.secretMax ∧ State.reset.period.toInt ≤ 0 ∧
    0 < ({ State.reset with period := 30 } : State).period.toInt ∧ ({ State.reset with period := 30 } : State).secretLen = 0 ∧
    beforeEpoch.secretLen.toNat ≤ beforeEpoch.cfg.secretMax ∧ 0 < beforeEpoch.period.toInt ∧ beforeEpoch.secretLen ≠ 0 ∧
    (beforeEpoch.tsHi ++ beforeEpoch.tsLo).toInt < 0 := by decide

/-- Step 3, whose digest is too short. -/
def stepThree : State := { ready code1 [] with tsLo := 90000 }

theorem holds_step_three : BufHolds stepThree .secret secretR ∧ BufHolds stepThree .token code1 := by unfold BufHolds; decide

theorem witness_TotpgenErrorsInOrder_short : SecretReady stepThree secretR ∧ 0 < stepThree.period.toInt ∧
    0 ≤ (stepThree.tsHi ++ stepThree.tsLo).toInt ∧
    truncate (hmacOf stepThree.cfg .sha1 (base32Decode secretR) (counterBytes
      ((stepThree.tsHi ++ stepThree.tsLo).toInt / (1000 * stepThree.period.toInt)).toNat)) 6 =
        .error .truncationOutOfRange :=
  ⟨secret_any _ rfl (by decide) holds_step_three.1, by decide, by decide, by rfl⟩

/-- Token 287082 at step -1 with a window of 2: steps -3 to 1, of which only 0 and 1 are tried. -/
def acrossEpoch : State := { beforeEpoch with window := 2 }

theorem holds_across : BufHolds acrossEpoch .secret secretR ∧ BufHolds acrossEpoch .token code1 := by unfold BufHolds; decide

theorem current_across : (acrossEpoch.tsHi ++ acrossEpoch.tsLo).toInt / (1000 * acrossEpoch.period.toInt) = -1 := by decide

theorem witness_TotpverReportsTheLeastDelta : acrossEpoch.busy = false ∧ SecretReady acrossEpoch secretR ∧
    TokenReady acrossEpoch code1 ∧ 0 < acrossEpoch.period.toInt ∧ -(acrossEpoch.window.toNat : Int) ≤ 2 ∧
    (2 : Int) ≤ acrossEpoch.window.toNat ∧
    0 ≤ (acrossEpoch.tsHi ++ acrossEpoch.tsLo).toInt / (1000 * acrossEpoch.period.toInt) + 2 ∧
    (∀ ε : Int, -(acrossEpoch.window.toNat : Int) ≤ ε → ε < 2 →
      0 ≤ (acrossEpoch.tsHi ++ acrossEpoch.tsLo).toInt / (1000 * acrossEpoch.period.toInt) + ε →
      Misses (fun c => hotpCode (hmacOf acrossEpoch.cfg) .sha1 (base32Decode secretR) c 6) code1
        ((acrossEpoch.tsHi ++ acrossEpoch.tsLo).toInt / (1000 * acrossEpoch.period.toInt) + ε).toNat) ∧
    hotpCode (hmacOf acrossEpoch.cfg) .sha1 (base32Decode secretR)
      ((acrossEpoch.tsHi ++ acrossEpoch.tsLo).toInt / (1000 * acrossEpoch.period.toInt) + 2).toNat 6 = .ok (287082, code1) :=
  ⟨rfl, secret_any _ rfl (by decide) holds_across.1, ⟨rfl, by decide, holds_across.2⟩, by decide, by decide, by decide,
    by decide, fun ε _ h2 h3 => by
      rw [current_across] at h3 ⊢
      obtain rfl : ε = 1 := by omega
      exact miss_zero, by rfl⟩

/-- Every candidate of the window is before the epoch (V-TV-6). -/
def allNegative : State :=
  { ready code0 [] with
    tsLo := 0xFFFEA06F
    tsHi := 0xFFFFFFFF
    window := 2 }

theorem holds_negative : BufHolds allNegative .secret secretR ∧ BufHolds allNegative .token code0 := by unfold BufHolds; decide

theorem current_negative : (allNegative.tsHi ++ allNegative.tsLo).toInt / (1000 * allNegative.period.toInt) = -4 := by decide

theorem witness_TotpverReportsNoMatch : SecretReady allNegative secretR ∧ TokenReady allNegative code0 ∧
    0 < allNegative.period.toInt ∧
    (∀ ε : Int, -(allNegative.window.toNat : Int) ≤ ε → ε ≤ allNegative.window.toNat →
      0 ≤ (allNegative.tsHi ++ allNegative.tsLo).toInt / (1000 * allNegative.period.toInt) + ε →
      Misses (fun c => hotpCode (hmacOf allNegative.cfg) .sha1 (base32Decode secretR) c 6) code0
        ((allNegative.tsHi ++ allNegative.tsLo).toInt / (1000 * allNegative.period.toInt) + ε).toNat) :=
  ⟨secret_any _ rfl (by decide) holds_negative.1, ⟨rfl, by decide, holds_negative.2⟩, by decide, fun ε _ h2 h3 => by
    rw [current_negative] at h3
    have hw : allNegative.window.toNat = 2 := by decide
    omega⟩

theorem witness_TotpverErrorsInOrder_checks : (ready code0 []).secretLen.toNat ≤ (ready code0 []).cfg.secretMax ∧
    (ready code0 []).tokenLen.toNat ≤ 16 ∧ ({ ready code0 [] with period := 0 } : State).period.toInt ≤ 0 ∧
    0 < (ready code0 []).period.toInt ∧ (ready code0 []).secretLen ≠ 0 ∧
    ({ ready code0 [] with secretLen := 0 } : State).secretLen = 0 := by decide

theorem witness_TotpgenErrorsInOrder_digits : (ready [] []).busy = false ∧ (ready [] []).secretLen ≠ 0 ∧
    0 < (ready [] []).period.toInt ∧ 0 ≤ ((ready [] []).tsHi ++ (ready [] []).tsLo).toInt ∧ (5 < 6 ∨ 5 > 10) := by decide

theorem witness_TotpverErrorsInOrder_length : (ready [] []).busy = false ∧
    ({ ready [] [] with tokenLen := 17 } : State).tokenLen.toNat > 16 := by decide

theorem witness_TotpverErrorsInOrder_short : SecretReady stepThree secretR ∧ TokenReady stepThree code1 ∧ 0 < stepThree.period.toInt ∧
    -(stepThree.window.toNat : Int) ≤ 0 ∧ (0 : Int) ≤ stepThree.window.toNat ∧
    0 ≤ (stepThree.tsHi ++ stepThree.tsLo).toInt / (1000 * stepThree.period.toInt) + 0 ∧
    hotpCode (hmacOf stepThree.cfg) .sha1 (base32Decode secretR)
      ((stepThree.tsHi ++ stepThree.tsLo).toInt / (1000 * stepThree.period.toInt) + 0).toNat 6 =
        .error .truncationOutOfRange :=
  ⟨secret_any _ rfl (by decide) holds_step_three.1, ⟨rfl, by decide, holds_step_three.2⟩, by decide, by decide, by decide,
    by decide, by rfl⟩

theorem witness_TotpgenDelegatesToHotpgen : (after (.totpgen 0 6) (ready [] [])).map (·.err) = some 0 ∧
    ((0 : BitVec 64).toNat : Int) = ((ready [] []).tsHi ++ (ready [] []).tsLo).toInt / (1000 * (ready [] []).period.toInt) := by
  decide

/-! ### Witnesses: the bus -/

/-- One target of each kind, at the ends of its range. -/
theorem witness_HostWritesByTarget : busTarget cfgR 0x0000 .word = some (.reg .cmd) ∧
    busTarget cfgR 0x0064 .word = some (.reg .doutLen) ∧ busTarget cfgR 0x10FC .word = some (.buf .secret 252) ∧
    busTarget cfgR 0x200C .word = some (.buf .token 12) ∧ busTarget cfgR 0x3000 .word = some (.buf .din 0) ∧
    busTarget cfgR 0x419C .word = some (.buf .dout 412) ∧ busTarget cfgR 0x5008 .word = some (.buf .code 8) := by decide

theorem witness_BufferWordsAreLittleEndian : (ready [] []).busy = false ∧
    busTarget (ready [] []).cfg 0x10FC .word = some (.buf .secret 252) ∧ bufWritable .secret = true ∧
    busTarget (ready [] []).cfg 0x101C .word = some (.buf .secret 28) ∧
    bufOf .secret 32 (ready [] []) = secretR.map some := by decide

/-- The bus errors next to mapped words: half width, misaligned, past a window, in the register gap. -/
theorem witness_BusErrorsExactly : busTarget cfgR 0x0000 .half = none ∧ busTarget cfgR 0x0002 .word = none ∧
    busTarget cfgR 0x1100 .word = none ∧ busTarget cfgR 0x0030 .word = none ∧ busTarget cfgR 0x0068 .word = none ∧
    busTarget cfgR 0x41A0 .word = none ∧ busTarget cfgR 0x500C .word = none ∧
    (busTarget cfgR 0x002C .word).isSome = true ∧ (busTarget cfgR 0x0040 .word).isSome = true := by decide

theorem witness_WriteLockWhileBusy : busyState.busy = true ∧ 0 < busyState.delay ∧
    busTarget busyState.cfg 0x0008 .word = some (.reg .ctrLo) ∧
    ({ busyState with host := [.write 0x0008 .word 7] } : State).host = .write 0x0008 .word 7 :: [] ∧
    ({ busyState with host := [.read 0x0008 .word] } : State).host = .read 0x0008 .word :: [] := by decide

theorem witness_ReadsHaveNoSideEffect : ∃ t, hostRead 0x0018 .word (ready [] []) = .ok (30, t) ∧
    busTarget (ready [] []).cfg 0x0018 .word = some (.reg .period) := ⟨_, rfl, by decide⟩

/-- What the halves of wide values, the one-bit and the 16-bit registers read (R20, R42, R54). -/
theorem test_read_fields :
    (let s := { ready [] [] with
       delta := 0x1111111122222222
       rem := 0x3333333344444444
       ctrExt := 1
       tokenLen := 0xFFFF }
     [Reg.deltaLo, .deltaHi, .remLo, .remHi, .ctrExt, .tokenLen].map (fun r => readReg r s)) =
      [0x22222222, 0x11111111, 0x44444444, 0x33333333, 1, 0xFFFF] := by decide

/-- A buffer read while BUSY = 1, all of its bytes written. -/
theorem witness_WriteLockWhileBusy_buffer : busyState.busy = true ∧ 0 < busyState.delay ∧
    busTarget busyState.cfg 0x1000 .word = some (.buf .secret 0) ∧
    ({ busyState with host := [.read 0x1000 .word] } : State).host = .read 0x1000 .word :: [] ∧
    bufOf .secret 4 busyState = (ascii ['G', 'E', 'Z', 'D']).map some := by decide

/-! ### Witnesses: reset, invariants, runs -/

theorem witness_ResetAbandonsTheCommand : ({ busyState with host := [.reset] } : State).host = .reset :: [] ∧
    0 < busyState.delay ∧ (ready [] []).busy = false := by decide

theorem witness_StepKeepsMemoryCanonical : (writing 0x00060010).mem.wf ∧ goesOn (step (writing 0x00060010)) = true := by
  decide

/-- A step that completes a command, from a state with a canonical memory and a consistent STATUS. -/
theorem witness_StepKeepsStatusConsistent : StatusInv { busyState with delay := 0 } ∧
    goesOn (step { busyState with delay := 0 }) = true :=
  ⟨⟨by decide, fun c o h => by cases h; exact ⟨rfl, rfl, rfl⟩⟩, by decide⟩

/-- Reset with a command in flight that will write a code. -/
def codeInFlight : State :=
  { State.reset with inflight := some (0x00060003, .ok { code := some (codeWrite 6 872921 (renderDigits 872921 6)) }) }

theorem witness_StepKeepsResultsConsistent : ResultInv codeInFlight ∧ goesOn (step codeInFlight) = true := by
  refine ⟨⟨by decide, .inl ⟨rfl, rfl, by decide, fun k hk => absurd hk (Nat.not_lt_zero k), fun k _ hk => ?_⟩, fun _ => rfl,
    ⟨by decide, by decide⟩, by decide, ⟨by decide, fun k _ hk => ?_⟩, fun c ws h => ?_⟩, by decide⟩
  · show unlisted (0x5000 + k) = some 0
    rw [unlisted, if_pos (by omega)]
  · show unlisted (0x4000 + k) = some 0
    have h416 : doutMax codeInFlight.cfg = 416 := by decide
    rw [unlisted, if_pos (by omega)]
  · cases h
    constructor
    · intro c h
      cases h
      exact ⟨by decide, by decide, by decide, by decide, rfl⟩
    all_goals
      intro _ h
      cases h

theorem witness_ResultsChangeOnlyAtCompletion : (writing 0x22).cfg.legal ∧ goesOn (step (writing 0x22)) = true ∧
    (writing 0x22).busy = false ∧ (writing 0x22).host.head? ≠ some .reset := by decide

theorem witness_ConfigurationNeverChanges : goesOn (step State.reset) = true := by decide

theorem witness_WaitingEndsInCompletion : busyState.inflight = some (0x22, .ok { rctr := some 5 }) ∧
    ({ busyState with host := [.wait] } : State).host = .wait :: [] := by decide

/-- An idle block whose host is about to make one call. -/
def calling (c : Call) : State := { State.reset with host := [.call c] }

/-- The extreme timestamps and periods. -/
theorem witness_TimeStepCallReturnsTheFloor :
    (calling (.timeStep (-9223372036854775808) 1)).busy = false ∧
    (calling (.timeStep (-9223372036854775808) 1)).host = [.call (.timeStep (-9223372036854775808) 1)] ∧
    (1 : Int) ≤ 1 ∧ (1 : Int) < 2 ^ 31 ∧ -(2 ^ 63) ≤ (-9223372036854775808 : Int) ∧ (-9223372036854775808 : Int) < 2 ^ 63 ∧
    (1 : Int) ≤ 2147483647 ∧ (2147483647 : Int) < 2 ^ 31 ∧ (9223372036854775807 : Int) < 2 ^ 63 := by decide

theorem witness_TimeStepCallReportsBadPeriod : (calling (.timeStep 0 0)).busy = false ∧
    (calling (.timeStep 0 0)).host = [.call (.timeStep 0 0)] ∧ (0 : Int) ≤ 0 ∧ (-2147483649 : Int) ≤ 0 ∧ -(2 ^ 63) ≤ (0 : Int) ∧
    (0 : Int) < 2 ^ 63 := by decide

end Sys2Proof.Tests
end

section
/-! The host's writes by the target they reach, and the byte order of buffer words (20_memory.md R53, R57). -/

namespace Sys2Proof.Machine

/-! ### The command word -/

/-- What the opcode map selects carries the OP value and the two operand fields it was given. -/
theorem instrOfOp_some {op alg digits : Nat} {i : Instr} (h : instrOfOp op alg digits = some i) :
    opOf i = op ∧ i.alg = alg ∧ i.digits = digits := by
  unfold instrOfOp at h
  repeat' split at h
  all_goals cases h <;> exact ⟨Eq.symm (by assumption), rfl, rfl⟩

/-- A word is its five fields, most significant first (R71). -/
theorem word_eq_fields (c : Word) :
    c.extractLsb' 24 8 ++ c.extractLsb' 16 8 ++ c.extractLsb' 12 4 ++ c.extractLsb' 8 4 ++ c.extractLsb' 0 8 = c := by
  have join {i j m n : Nat} (h : i = j + n) : c.extractLsb' i m ++ c.extractLsb' j n = c.extractLsb' j (m + n) :=
    BitVec.extractLsb'_append_extractLsb'_eq_extractLsb' h
  rw [join (show 24 = 16 + 8 from rfl), join (show 16 = 12 + 4 from rfl), join (show 12 = 8 + 4 from rfl),
    join (show 8 = 0 + 8 from rfl)]
  exact BitVec.extractLsb'_eq_self

/-- The reserved bits are all 0 only when both reserved fields are. -/
theorem fieldRsv_eq_zero {c : Word} (h : fieldRsv c = 0) : c.extractLsb' 24 8 = 0 ∧ c.extractLsb' 12 4 = 0 :=
  ⟨BitVec.extractLsb'_append_eq_left.symm.trans (congrArg (BitVec.extractLsb' 4 8) h),
    BitVec.extractLsb'_append_eq_right.symm.trans (congrArg (BitVec.extractLsb' 0 4) h)⟩

/-- The word of a command that decodes is that command's encoding. -/
theorem encode_of_decode {c : Word} {i : Instr} (h : decode c = .ok i) : encode i = c := by
  unfold decode at h
  split at h
  · cases h
  · rename_i hrsv
    split at h
    · rename_i heq
      cases h
      obtain ⟨hop, halg, hdigits⟩ := instrOfOp_some heq
      obtain ⟨hhi, hlo⟩ := fieldRsv_eq_zero (Decidable.not_not.mp hrsv)
      refine Eq.trans ?_ (word_eq_fields c)
      simp only [encode, hop, halg, hdigits, hhi, hlo, fieldOp, fieldAlg, fieldDigits, BitVec.ofNat_toNat,
        BitVec.setWidth_eq]
    · cases h

/-- A write to CMD of an idle block that goes on issues the word written, legal or not (R43). -/
theorem writeCmd_issuedFrom {c : Word} {s t : State} (hb : s.busy = false) (h : writeCmd c s = .next t) :
    IssuedFrom c s t := by
  rcases writeCmd_next hb h with ⟨i, ws, hi, _, rfl⟩ | ⟨i, k, hi, _, rfl⟩ | ⟨_, _, rfl⟩
  · exact encode_of_decode hi ▸ issued_issuedFrom _ _ s
  · exact encode_of_decode hi ▸ issued_issuedFrom _ _ s
  · exact issued_issuedFrom _ _ s

/-! ### A host access at a mapped address -/

section
variable {s : State} {a : BitVec 16} {v : Word}

theorem hostWrite_busy {x : Target} (hx : busTarget s.cfg a .word = some x) (hb : s.busy = true) :
    hostWrite a .word v s = .next (dropWrite s) := by
  simp only [hostWrite, hx, hb, if_true]

theorem hostWrite_cmd (hx : busTarget s.cfg a .word = some (.reg .cmd)) (hb : s.busy = false) :
    hostWrite a .word v s = writeCmd v s := by
  simp only [hostWrite, hx, hb, Bool.false_eq_true, if_false]

theorem hostWrite_reg {r : Reg} (hx : busTarget s.cfg a .word = some (.reg r)) (hb : s.busy = false)
    (hr : r ≠ .cmd) : hostWrite a .word v s = .next (writeReg r v s) := by
  cases r with
  | cmd => exact absurd rfl hr
  | _ => simp only [hostWrite, hx, hb, Bool.false_eq_true, if_false]

theorem hostWrite_buf {b : Buf} {k : Nat} (hx : busTarget s.cfg a .word = some (.buf b k)) (hb : s.busy = false) :
    hostWrite a .word v s = .next (writeBufWord b k v s) := by
  simp only [hostWrite, hx, hb, Bool.false_eq_true, if_false]

theorem hostRead_ok_of_target {x : Target} (hx : busTarget s.cfg a .word = some x) :
    ∃ t, hostRead a .word s = .ok ((readTarget x s).1, t) := by
  simp only [hostRead, hx]
  exact ⟨_, rfl⟩

end

/-! ### Buffer words -/

theorem writeBufWord_writable {b : Buf} (k : Nat) (v : Word) (s : State) (hw : bufWritable b = true) :
    writeBufWord b k v s = { s with mem := memSetBytes s.mem (bufBase b + k) (wordBytes v) } := by
  rw [writeBufWord, if_pos hw]

theorem writeBufWord_readOnly {b : Buf} (k : Nat) (v : Word) (s : State) (hw : bufWritable b = false) :
    writeBufWord b k v s = s := by
  simp only [writeBufWord, hw, Bool.false_eq_true, if_false]

/-- The buffers a host write leaves alone are the two output buffers (R56). -/
theorem bufWritable_eq_false {b : Buf} : bufWritable b = false ↔ b = .dout ∨ b = .code := by
  cases b <;> decide

/-- Byte `j` of a word in buffer order is its bits from `8 j` on (R53). -/
theorem wordBytes_getD (v : Word) {j : Nat} (hj : j < 4) :
    (wordBytes v).getD j 0 = BitVec.ofNat 8 (v.toNat / 2 ^ (8 * j)) := by
  have byteAt (n : Nat) : v.extractLsb' n 8 = BitVec.ofNat 8 (v.toNat / 2 ^ n) := by
    rw [BitVec.extractLsb', Nat.shiftRight_eq_div_pow]
  obtain rfl | rfl | rfl | rfl : j = 0 ∨ j = 1 ∨ j = 2 ∨ j = 3 := by omega
  all_goals exact byteAt _

/-- The bytes from a buffer word's address on after the word was written, by their offset in the word. -/
theorem memGet_writeWord_offset (m : Memory) (a : Nat) (v : Word) {j : Nat} (hj : j < 4) :
    memGet (memSetBytes m a (wordBytes v)) (a + j) = some ((wordBytes v).getD j 0) := by
  rw [memGet_writeWord, if_pos (by omega), Nat.add_sub_cancel_left]

/-! ### STATUS -/

/-- A write to STATUS with bit 8 set clears DROPPED and does nothing else (R33). -/
theorem writeStatus_eq (v : Word) (s : State) :
    writeStatus v s = { s with dropped := if v &&& 0x100 = 0 then s.dropped else false } := by
  have hmask : v &&& 0x100 = if v.getLsbD 8 then 0x100 else 0 := BitVec.and_twoPow v 8
  rw [writeStatus, hmask]
  cases v.getLsbD 8
  · simp only [Bool.not_false, Bool.and_true, Bool.false_eq_true, if_false, if_true]
  · have hne : (0x100 : Word) ≠ 0 := by decide
    simp only [Bool.not_true, Bool.and_false, if_true, hne, if_false]

end Sys2Proof.Machine

open Sys2Proof Sys2Proof.Machine

/-- Settles O41: a dropped write while busy; else by the target, each register by its own equation, a buffer word by the
law of a read after a word write. -/
theorem hostWritesByTarget : Obligations.HostWritesByTarget := by
  intro s a v tgt hx
  split
  · rename_i hb
    exact hostWrite_busy hx hb
  rename_i hbusy
  have hb : s.busy = false := eq_false_of_ne_true hbusy
  cases tgt with
  | reg r =>
    cases r with
    | cmd =>
      have hcmd := hostWrite_cmd (v := v) hx hb
      exact ⟨hcmd, fun t ht => writeCmd_issuedFrom hb (hcmd ▸ ht)⟩
    | status => exact (hostWrite_reg hx hb (by decide)).trans (congrArg _ (writeStatus_eq v s))
    | ctrExt => exact ⟨_, hostWrite_reg hx hb (by decide), BitVec.extractLsb'_toNat 0 1 v⟩
    | secretLen | tokenLen | dinLen => exact ⟨_, hostWrite_reg hx hb (by decide), BitVec.extractLsb'_toNat 0 16 v⟩
    | _ => exact hostWrite_reg hx hb (by decide)
  | buf b k =>
    have hbuf := hostWrite_buf (v := v) hx hb
    by_cases hro : b = .dout ∨ b = .code
    · rw [writeBufWord_readOnly k v s (bufWritable_eq_false.mpr hro)] at hbuf
      exact (if_pos hro).mpr hbuf
    · have hw : bufWritable b = true := eq_true_of_ne_false (mt bufWritable_eq_false.mp hro)
      rw [writeBufWord_writable k v s hw] at hbuf
      refine (if_neg hro).mpr ⟨_, hbuf, fun x => ?_⟩
      rw [memGet_writeWord]
      split
      · rw [wordBytes_getD v (by omega)]
      · rfl

/-- Settles O42: a target's address is its base plus its index; the read is the law of a written word, the write that of
a read after a word write at each of the four offsets. -/
theorem bufferWordsAreLittleEndian : Obligations.BufferWordsAreLittleEndian := by
  intro s a b k hx
  obtain ⟨_, _, haddr, _⟩ := busTarget_buf hx
  refine ⟨haddr, fun b0 b1 b2 b3 h0 h1 h2 h3 => ?_, fun v hb hw => ?_⟩
  · obtain ⟨t, ht⟩ := hostRead_ok_of_target hx
    rw [readTarget, readBufWord_written h0 h1 h2 h3] at ht
    exact ⟨t, ht⟩
  · have hbyte {j : Nat} (hj : j < 4) := memGet_writeWord_offset s.mem (bufBase b + k) v hj
    exact ⟨_, (hostWrite_buf hx hb).trans (congrArg _ (writeBufWord_writable k v s hw)),
      hbyte (j := 0) (by decide), hbyte (j := 1) (by decide), hbyte (j := 2) (by decide), hbyte (j := 3) (by decide)⟩

end

section
/-! Which command words are illegal, and what an idle block does with one (30_encoding.md R75). -/

namespace Sys2Proof.Machine

/-! ### The legal words -/

/-- The nine OP values of the opcode map (R73). -/
def assignedOps : List Nat := [0x01, 0x02, 0x03, 0x10, 0x11, 0x20, 0x21, 0x22, 0x23]

theorem opOf_mem_assignedOps (i : Instr) : opOf i ∈ assignedOps := by
  cases i <;> simp [opOf, assignedOps]

/-- An OP value selects a command exactly when it is assigned, whatever the operand fields are. -/
theorem exists_instrOfOp_iff {op alg digits : Nat} :
    (∃ i, instrOfOp op alg digits = some i) ↔ op ∈ assignedOps := by
  constructor
  · rintro ⟨i, hi⟩
    obtain ⟨hop, _, _⟩ := instrOfOp_some hi
    exact hop ▸ opOf_mem_assignedOps i
  · intro hop
    simp only [assignedOps, List.mem_cons, List.not_mem_nil, or_false] at hop
    rcases hop with rfl | rfl | rfl | rfl | rfl | rfl | rfl | rfl | rfl <;> exact ⟨_, rfl⟩

theorem fieldRsv_eq_zero_iff {c : Word} : fieldRsv c = 0 ↔ c.extractLsb' 24 8 = 0 ∧ c.extractLsb' 12 4 = 0 := by
  refine ⟨fieldRsv_eq_zero, fun ⟨hhi, hlo⟩ => ?_⟩
  rw [fieldRsv, hhi, hlo]
  rfl

theorem fieldOp_eq (c : Word) : fieldOp c = c.toNat % 256 := BitVec.extractLsb'_toNat 0 8 c

/-- A word decodes exactly when its reserved bits are 0 and the opcode map has its OP value. -/
theorem exists_decode_ok_iff {c : Word} :
    (∃ i, decode c = .ok i) ↔
      fieldRsv c = 0 ∧ ∃ i, instrOfOp (fieldOp c) (fieldAlg c) (fieldDigits c) = some i := by
  unfold decode
  split
  · rename_i hrsv
    exact ⟨fun ⟨_, h⟩ => (nomatch h), fun ⟨h, _⟩ => absurd h hrsv⟩
  · rename_i hrsv
    have hzero := Decidable.not_not.mp hrsv
    split
    · rename_i i hi
      exact ⟨fun _ => ⟨hzero, i, hi⟩, fun _ => ⟨i, rfl⟩⟩
    · rename_i hi
      exact ⟨fun ⟨_, h⟩ => (nomatch h), fun ⟨_, i, h⟩ => (nomatch hi.symm.trans h)⟩

/-- The two cases of R75, and no third, make a word illegal. -/
theorem exists_decode_error_iff {c : Word} :
    (∃ e, decode c = .error e) ↔
      c.extractLsb' 24 8 ≠ 0 ∨ c.extractLsb' 12 4 ≠ 0 ∨ c.toNat % 256 ∉ assignedOps := by
  have hok : (∃ i, decode c = .ok i) ↔
      (c.extractLsb' 24 8 = 0 ∧ c.extractLsb' 12 4 = 0) ∧ c.toNat % 256 ∈ assignedOps := by
    rw [exists_decode_ok_iff, exists_instrOfOp_iff, fieldRsv_eq_zero_iff, fieldOp_eq]
  have htotal : (∃ e, decode c = .error e) ↔ ¬ ∃ i, decode c = .ok i := by
    cases decode c <;> simp
  rw [htotal, hok, Classical.not_and_iff_not_or_not, Classical.not_and_iff_not_or_not]
  exact or_assoc

/-! ### The life of an illegal command -/

/-- An idle block runs the host's next operation. -/
theorem step_of_idle {s : State} {op : HostOp} {rest : List HostOp} (hb : s.busy = false)
    (hh : s.host = op :: rest) : step s = runHostOp op { s with host := rest } := by
  simp only [step, agentStep, sequencerTurn, tick, hostStep, hb, hh, Bool.false_and, Bool.false_eq_true, if_false]

/-- An idle block accepts an illegal word, with IllegalCommand as its outcome. -/
theorem writeCmd_of_illegal {c : Word} {e : Illegal} {s : State} (hb : s.busy = false) (hc : decode c = .error e) :
    writeCmd c s = .next (issued c (.error .illegalCommand) s) := by
  simp only [writeCmd, hc, issueCommand, hb, raise, Bool.false_eq_true, if_false]

theorem complete_issued_resultsKept_error (c : Word) (k : ErrKind) (s : State) :
    ResultsKept s (complete (issued c (.error k) s)) := ⟨rfl, rfl, rfl, rfl, rfl, rfl, rfl⟩

theorem resultsKept_setHost (s : State) (ops : List HostOp) : ResultsKept s { s with host := ops } :=
  ⟨rfl, rfl, rfl, rfl, rfl, rfl, rfl⟩

end Sys2Proof.Machine

open Sys2Proof Sys2Proof.Machine

/-- Settles O4: the condition says that decoding fails; the step is then the host's write to CMD, which issues the word
with IllegalCommand, and completion of an issued error leaves its code and nothing else. -/
theorem illegalWordsCompleteWithIllegalCommand : Obligations.IllegalWordsCompleteWithIllegalCommand := by
  intro c
  split
  · rename_i hill
    intro s rest hb hh
    obtain ⟨e, he⟩ := exists_decode_error_iff.mpr hill
    have hstep : step s = .next (issued c (.error .illegalCommand) { s with host := rest }) := calc
      step s = hostWrite 0 .word c { s with host := rest } := step_of_idle hb hh
      _ = writeCmd c { s with host := rest } := hostWrite_cmd (busTarget_reg s.cfg .cmd) hb
      _ = _ := writeCmd_of_illegal hb he
    exact ⟨_, hstep, issued_issuedFrom _ _ _, complete_issued_completedFrom_error c .illegalCommand _,
      (resultsKept_setHost s rest).trans (complete_issued_resultsKept_error _ _ _), rfl⟩
  · rename_i hlegal
    cases hdec : decode c with
    | ok i => exact ⟨i, rfl⟩
    | error e => exact absurd (exists_decode_error_iff.mp ⟨e, hdec⟩) hlegal

end

section
/-! The Base32 codec: what packing and unpacking do to a bit string, the characters of an encoding, and the two codec
commands' output (40_base32.md R100-R108). -/

namespace Sys2Proof.Machine

/-! ### Characters -/

/-- The alphabet's characters are 'A'..'Z' and '2'..'7' (R100). -/
theorem valueChar_mem_alphabet (v : BitVec 5) :
    (0x41 ≤ (valueChar v).toNat ∧ (valueChar v).toNat ≤ 0x5A) ∨
      (0x32 ≤ (valueChar v).toNat ∧ (valueChar v).toNat ≤ 0x37) := by
  revert v
  decide

/-- Decoding reads an alphabet character as its value: case folding leaves it alone. -/
theorem charValue_foldCase_valueChar (v : BitVec 5) : charValue (foldCase (valueChar v)) = some v := by
  revert v
  decide

/-- Decoding skips the padding. -/
theorem charValue_foldCase_padChar : charValue (foldCase padChar) = none := by decide

/-- Decoding keeps the values that encoding made characters of, and drops the padding. -/
theorem base32Values_base32Encode (b : Bytes) : base32Values (base32Encode b) = groups5 (bitString b) := by
  have hchar : (fun ch => charValue (foldCase ch)) ∘ valueChar = some := funext charValue_foldCase_valueChar
  have hpad (n : Nat) : (List.replicate n padChar).filterMap (fun ch => charValue (foldCase ch)) = [] :=
    List.filterMap_replicate_of_none charValue_foldCase_padChar
  rw [base32Values, base32Encode, base32Chars, List.filterMap_append, List.filterMap_map, hchar, hpad,
    List.filterMap_some, List.append_nil]

/-! ### Bit strings -/

@[simp] theorem bitString_nil {w : Nat} : bitString ([] : List (BitVec w)) = [] := rfl

@[simp] theorem bitString_cons {w : Nat} (v : BitVec w) (vs : List (BitVec w)) :
    bitString (v :: vs) = bitsOf v ++ bitString vs := rfl

@[simp] theorem length_bitsOf {w : Nat} (v : BitVec w) : (bitsOf v).length = w := by simp [bitsOf]

@[simp] theorem length_bitString {w : Nat} (vs : List (BitVec w)) : (bitString vs).length = w * vs.length := by
  induction vs with
  | nil => rfl
  | cons v vs ih => rw [bitString_cons, List.length_append, length_bitsOf, ih, List.length_cons,
    Nat.mul_add_one, Nat.add_comm]

@[simp] theorem bitsOf_group5 (a b c d e : Bool) : bitsOf (group5 a b c d e) = [a, b, c, d, e] := by
  revert a b c d e
  decide

/-- The groups' bits are the string's, then the fewer than five 0 bits of the fill. -/
theorem bitString_groups5 (l : List Bool) :
    ∃ k < 5, bitString (groups5 l) = l ++ List.replicate k false := by
  induction l using groups5.induct with
  | case1 a b c d e rest ih =>
    obtain ⟨k, hk, h⟩ := ih
    exact ⟨k, hk, by simp [groups5, h]⟩
  | case2 => exact ⟨1, by decide, by simp [groups5]⟩
  | case3 => exact ⟨2, by decide, by simp [groups5]⟩
  | case4 => exact ⟨3, by decide, by simp [groups5]⟩
  | case5 => exact ⟨4, by decide, by simp [groups5]⟩
  | case6 => exact ⟨0, by decide, rfl⟩

/-- A string of `n` bits is cut into `ceil(n/5)` groups. -/
theorem length_groups5 (l : List Bool) : (groups5 l).length = (l.length + 4) / 5 := by
  obtain ⟨k, hk, h⟩ := bitString_groups5 l
  have hlen := congrArg List.length h
  rw [length_bitString, List.length_append, List.length_replicate] at hlen
  omega

theorem ofBool_getMsbD (v : Byte) {i : Nat} (hi : i < 8) : BitVec.ofBool (v.getMsbD i) = v.extractLsb' (7 - i) 1 := by
  ext j hj
  obtain rfl : j = 0 := by omega
  simp [BitVec.getMsbD, hi]

/-- The first byte that unpacking takes off a string is the one whose bits stand there: eight adjacent one-bit fields
join to the whole byte. -/
theorem groups8_bitsOf_append (v : Byte) (rest : List Bool) : groups8 (bitsOf v ++ rest) = v :: groups8 rest := by
  have join {i j m n : Nat} (h : i = j + n) : v.extractLsb' i m ++ v.extractLsb' j n = v.extractLsb' j (m + n) :=
    BitVec.extractLsb'_append_extractLsb'_eq_extractLsb' h
  refine congrArg (· :: groups8 rest) ?_
  simp only [ofBool_getMsbD, Nat.reduceLT, Nat.reduceSub, Nat.reduceAdd, join, BitVec.extractLsb'_eq_self]

theorem groups8_of_length_lt {l : List Bool} (h : l.length < 8) : groups8 l = [] := by
  unfold groups8
  split
  · simp only [List.length_cons] at h
    omega
  · rfl

/-- Unpacking a byte sequence's bits gives it back, whatever incomplete byte follows them. -/
theorem groups8_bitString_append (bs : Bytes) {tail : List Bool} (h : tail.length < 8) :
    groups8 (bitString bs ++ tail) = bs := by
  induction bs with
  | nil => exact groups8_of_length_lt h
  | cons b bs ih => rw [bitString_cons, List.append_assoc, groups8_bitsOf_append, ih]

/-! ### The length of an encoding -/

theorem length_base32Chars (b : Bytes) : (base32Chars b).length = (8 * b.length + 4) / 5 := by
  rw [base32Chars, List.length_map, length_groups5, length_bitString]

/-- The padding of the characters of `n` bytes, as R102 counts it. -/
theorem padCount_chars (n : Nat) : padCount ((8 * n + 4) / 5) = 8 * ((n + 4) / 5) - (8 * n + 4) / 5 := by
  unfold padCount
  omega

theorem length_base32Encode (b : Bytes) : (base32Encode b).length = 8 * ((b.length + 4) / 5) := by
  rw [base32Encode, List.length_append, List.length_replicate, length_base32Chars, padCount_chars]
  omega

/-- The encoding of an input that fits DIN_MEM fits DOUT_MEM. -/
theorem length_base32Encode_le_doutMax {p : Params} {b : Bytes} (h : b.length ≤ p.dinMax) :
    (base32Encode b).length ≤ doutMax p := by
  rw [length_base32Encode, doutMax]
  omega

/-! ### A command's output buffer -/

/-- An output buffer lies within the windows whose bytes reset to 0x00. -/
theorem unlisted_output {b : Buf} {k : Nat} (hb : bufWritable b = false) (hk : k < 0x1000) :
    unlisted (bufBase b + k) = some 0 := by
  rcases bufWritable_eq_false.mp hb with rfl | rfl <;> exact if_pos (by simp only [bufBase]; omega)

/-- An output buffer just written holds the output and then 0x00. -/
theorem outputHolds_of_writeOutput {s : State} {p : Params} {m : Memory} {b : Buf} {bs : Bytes}
    (hmem : s.mem = writeOutput p m b bs) (hb : bufWritable b = false) (hcap : bufCap p b ≤ 0x1000)
    (hlen : bs.length ≤ bufCap p b) : OutputHolds s b (bufCap p b) bs := by
  refine ⟨hlen, fun k hk => ?_, fun k hlo hhi => ?_⟩
  · rw [hmem, memGet_writeOutput, if_pos (by omega), Nat.add_sub_cancel_left]
  · rw [hmem, memGet_writeOutput, if_neg (by omega), if_pos (by omega), unlisted_output hb (by omega)]

/-- Writing an output buffer leaves every byte outside it alone. -/
theorem memKeptOutside_of_writeOutput {s t : State} {b : Buf} {bs : Bytes}
    (hmem : t.mem = writeOutput s.cfg s.mem b bs) (hlen : bs.length ≤ bufCap s.cfg b) : MemKeptOutside b s t := by
  intro a ha
  have hout := inBuf_false.mp ha
  rw [hmem, memGet_writeOutput, if_neg (by omega), if_neg (by omega)]

theorem doutMax_le_window {p : Params} (h : p.legal) : doutMax p ≤ 0x1000 := by
  obtain ⟨_, _, _, _, _, hdin, _⟩ := h
  unfold doutMax
  omega

/-! ### The codec commands -/

/-- A command whose evaluation gives an output for DOUT_MEM, and nothing else, completes with exactly that (R29, R32). -/
theorem exec_dout {i : Instr} {s : State} {o : Bytes} (hb : s.busy = false) (hlegal : s.cfg.legal)
    (hres : commandResult i s = .ok { dout := some o }) (hlen : o.length ≤ doutMax s.cfg) :
    ∃ t, exec i s = .next t ∧ IssuedFrom (encode i) s t ∧ CompletedFrom (encode i) 0 s (complete t) ∧
      (complete t).doutLen.toNat = o.length ∧ OutputHolds (complete t) .dout (doutMax s.cfg) o ∧
      ResultsKept s { complete t with doutLen := s.doutLen } ∧ MemKeptOutside .dout s (complete t) := by
  have hwin := doutMax_le_window hlegal
  have hlen32 : (BitVec.ofNat 32 o.length).toNat = o.length := by
    rw [BitVec.toNat_ofNat, Nat.mod_eq_of_lt (by omega)]
  exact ⟨_, exec_of_ok hb hres, issued_issuedFrom _ _ s, complete_issued_completedFrom_ok _ _ s, hlen32,
    outputHolds_of_writeOutput rfl rfl hwin hlen, ⟨rfl, rfl, rfl, rfl, rfl, rfl, rfl⟩,
    memKeptOutside_of_writeOutput rfl hlen⟩

theorem b32encResult_lengthOutOfRange {s : State} (h : s.cfg.dinMax < s.dinLen.toNat) :
    b32encResult s = .error (.err .lengthOutOfRange) :=
  bind_eq_error.mpr (.inl (checkLength_error.mpr ⟨h, rfl⟩))

end Sys2Proof.Machine

open Sys2Proof Sys2Proof.Machine

/-- Settles O14: decoding keeps the groups of the encoding, whose bits are the bytes' and a fill too short for a byte. -/
theorem base32RoundTrip : Obligations.Base32RoundTrip := by
  intro b
  obtain ⟨k, hk, hbits⟩ := bitString_groups5 (bitString b)
  rw [base32Decode, base32Values_base32Encode, hbits]
  exact groups8_bitString_append b (by rw [List.length_replicate]; omega)

/-- Settles O15: the characters are those of the groups, counted, and the padding is the count that remains. -/
theorem encodingIsPaddedToEight : Obligations.EncodingIsPaddedToEight := by
  intro b
  refine ⟨base32Chars b, ?_, length_base32Chars b, length_base32Encode b, fun ch hch => ?_⟩
  · rw [base32Encode, length_base32Chars, padCount_chars, padChar]
  · obtain ⟨v, _, rfl⟩ := List.mem_map.mp hch
    exact valueChar_mem_alphabet v

/-- Settles O12: the length check raises the error; a ready input evaluates to its encoding, which fits DOUT_MEM. -/
theorem b32encEncodesDin : Obligations.B32encEncodesDin := by
  refine ⟨rfl, rfl, by decide, fun alg digits s hb hlegal => ⟨fun hlong => ?_, fun inp hin => ?_⟩⟩
  · exact rejects_of_err hb (b32encResult_lengthOutOfRange hlong) rfl
  · obtain ⟨hlen, hfits, hholds⟩ := hin
    have hres : b32encResult s = .ok { dout := some (base32Encode inp) } :=
      b32encResult_ok.mpr ⟨inp, hlen ▸ hfits, hlen, hholds, rfl⟩
    exact exec_dout hb hlegal hres (length_base32Encode_le_doutMax hfits)

end

section
/-! Dynamic truncation: the range check, the slice as a number, and the rendering of a code (42_truncation.md
R141-R147). -/

namespace Sys2Proof.Machine

/-! ### The offset and the range check -/

/-- The offset is the last byte under the mask of R141. -/
theorem truncOffset_eq_and (last : Byte) : truncOffset last = (last &&& 0x0F).toNat := calc
  last.toNat % 2 ^ 4 = last.toNat &&& 0x0F := (Nat.and_two_pow_sub_one_eq_mod last.toNat 4).symm
  _ = (last &&& 0x0F).toNat := (BitVec.toNat_and last 0x0F).symm

/-- An empty digest has no last byte (R142). -/
theorem truncate_nil (d : Nat) : truncate [] d = .error .truncationOutOfRange := rfl

/-- Truncation of a digest with a last byte: the range check at its offset decides (R143). -/
theorem truncate_concat (dig : Bytes) (last : Byte) (d : Nat) :
    truncate (dig ++ [last]) d =
      if truncOffset last + 4 > (dig ++ [last]).length then .error .truncationOutOfRange
      else .ok (truncBinary (dig ++ [last]) (truncOffset last) % 10 ^ d,
        renderDigits (truncBinary (dig ++ [last]) (truncOffset last) % 10 ^ d) d) := by
  simp only [truncate, List.getLast?_concat]

/-! ### The slice -/

/-- The low seven bits of a byte are the byte under the mask of R144. -/
theorem toNat_low7_eq_and (b : Byte) : (b.extractLsb' 0 7).toNat = b.toNat &&& 0x7F := calc
  (b.extractLsb' 0 7).toNat = b.toNat % 2 ^ 7 := BitVec.extractLsb'_toNat 0 7 b
  _ = b.toNat &&& 0x7F := (Nat.and_two_pow_sub_one_eq_mod b.toNat 7).symm

/-- The concatenation of the four fields is the document's expression of masks and shifts (R144). -/
theorem truncBinary_eq_or_shifts (dig : Bytes) (o : Nat) :
    truncBinary dig o =
      (((digestByte dig o).toNat &&& 0x7F) <<< 24) ||| ((digestByte dig (o + 1)).toNat <<< 16) |||
        ((digestByte dig (o + 2)).toNat <<< 8) ||| (digestByte dig (o + 3)).toNat := by
  simp only [truncBinary, BitVec.toNat_append, toNat_low7_eq_and, Nat.shiftLeft_or_distrib, ← Nat.shiftLeft_add]

/-! ### The rendering -/

/-- A digit's character is its ASCII code. -/
theorem digitChar_toNat (n : Nat) : (digitChar n).toNat = 0x30 + n % 10 := by
  rw [digitChar, BitVec.toNat_ofNat, Nat.mod_eq_of_lt (by omega)]

theorem digitChar_isDigit (n : Nat) : 0x30 ≤ (digitChar n).toNat ∧ (digitChar n).toNat ≤ 0x39 := by
  rw [digitChar_toNat]
  omega

theorem isDigit_of_mem_renderDigits {v d : Nat} {ch : Byte} (h : ch ∈ renderDigits v d) :
    0x30 ≤ ch.toNat ∧ ch.toNat ≤ 0x39 := by
  obtain ⟨j, _, rfl⟩ := List.mem_map.mp h
  exact digitChar_isDigit _

/-- The last character is the last decimal digit; those before it render the rest of the number. -/
theorem renderDigits_succ (v d : Nat) : renderDigits v (d + 1) = renderDigits (v / 10) d ++ [digitChar v] := by
  have hinit : ∀ j ∈ List.range d, digitChar (v / 10 ^ (d - j)) = digitChar (v / 10 / 10 ^ (d - 1 - j)) := by
    intro j hj
    have hpow : d - j = d - 1 - j + 1 := by have := List.mem_range.mp hj; omega
    rw [hpow, Nat.pow_succ', Nat.div_div_eq_div_mul]
  simp only [renderDigits, List.range_succ, List.map_append, List.map_cons, List.map_nil, Nat.add_sub_cancel,
    Nat.sub_self, Nat.pow_zero, Nat.div_one, List.map_congr_left hinit]

/-- A text read as a decimal number, most significant digit first. -/
def decimalValue (text : Bytes) : Nat := text.foldl (fun acc ch => 10 * acc + (ch.toNat - 0x30)) 0

theorem decimalValue_concat_digitChar (text : Bytes) (n : Nat) :
    decimalValue (text ++ [digitChar n]) = 10 * decimalValue text + n % 10 := by
  simp only [decimalValue, List.foldl_append, List.foldl_cons, List.foldl_nil, digitChar_toNat,
    Nat.add_sub_cancel_left]

/-- The rendering of any number at width `d` reads as its last `d` decimal digits. -/
theorem decimalValue_renderDigits (v d : Nat) : decimalValue (renderDigits v d) = v % 10 ^ d := by
  induction d generalizing v with
  | zero => exact (Nat.mod_one v).symm
  | succ d ih => rw [renderDigits_succ, decimalValue_concat_digitChar, ih, Nat.pow_succ', Nat.mod_mul, Nat.add_comm]

end Sys2Proof.Machine

open Sys2Proof Sys2Proof.Machine

/-- Settles O19: a non-empty digest is truncated by the range check at its offset, which is the masked last byte. -/
theorem truncationRangeCheck : Obligations.TruncationRangeCheck := by
  refine ⟨truncate_nil, fun dig last d => ?_⟩
  rw [truncate_concat, ← truncOffset_eq_and]
  split
  · rfl
  · exact ⟨_, _, rfl⟩

/-- Settles O20: the value of a truncation that succeeds is the slice at the offset, written with masks and shifts. -/
theorem truncationSlicesAndReduces : Obligations.TruncationSlicesAndReduces := by
  intro dig last d v r h
  obtain ⟨last', hlast, _, hv, _⟩ := truncate_ok.mp h
  obtain rfl : last = last' := Option.some.inj (List.getLast?_concat.symm.trans hlast)
  rw [truncBinary_eq_or_shifts, truncOffset_eq_and] at hv
  exact hv

/-- Settles O21: the rendering reads as the value modulo `10 ^ d`, which drops nothing from a value below `10 ^ d`. -/
theorem renderingIsZeroPaddedDecimal : Obligations.RenderingIsZeroPaddedDecimal := by
  intro v d hv
  exact ⟨renderDigits_length v d, fun _ hch => isDigit_of_mem_renderDigits hch,
    (decimalValue_renderDigits v d).trans (Nat.mod_eq_of_lt hv)⟩

end

section
/-! The time step as a floor, in RCTR's 64 bits, and the window search of TOTPVER up to its first match (44_totp.md
R180-R187). -/

namespace Sys2Proof.Machine

/-! ### The time step -/

/-- The time step is the greatest number of whole periods at or before the timestamp (R180). -/
theorem timeStep_floor (ts : Int) {p : Int} (hp : 0 < p) :
    1000 * p * timeStep ts p ≤ ts ∧ ts < 1000 * p * (timeStep ts p + 1) := by
  have hms : 0 < 1000 * p := by omega
  refine ⟨Int.mul_ediv_self_le (Int.ne_of_gt hms), ?_⟩
  rw [Int.mul_add, Int.mul_one]
  exact Int.lt_mul_ediv_self_add hms

/-- RCTR holds the step of every timestamp in full: dividing by a positive period does not leave 64 bits. -/
theorem toInt_ofInt_timeStep (ts : BitVec 64) {p : Int} (hp : 0 < p) :
    (BitVec.ofInt 64 (timeStep ts.toInt p)).toInt = timeStep ts.toInt p := by
  have hlo : -2 ^ 63 ≤ ts.toInt := BitVec.le_toInt ts
  have hhi : ts.toInt < 2 ^ 63 := BitVec.toInt_lt
  refine BitVec.toInt_ofInt_eq_self (by decide) ?_ ?_
  · exact (Int.le_ediv_iff_mul_le (by omega)).mpr (by omega)
  · exact Int.ediv_lt_of_lt_mul (by omega) (by omega)

theorem tstepResult_invalidPeriod {s : State} (h : s.period.toInt ≤ 0) :
    tstepResult s = .error (.err .invalidPeriod) :=
  bind_eq_error.mpr (.inl (checkPeriod_error.mpr ⟨h, rfl⟩))

/-! ### Verification -/

/-- DELTA holds every offset of the window in full: a window is a 32-bit radius, DELTA has 64 bits. -/
theorem toInt_ofInt_delta (w : Word) {δ : Int} (hlo : -(w.toNat : Int) ≤ δ) (hhi : δ ≤ w.toNat) :
    (BitVec.ofInt 64 δ).toInt = δ := by
  have hw : w.toNat < 2 ^ 32 := w.isLt
  exact BitVec.toInt_ofInt_eq_self (by decide) (by omega) (by omega)

theorem SecretReady.secretLen_ne_zero {s : State} {sec : Bytes} (h : SecretReady s sec) : s.secretLen ≠ 0 := by
  intro hzero
  have hlen : 0 = sec.length := (congrArg BitVec.toNat hzero).symm.trans h.len
  exact absurd hlen (Nat.ne_of_lt h.nonempty)

theorem hotpCode_text_length {hmac : Oracle} {a : Alg} {key : Bytes} {c d v : Nat} {r : Bytes}
    (h : hotpCode hmac a key c d = .ok (v, r)) : r.length = d := truncate_text_length h

/-- With its operands ready, TOTPVER evaluates to what the search of its window finds, and to the current step (R187). -/
theorem totpverResult_of_search {d : Nat} {a : Alg} {s : State} {hmac : Oracle} {sec tok : Bytes} {found : Option Int}
    (hsec : SecretReady s sec) (htok : TokenReady s tok) (hp : 0 < periodSeconds s) (hlo : 6 ≤ d) (hhi : d ≤ 10)
    (hfound : symmetricSearch (fun c => hotpCode hmac a (base32Decode sec) c d) tok d
      (timeStep (timestampMillis s) (periodSeconds s)) (2 * windowRadius s + 1) (-(windowRadius s : Int)) =
      .ok found) :
    totpverResult (algCode a) d s hmac =
      .ok { verify := some (verifyWrite found),
            rctr := some (BitVec.ofInt 64 (timeStep (timestampMillis s) (periodSeconds s))) } :=
  totpverResult_ok.mpr ⟨sec, tok, a, found, hsec.len ▸ hsec.fits, htok.len ▸ htok.fits, hp, hsec.secretLen_ne_zero,
    hlo, hhi, rfl, hsec.len, hsec.holds, htok.len, htok.holds, hfound, rfl⟩

/-- Searching a window of radius `w` finds the least offset whose candidate is a counter with the token as its code: the
offsets below it are skipped, being negative candidates or misses (R186). -/
theorem symmetricSearch_least {code : Nat → Except ErrKind (Nat × Bytes)} {tok : Bytes} {d w v : Nat}
    {current δ : Int} (hlo : -(w : Int) ≤ δ) (hhi : δ ≤ w) (hcand : 0 ≤ current + δ)
    (hmiss : ∀ ε : Int, -(w : Int) ≤ ε → ε < δ → 0 ≤ current + ε → Misses code tok (current + ε).toNat)
    (hcode : code (current + δ).toNat = .ok (v, tok)) (hlen : tok.length = d) :
    symmetricSearch code tok d current (2 * w + 1) (-(w : Int)) = .ok (some δ) := by
  obtain ⟨m, rfl⟩ : ∃ m : Nat, δ = -(w : Int) + m := ⟨(δ + w).toNat, by omega⟩
  rw [symmetricSearch_skip m (by omega) hmiss, show 2 * w + 1 - m = 2 * w - m + 1 by omega]
  exact symmetricSearch_hit hcand hcode hlen

end Sys2Proof.Machine

open Sys2Proof Sys2Proof.Machine

/-- Settles O33: the period check raises the error; a positive period gives the floor, which RCTR holds in full. -/
theorem tstepWritesTheFloor : Obligations.TstepWritesTheFloor := by
  refine ⟨rfl, fun alg digits s hb => ⟨fun hneg => ?_, fun hp => ?_⟩⟩
  · exact rejects_of_err hb (tstepResult_invalidPeriod hneg) rfl
  · have hres : commandResult (.tstep alg digits) s =
        .ok { rctr := some (BitVec.ofInt 64 (timeStep (timestampMillis s) (periodSeconds s))) } :=
      tstepResult_ok.mpr ⟨hp, rfl⟩
    have hrctr := toInt_ofInt_timeStep (s.tsHi ++ s.tsLo) hp
    obtain ⟨hle, hlt⟩ := timeStep_floor (s.tsHi ++ s.tsLo).toInt hp
    rw [← hrctr] at hle hlt
    exact ⟨_, exec_of_ok hb hres, issued_issuedFrom _ _ s, complete_issued_completedFrom_ok _ _ s, hle, hlt,
      ⟨rfl, rfl, rfl, rfl, rfl, rfl, rfl⟩, rfl⟩

/-- Settles O37: the search of the window ends at the least matching offset, which DELTA holds in full, as RCTR does the
current step. -/
theorem totpverReportsTheLeastDelta : Obligations.TotpverReportsTheLeastDelta := by
  intro digits a s sec tok δ v current hb hsec htok hp hdlo hdhi hlo hhi hcand hmiss hcode
  have hfound := symmetricSearch_least hlo hhi hcand hmiss hcode (hotpCode_text_length hcode)
  have hres : commandResult (.totpver (algCode a) digits) s = .ok _ :=
    totpverResult_of_search hsec htok hp hdlo hdhi hfound
  exact ⟨_, exec_of_ok hb hres, issued_issuedFrom _ _ s, complete_issued_completedFrom_ok _ _ s, rfl,
    toInt_ofInt_delta s.window hlo hhi, toInt_ofInt_timeStep (s.tsHi ++ s.tsLo) hp,
    ⟨rfl, rfl, rfl, rfl, rfl, rfl, rfl⟩, rfl⟩

end

section
/-! The completion of a command that raises an error (60_exceptions.md R213). -/

namespace Sys2Proof.Machine

/-- Once the delay of the command in flight has passed, the step is its completion (R44). -/
theorem step_of_inflight {s : State} {c : Word} {o : CmdOutcome} (hf : s.inflight = some (c, o)) (hd : s.delay = 0) :
    step s = .next (complete s) := by
  have hturn : sequencerTurn s = true := by simp [sequencerTurn, State.busy, hf, hd]
  exact if_pos hturn

/-- Completion with an error is error entry and the end of the command's life. -/
theorem complete_of_inflight_error {s : State} {c : Word} {k : ErrKind} (hf : s.inflight = some (c, .error k)) :
    complete s = { enterError k s with done := true, inflight := none, delay := 0 } := by
  simp only [complete, hf, applyOutcome]

end Sys2Proof.Machine

open Sys2Proof Sys2Proof.Machine

/-- Settles O9: the step is the completion, which is error entry and the end of the command's life; error entry writes
ERR alone. -/
theorem errorHasNoOtherEffect : Obligations.ErrorHasNoOtherEffect := by
  intro s c k hf hd
  have hstep : step s = .next { enterError k s with done := true, inflight := none, delay := 0 } :=
    (step_of_inflight hf hd).trans (congrArg _ (complete_of_inflight_error hf))
  have hoperands : OperandsKept s (enterError k s) := by constructor <;> rfl
  have hresults : ResultsKept s (enterError k s) := by constructor <;> rfl
  have hhost : HostSideKept s (enterError k s) := by constructor <;> rfl
  exact ⟨_, hstep, rfl, rfl, rfl, rfl, rfl, { hoperands with }, { hresults with }, rfl, { hhost with }⟩

end

section
/-! The state of reset as the host reads it (70_reset_and_hazards.md R230). -/

namespace Sys2Proof.Machine

/-- Each register at reset is a field, its zero extension, one half of it, or flags put together, and all of them are
0. -/
@[simp] theorem readReg_reset (r : Reg) : readReg r State.reset = 0 := by
  cases r <;> rfl

/-- Reset lists no cell, so every byte reads as its window does before any write. -/
@[simp] theorem memGet_reset (a : Nat) : memGet State.reset.mem a = unlisted a := rfl

/-- The windows of DOUT_MEM and CODE_MEM start as 0x00 (R20). -/
theorem unlisted_of_outputWindow {a : Nat} (hlo : 0x4000 ≤ a) (hhi : a < 0x6000) : unlisted a = some 0 :=
  if_pos ⟨hlo, hhi⟩

/-- Below them, the windows of SECRET_MEM, TOKEN_MEM and DIN_MEM start unwritten (R35). -/
theorem unlisted_of_below_outputWindow {a : Nat} (h : a < 0x4000) : unlisted a = none :=
  if_neg fun ⟨hlo, _⟩ => Nat.not_lt.mpr hlo h

end Sys2Proof.Machine

open Sys2Proof Sys2Proof.Machine

/-- Settles O47: every register reads 0, and with no cell listed a byte reads as its window says. -/
theorem resetLeavesEverythingZero : Obligations.ResetLeavesEverythingZero := by
  have houtput (a : Nat) (hlo : 0x4000 ≤ a) (hhi : a < 0x6000) : memGet State.reset.mem a = some 0 :=
    (memGet_reset a).trans (unlisted_of_outputWindow hlo hhi)
  have hinput (a : Nat) (_ : 0x1000 ≤ a) (hhi : a < 0x4000) : memGet State.reset.mem a = none :=
    (memGet_reset a).trans (unlisted_of_below_outputWindow hhi)
  exact ⟨readReg_reset, rfl, houtput, hinput⟩

end

section
/-! The command word: its fields taken apart and put together, the opcode map, and the step that runs a written word
(30_encoding.md R71-R76, R80). -/

namespace Sys2Proof.Machine

/-! ### Fields -/

/-- The fields of an assembled word are what it was assembled from. -/
theorem fields_of_append (rsv1 digits : BitVec 8) (rsv0 alg : BitVec 4) (op : BitVec 8) :
    (rsv1 ++ digits ++ rsv0 ++ alg ++ op).extractLsb' 24 8 = rsv1 ∧
    (rsv1 ++ digits ++ rsv0 ++ alg ++ op).extractLsb' 16 8 = digits ∧
    (rsv1 ++ digits ++ rsv0 ++ alg ++ op).extractLsb' 12 4 = rsv0 ∧
    (rsv1 ++ digits ++ rsv0 ++ alg ++ op).extractLsb' 8 4 = alg ∧
    (rsv1 ++ digits ++ rsv0 ++ alg ++ op).extractLsb' 0 8 = op := by
  refine ⟨?_, ?_, ?_, BitVec.extractLsb'_append_eq_of_le (by decide) |>.trans BitVec.extractLsb'_append_eq_right,
    BitVec.extractLsb'_append_eq_right⟩ <;>
  simp only [BitVec.extractLsb'_append_eq_of_le, Nat.reduceLeDiff, Nat.reduceSub, BitVec.extractLsb'_append_eq_right,
    BitVec.extractLsb'_eq_self]

@[simp] theorem fieldRsv_encode (i : Instr) : fieldRsv (encode i) = 0 :=
  have ⟨hrsv1, _, hrsv0, _, _⟩ := fields_of_append 0 (BitVec.ofNat 8 i.digits) 0 (BitVec.ofNat 4 i.alg)
    (BitVec.ofNat 8 (opOf i))
  fieldRsv_eq_zero_iff.mpr ⟨hrsv1, hrsv0⟩

@[simp] theorem fieldOp_encode (i : Instr) : fieldOp (encode i) = opOf i := by
  obtain ⟨_, _, _, _, hop⟩ := fields_of_append 0 (BitVec.ofNat 8 i.digits) 0 (BitVec.ofNat 4 i.alg)
    (BitVec.ofNat 8 (opOf i))
  rw [fieldOp, encode, hop]
  cases i <;> rfl

theorem fieldAlg_encode {i : Instr} (h : i.algFits) : fieldAlg (encode i) = i.alg := by
  obtain ⟨_, _, _, halg, _⟩ := fields_of_append 0 (BitVec.ofNat 8 i.digits) 0 (BitVec.ofNat 4 i.alg)
    (BitVec.ofNat 8 (opOf i))
  rw [fieldAlg, encode, halg, BitVec.toNat_ofNat, Nat.mod_eq_of_lt h]

theorem fieldDigits_encode {i : Instr} (h : i.digitsFits) : fieldDigits (encode i) = i.digits := by
  obtain ⟨_, hdigits, _⟩ := fields_of_append 0 (BitVec.ofNat 8 i.digits) 0 (BitVec.ofNat 4 i.alg)
    (BitVec.ofNat 8 (opOf i))
  rw [fieldDigits, encode, hdigits, BitVec.toNat_ofNat, Nat.mod_eq_of_lt h]

/-! ### The opcode map -/

theorem instrOfOp_opOf (i : Instr) : instrOfOp (opOf i) i.alg i.digits = some i := by
  cases i <;> rfl

theorem instrOfOp_eq_some_iff {op alg digits : Nat} {i : Instr} :
    instrOfOp op alg digits = some i ↔ opOf i = op ∧ i.alg = alg ∧ i.digits = digits := by
  refine ⟨instrOfOp_some, ?_⟩
  rintro ⟨rfl, rfl, rfl⟩
  exact instrOfOp_opOf i

/-- Decoding checks the reserved bits, and then reads the three fields. -/
theorem decode_eq_ok_iff {c : Word} {i : Instr} :
    decode c = .ok i ↔ fieldRsv c = 0 ∧ opOf i = fieldOp c ∧ i.alg = fieldAlg c ∧ i.digits = fieldDigits c := by
  rw [← instrOfOp_eq_some_iff]
  unfold decode
  split
  · rename_i hrsv
    exact ⟨nofun, fun ⟨h, _⟩ => absurd h hrsv⟩
  · rename_i hrsv
    split
    · rename_i hi
      simp only [Except.ok.injEq, hi, Option.some.injEq, Decidable.not_not.mp hrsv, true_and]
    · rename_i hn
      exact ⟨nofun, fun ⟨_, h⟩ => nomatch hn.symm.trans h⟩

theorem wellFormed_of_decode {c : Word} {i : Instr} (h : decode c = .ok i) : i.WellFormed := by
  obtain ⟨_, _, halg, hdigits⟩ := decode_eq_ok_iff.mp h
  exact ⟨lt_of_eq_of_lt halg (c.extractLsb' 8 4).isLt, lt_of_eq_of_lt hdigits (c.extractLsb' 16 8).isLt⟩

theorem decode_encode {i : Instr} (h : i.WellFormed) : decode (encode i) = .ok i :=
  decode_eq_ok_iff.mpr ⟨fieldRsv_encode i, (fieldOp_encode i).symm, (fieldAlg_encode h.1).symm,
    (fieldDigits_encode h.2).symm⟩

/-- The word of a row of the opcode map: OP alone, every other bit 0 (R73). -/
def opWord (op : BitVec 8) : Word := (0 : BitVec 8) ++ (0 : BitVec 8) ++ (0 : BitVec 4) ++ (0 : BitVec 4) ++ op

/-- The mask keeps the reserved bits and OP, and clears the operand fields. -/
theorem and_opcodeMask (c : Word) :
    c &&& opcodeMask =
      c.extractLsb' 24 8 ++ (0 : BitVec 8) ++ c.extractLsb' 12 4 ++ (0 : BitVec 4) ++ c.extractLsb' 0 8 := by
  have hfields : (c.extractLsb' 24 8 ++ c.extractLsb' 16 8 ++ c.extractLsb' 12 4 ++ c.extractLsb' 8 4 ++
        c.extractLsb' 0 8) &&&
      (BitVec.allOnes 8 ++ (0 : BitVec 8) ++ BitVec.allOnes 4 ++ (0 : BitVec 4) ++ BitVec.allOnes 8) =
      c.extractLsb' 24 8 ++ (0 : BitVec 8) ++ c.extractLsb' 12 4 ++ (0 : BitVec 4) ++ c.extractLsb' 0 8 := by
    simp only [BitVec.and_append, BitVec.and_allOnes, BitVec.ofNat_eq_ofNat, BitVec.and_zero]
  exact (congrArg (· &&& opcodeMask) (word_eq_fields c)).symm.trans hfields

/-- A word is a row's word under the mask exactly when its reserved bits are 0 and it has the row's OP. -/
theorem and_opcodeMask_eq_opWord_iff {c : Word} {op : BitVec 8} :
    c &&& opcodeMask = opWord op ↔ fieldRsv c = 0 ∧ c.extractLsb' 0 8 = op := by
  rw [and_opcodeMask, fieldRsv_eq_zero_iff]
  constructor
  · intro h
    have field (start len : Nat) := congrArg (BitVec.extractLsb' start len) h
    obtain ⟨h24, _, h12, _, h0⟩ := fields_of_append (c.extractLsb' 24 8) 0 (c.extractLsb' 12 4) 0 (c.extractLsb' 0 8)
    obtain ⟨z24, _, z12, _, z0⟩ := fields_of_append 0 0 0 0 op
    exact ⟨⟨h24.symm.trans ((field 24 8).trans z24), h12.symm.trans ((field 12 4).trans z12)⟩,
      h0.symm.trans ((field 0 8).trans z0)⟩
  · rintro ⟨⟨h24, h12⟩, h0⟩
    rw [h24, h12, h0]
    rfl

/-- The rows of the opcode map (R73): the word of each operation, and the operation. -/
def opcodeRows : List (Word × (Nat → Nat → Instr)) :=
  [(0x01, Instr.b32enc), (0x02, Instr.b32dec), (0x03, Instr.trunc), (0x10, Instr.hotpgen), (0x11, Instr.hotpver),
    (0x20, Instr.totpgen), (0x21, Instr.totpver), (0x22, Instr.tstep), (0x23, Instr.trem)]

/-- A row builds commands with its own OP and the operands it is given. -/
theorem opcodeRows_spec {row : Word × (Nat → Nat → Instr)} (h : row ∈ opcodeRows) (alg digits : Nat) :
    row.1 = opWord (BitVec.ofNat 8 (opOf (row.2 alg digits))) ∧ (row.2 alg digits).alg = alg ∧
      (row.2 alg digits).digits = digits := by
  simp only [opcodeRows, List.mem_cons, List.not_mem_nil, or_false] at h
  rcases h with rfl | rfl | rfl | rfl | rfl | rfl | rfl | rfl | rfl <;> exact ⟨by simp only [opOf]; decide, rfl, rfl⟩

/-- Every command has its row. -/
theorem exists_opcodeRow (i : Instr) : ∃ row ∈ opcodeRows, i = row.2 i.alg i.digits := by
  cases i <;> simp [opcodeRows, Instr.alg, Instr.digits]

theorem opOf_lt (i : Instr) : opOf i < 256 := by cases i <;> simp [opOf]

theorem fieldOp_eq_opOf_iff {c : Word} {i : Instr} :
    c.extractLsb' 0 8 = BitVec.ofNat 8 (opOf i) ↔ opOf i = fieldOp c := by
  rw [← BitVec.toNat_inj, BitVec.toNat_ofNat, Nat.mod_eq_of_lt (opOf_lt i)]
  exact eq_comm

theorem fieldAlg_eq (c : Word) : fieldAlg c = c.toNat / 2 ^ 8 % 16 := by
  rw [fieldAlg, BitVec.extractLsb'_toNat, Nat.shiftRight_eq_div_pow]

theorem fieldDigits_eq (c : Word) : fieldDigits c = c.toNat / 2 ^ 16 % 256 := by
  rw [fieldDigits, BitVec.extractLsb'_toNat, Nat.shiftRight_eq_div_pow]

/-! ### The step that runs a word -/

/-- A write of a legal word to CMD of an idle block is the decoded command's meaning. -/
theorem hostWrite_cmd_of_decode {c : Word} {i : Instr} {s : State} (hb : s.busy = false) (hc : decode c = .ok i) :
    hostWrite 0 .word c s = exec i s := calc
  hostWrite 0 .word c s = writeCmd c s := hostWrite_cmd (busTarget_reg s.cfg .cmd) hb
  _ = exec i s := by rw [writeCmd, hc]

theorem step_writes_command {c : Word} {i : Instr} {s : State} {rest : List HostOp} (hb : s.busy = false)
    (hh : s.host = .write 0 .word c :: rest) (hc : decode c = .ok i) : step s = exec i { s with host := rest } :=
  (step_of_idle hb hh).trans (hostWrite_cmd_of_decode hb hc)

theorem decodeTableWord_eq_some_iff {nbits w : Nat} {i : Instr} :
    decodeTableWord nbits w = some i ↔ decode (BitVec.ofNat 32 (w % 2 ^ nbits)) = .ok i := by
  unfold decodeTableWord
  split <;> simp_all

end Sys2Proof.Machine

open Sys2Proof Sys2Proof.Machine

/-- Settles O1: the fields of an encoding are the command's own, so decoding selects it back; a word that decodes is its
five fields, of which encoding makes it again. -/
theorem encodedCommandDecodesBack : Obligations.EncodedCommandDecodesBack :=
  ⟨fun _ hwf => decode_encode hwf, fun _ _ h => ⟨wellFormed_of_decode h, encode_of_decode h⟩⟩

/-- Settles O2: matching a row under the mask says that the reserved bits are 0 and OP is the row's; decoding asks the
same, and reads the same operand fields. -/
theorem decodingFollowsTheOpcodeMap : Obligations.DecodingFollowsTheOpcodeMap := by
  intro c i
  rw [decode_eq_ok_iff, ← fieldAlg_eq, ← fieldDigits_eq, ← fieldOp_eq_opOf_iff, ← and_assoc,
    ← and_opcodeMask_eq_opWord_iff]
  constructor
  · rintro ⟨hop, halg, hdigits⟩
    obtain ⟨row, hrow, hi⟩ := exists_opcodeRow i
    obtain ⟨hword, _⟩ := opcodeRows_spec hrow i.alg i.digits
    rw [← hi, ← hop] at hword
    rw [halg, hdigits] at hi
    exact ⟨row, hrow, hword.symm, hi⟩
  · rintro ⟨row, hrow, hword, rfl⟩
    obtain ⟨hop, halg, hdigits⟩ := opcodeRows_spec hrow (fieldAlg c) (fieldDigits c)
    exact ⟨hword.trans hop, halg, hdigits⟩

/-- Settles O3: each word is decoded by evaluation. -/
theorem workedWordsDecode : Obligations.WorkedWordsDecode := by
  unfold Obligations.WorkedWordsDecode
  simp only [decode_eq_ok_iff]
  decide

/-- Settles O5: an idle block's step is the host's write to CMD, and a step at the sequencer's turn is the completion. -/
theorem stepRunsTheWrittenCommand : Obligations.StepRunsTheWrittenCommand :=
  ⟨fun _ _ _ _ hb hh hc => step_writes_command hb hh hc, fun _ _ _ hf hd => step_of_inflight hf hd⟩

/-- Settles O6: placing a word leaves the block idle with that write first in the host's list. -/
theorem placedCommandRunsNext : Obligations.PlacedCommandRunsNext := by
  intro s w i hdec
  exact step_writes_command (s := s.withFetchWord 32 w) rfl rfl (decodeTableWord_eq_some_iff.mp hdec)

end

section
/-! Base32 decoding: the characters it keeps, the bytes they give, and B32DEC (40_base32.md R103-R107). -/

namespace Sys2Proof.Machine

/-! ### The characters that count -/

/-- Whether a byte is one of the alphabet's 32 characters (R100). -/
def inAlphabet (ch : Byte) : Bool :=
  (0x41 ≤ ch.toNat && ch.toNat ≤ 0x5A) || (0x32 ≤ ch.toNat && ch.toNat ≤ 0x37)

theorem charValue_isSome (ch : Byte) : (charValue ch).isSome = inAlphabet ch := by
  unfold charValue inAlphabet
  split
  · simp_all
  · split <;> simp_all

/-- The alphabet has no lower-case letter, so case folding leaves its characters alone. -/
theorem foldCase_of_inAlphabet {ch : Byte} (h : inAlphabet ch = true) : foldCase ch = ch := by
  refine if_neg fun ⟨hlo, _⟩ => ?_
  simp only [inAlphabet, Bool.or_eq_true, Bool.and_eq_true, decide_eq_true_eq] at h
  omega

theorem keptChars_eq (s : Bytes) : keptChars s = (s.map foldCase).filter inAlphabet := rfl

theorem inAlphabet_of_mem_keptChars {s : Bytes} {ch : Byte} (h : ch ∈ keptChars s) : inAlphabet ch = true :=
  (List.mem_filter.mp h).2

/-- The values that decoding reads are those of the kept characters. -/
theorem base32Values_eq_filterMap_keptChars (s : Bytes) : base32Values s = (keptChars s).filterMap charValue := by
  have hkept : charValue = fun ch => if inAlphabet ch then charValue ch else none := by
    funext ch
    rw [← charValue_isSome]
    cases charValue ch <;> rfl
  calc base32Values s = (s.map foldCase).filterMap charValue := by rw [List.filterMap_map]; rfl
    _ = (s.map foldCase).filterMap (fun ch => if inAlphabet ch then charValue ch else none) := by rw [← hkept]
    _ = (keptChars s).filterMap charValue := by rw [keptChars_eq, List.filterMap_filter]

/-- Keeping characters a second time changes nothing. -/
theorem keptChars_keptChars (s : Bytes) : keptChars (keptChars s) = keptChars s := by
  have hfold : (keptChars s).map foldCase = keptChars s :=
    (List.map_congr_left fun _ hch => foldCase_of_inAlphabet (inAlphabet_of_mem_keptChars hch)).trans
      (List.map_id' _)
  rw [keptChars_eq (keptChars s), hfold]
  exact List.filter_eq_self.mpr fun _ => inAlphabet_of_mem_keptChars

theorem base32Decode_keptChars (s : Bytes) : base32Decode (keptChars s) = base32Decode s := by
  rw [base32Decode, base32Decode, base32Values_eq_filterMap_keptChars, keptChars_keptChars,
    ← base32Values_eq_filterMap_keptChars]

/-- Every kept character has a value. -/
theorem length_base32Values (s : Bytes) : (base32Values s).length = (keptChars s).length := by
  rw [base32Values_eq_filterMap_keptChars, List.length_filterMap_eq_countP, List.countP_eq_length]
  intro ch hch
  rw [charValue_isSome]
  exact inAlphabet_of_mem_keptChars hch

/-! ### The length of a decoding -/

/-- Unpacking makes one byte of each eight bits and drops the rest. -/
theorem length_groups8 (l : List Bool) : (groups8 l).length = l.length / 8 := by
  induction l using groups8.induct with
  | case1 a b c d e f g h rest ih =>
    simp only [groups8, List.length_cons, ih]
    omega
  | case2 l hl =>
    have hshort : l.length < 8 := by
      rcases l with _ | ⟨_, _ | ⟨_, _ | ⟨_, _ | ⟨_, _ | ⟨_, _ | ⟨_, _ | ⟨_, _ | ⟨_, _⟩⟩⟩⟩⟩⟩⟩⟩
      any_goals simp only [List.length_cons, List.length_nil, Nat.reduceAdd, Nat.reduceLT]
      exact (hl _ _ _ _ _ _ _ _ _ rfl).elim
    rw [groups8_of_length_lt hshort, Nat.div_eq_of_lt hshort, List.length_nil]

theorem length_base32Decode (s : Bytes) : (base32Decode s).length = 5 * (keptChars s).length / 8 := by
  rw [base32Decode, length_groups8, length_bitString, length_base32Values]

theorem length_keptChars_le (s : Bytes) : (keptChars s).length ≤ s.length :=
  Nat.le_trans (List.length_filter_le _ _) (Nat.le_of_eq (List.length_map _))

/-- The decoding of an input that fits DIN_MEM fits DOUT_MEM. -/
theorem length_base32Decode_le_doutMax {p : Params} {s : Bytes} (h : s.length ≤ p.dinMax) :
    (base32Decode s).length ≤ doutMax p := by
  have hkept := length_keptChars_le s
  rw [length_base32Decode, doutMax]
  omega

theorem b32decResult_lengthOutOfRange {s : State} (h : s.cfg.dinMax < s.dinLen.toNat) :
    b32decResult s = .error (.err .lengthOutOfRange) :=
  bind_eq_error.mpr (.inl (checkLength_error.mpr ⟨h, rfl⟩))

end Sys2Proof.Machine

open Sys2Proof Sys2Proof.Machine

/-- Settles O16: decoding reads the values of the kept characters, five bits each, and keeping them again drops none. -/
theorem decodingSkipsOtherCharacters : Obligations.DecodingSkipsOtherCharacters :=
  fun s => ⟨(base32Decode_keptChars s).symm, length_base32Decode s⟩

/-- Settles O17: the text is decoded and encoded again by evaluation. -/
theorem reverseCodecLawFails : Obligations.ReverseCodecLawFails :=
  ⟨_, rfl, by decide, by decide⟩

/-- Settles O13: the length check raises the error; a ready input evaluates to its decoding, which fits DOUT_MEM; the
listed texts are decoded by evaluation. -/
theorem b32decDecodesDin : Obligations.B32decDecodesDin := by
  refine ⟨rfl, by decide, by decide, by decide, by decide, by decide, by decide, by decide, by decide,
    fun alg digits s hb hlegal => ⟨fun hlong => ?_, fun inp hin => ?_⟩⟩
  · exact rejects_of_err hb (b32decResult_lengthOutOfRange hlong) rfl
  · obtain ⟨hlen, hfits, hholds⟩ := hin
    have hres : b32decResult s = .ok { dout := some (base32Decode inp) } :=
      b32decResult_ok.mpr ⟨inp, hlen ▸ hfits, hlen, hholds, rfl⟩
    obtain ⟨t, hexec, hissued, hdone, hcount, hout, hresults, hmem⟩ :=
      exec_dout (i := .b32dec alg digits) hb hlegal hres (length_base32Decode_le_doutMax hfits)
    exact ⟨t, hexec, hissued, hdone, hcount, hcount.trans (length_base32Decode inp), hout, hresults, hmem⟩

end

section
/-! Dynamic truncation: which digests are long enough, the range of a code, codes of different widths, and the commands
that write a code (42_truncation.md R141-R152). -/

namespace Sys2Proof.Machine

/-! ### Digests that are long enough -/

theorem truncOffset_lt (last : Byte) : truncOffset last < 16 := Nat.mod_lt _ (by decide)

theorem truncate_concat_of_le {dig : Bytes} {last : Byte} (h : truncOffset last + 4 ≤ dig.length + 1) (d : Nat) :
    ∃ v r, truncate (dig ++ [last]) d = .ok (v, r) := by
  rw [truncate_concat, List.length_append, List.length_singleton, if_neg (by omega)]
  exact ⟨_, _, rfl⟩

theorem truncate_concat_of_lt {dig : Bytes} {last : Byte} (h : dig.length + 1 < truncOffset last + 4) (d : Nat) :
    truncate (dig ++ [last]) d = .error .truncationOutOfRange := by
  rw [truncate_concat, List.length_append, List.length_singleton, if_pos h]

/-- The offset is at most 15, so twenty bytes always reach the last of the four (R143). -/
theorem truncate_of_length {dig : Bytes} (h : 19 < dig.length) (d : Nat) : ∃ v r, truncate dig d = .ok (v, r) := by
  obtain rfl | ⟨init, last, rfl⟩ := List.eq_nil_or_concat dig
  · simp at h
  · have hoff := truncOffset_lt last
    rw [List.length_concat] at h
    rw [List.concat_eq_append]
    exact truncate_concat_of_le (by omega) d

/-- The slice depends on the four bytes at the offset only. -/
theorem truncBinary_congr {dig dig' : Bytes} {o : Nat}
    (h : ∀ j, j < 4 → dig.getD (o + j) 0 = dig'.getD (o + j) 0) : truncBinary dig o = truncBinary dig' o := by
  have hbyte (j : Nat) (hj : j < 4) : digestByte dig (o + j) = digestByte dig' (o + j) := h j hj
  rw [truncBinary, truncBinary, hbyte 1 (by decide), hbyte 2 (by decide), hbyte 3 (by decide)]
  rw [show digestByte dig o = digestByte dig' o from hbyte 0 (by decide)]

/-- Truncation depends on the length, the last byte and the four bytes at its offset only. -/
theorem truncate_concat_congr {dig dig' : Bytes} {last : Byte} (hlen : dig.length = dig'.length)
    (h : ∀ j, j < 4 → (dig ++ [last]).getD (truncOffset last + j) 0 = (dig' ++ [last]).getD (truncOffset last + j) 0)
    (d : Nat) : truncate (dig ++ [last]) d = truncate (dig' ++ [last]) d := by
  rw [truncate_concat, truncate_concat, truncBinary_congr h, List.length_append, List.length_append, hlen]

theorem digestLength_ge (a : Alg) : 20 ≤ a.digestLength := by cases a <;> decide

/-! ### The range of a code -/

/-- The slice has 31 bits (R144). -/
theorem truncBinary_lt (dig : Bytes) (o : Nat) : truncBinary dig o < 2 ^ 31 :=
  BitVec.isLt (w := 7 + 8 + 8 + 8) _

theorem truncate_lt {dig : Bytes} {d v : Nat} {r : Bytes} (h : truncate dig d = .ok (v, r)) :
    v < 2 ^ 31 ∧ v < 10 ^ d := by
  obtain ⟨last, _, _, rfl, _⟩ := truncate_ok.mp h
  exact ⟨Nat.lt_of_le_of_lt (Nat.mod_le _ _) (truncBinary_lt _ _), Nat.mod_lt _ (Nat.pow_pos (by decide))⟩

theorem truncate_text {dig : Bytes} {d v : Nat} {r : Bytes} (h : truncate dig d = .ok (v, r)) :
    r = renderDigits v d := by
  obtain ⟨_, _, _, _, hr⟩ := truncate_ok.mp h
  exact hr

/-- The first character of a rendering is its leading digit. -/
theorem renderDigits_head (v d : Nat) : (renderDigits v (d + 1)).getD 0 0 = digitChar (v / 10 ^ d) := by
  simp [renderDigits]

/-- A 31-bit number has at most ten digits, and the tenth is 0, 1 or 2. -/
theorem digitChar_tenth {v : Nat} (h : v < 2 ^ 31) :
    digitChar (v / 10 ^ 9) = 0x30 ∨ digitChar (v / 10 ^ 9) = 0x31 ∨ digitChar (v / 10 ^ 9) = 0x32 := by
  obtain h0 | h1 | h2 : v / 10 ^ 9 = 0 ∨ v / 10 ^ 9 = 1 ∨ v / 10 ^ 9 = 2 := by omega
  · exact .inl (h0 ▸ rfl)
  · exact .inr (.inl (h1 ▸ rfl))
  · exact .inr (.inr (h2 ▸ rfl))

/-! ### Codes of different widths -/

theorem digitChar_mod (v k : Nat) : digitChar (v % 10 ^ (k + 1)) = digitChar v := by
  rw [digitChar, digitChar, Nat.mod_mod_of_dvd v (show 10 ∣ 10 ^ (k + 1) from Nat.dvd_mul_left 10 (10 ^ k))]

/-- Digits beyond the width do not show in a rendering. -/
theorem renderDigits_mod (v d : Nat) : renderDigits (v % 10 ^ d) d = renderDigits v d := by
  induction d generalizing v with
  | zero => rfl
  | succ d ih =>
    have hinit : v % 10 ^ (d + 1) / 10 = v / 10 % 10 ^ d := by
      rw [Nat.pow_succ', Nat.mod_mul_right_div_self]
    rw [renderDigits_succ, renderDigits_succ, digitChar_mod, hinit, ih]

/-- A wider rendering ends in the narrower one. -/
theorem renderDigits_add (v k d : Nat) : renderDigits v (k + d) = renderDigits (v / 10 ^ d) k ++ renderDigits v d := by
  induction d generalizing v with
  | zero => simp [renderDigits]
  | succ d ih =>
    rw [← Nat.add_assoc, renderDigits_succ, renderDigits_succ v d, ih, Nat.div_div_eq_div_mul, ← Nat.pow_succ',
      List.append_assoc]

/-! ### A command that writes a code -/

section
variable {c : Word} {s t : State} {d v : Nat} {r dig : Bytes} {step : Option (BitVec 64)}

/-- The code results after a command with a code in flight has completed (R30). -/
theorem complete_codeWrite (hd : d ≤ 10) (hcode : truncate dig d = .ok (v, r))
    (ht : t = issued c (.ok { code := some (codeWrite d v r), rctr := step }) s) :
    (complete t).codeVal.toNat = v ∧ (complete t).codeLen.toNat = d ∧ OutputHolds (complete t) .code 12 r ∧
      MemKeptOutside .code s (complete t) := by
  subst ht
  obtain ⟨hv, _⟩ := truncate_lt hcode
  have hlen : r.length ≤ 12 := truncate_text_length hcode ▸ Nat.le_trans hd (by decide)
  exact ⟨Nat.mod_eq_of_lt (Nat.lt_trans hv (by decide)), Nat.mod_eq_of_lt (Nat.lt_of_le_of_lt hd (by decide)),
    outputHolds_of_writeOutput rfl rfl (show 12 ≤ 0x1000 by decide) hlen, memKeptOutside_of_writeOutput rfl hlen⟩

/-- A command whose evaluation gives a code, and nothing else, completes with exactly that. -/
theorem exec_code {i : Instr} (hb : s.busy = false)
    (hres : commandResult i s = .ok { code := some (codeWrite d v r) }) (hd : d ≤ 10)
    (hcode : truncate dig d = .ok (v, r)) :
    ∃ t, exec i s = .next t ∧ IssuedFrom (encode i) s t ∧ CompletedFrom (encode i) 0 s (complete t) ∧
      (complete t).codeVal.toNat = v ∧ (complete t).codeLen.toNat = d ∧ OutputHolds (complete t) .code 12 r ∧
      ResultsKept s { complete t with codeVal := s.codeVal, codeLen := s.codeLen } ∧
      MemKeptOutside .code s (complete t) := by
  obtain ⟨hval, hlen, hout, hmem⟩ := complete_codeWrite (c := encode i) (s := s) hd hcode rfl
  exact ⟨_, exec_of_ok hb hres, issued_issuedFrom _ _ s, complete_issued_completedFrom_ok _ _ s, hval, hlen, hout,
    ⟨rfl, rfl, rfl, rfl, rfl, rfl, rfl⟩, hmem⟩

end

/-- TRUNC's errors in the order of its checks (R148). -/
theorem truncResult_error {d : Nat} {s : State} {e : Stop} :
    truncResult d s = .error e ↔
      s.cfg.dinMax < s.dinLen.toNat ∧ e = .err .lengthOutOfRange ∨ s.dinLen.toNat ≤ s.cfg.dinMax ∧
      ((d < 6 ∨ d > 10) ∧ e = .err .invalidDigits ∨ (6 ≤ d ∧ d ≤ 10) ∧
      (dinOperand s = .error e ∨ ∃ inp, dinOperand s = .ok inp ∧ ∃ k, truncate inp d = .error k ∧ e = .err k)) := by
  simp only [truncResult, bind_eq_error, checkLength_error, checkLength_ok, checkDigits_error, checkDigits_ok,
    exists_const, liftErr_error, bufCap, pure, Except.pure, reduceCtorEq, and_false, or_false]

end Sys2Proof.Machine

open Sys2Proof Sys2Proof.Machine

/-- Settles O22: a code is a 31-bit slice reduced modulo `10 ^ d`, so its tenth digit is 0, 1 or 2. -/
theorem codesStayInRange : Obligations.CodesStayInRange := by
  intro dig d v r h
  obtain ⟨hbits, hwidth⟩ := truncate_lt h
  obtain rfl := truncate_text h
  refine ⟨hbits, hwidth, rfl, ?_⟩
  rintro rfl
  rw [renderDigits_head]
  exact digitChar_tenth hbits

/-- Settles O23: both codes reduce one slice, and the wider rendering ends in the narrower one. -/
theorem narrowerCodesAreSuffixes : Obligations.NarrowerCodesAreSuffixes := by
  intro dig d d' v v' r r' hle h h'
  obtain ⟨last, hlast, _, hv, rfl⟩ := truncate_ok.mp h
  obtain ⟨last', hlast', _, hv', rfl⟩ := truncate_ok.mp h'
  obtain rfl : last = last' := Option.some.inj (hlast.symm.trans hlast')
  obtain ⟨k, rfl⟩ := Nat.exists_eq_add_of_le' hle
  have hmod : v = v' % 10 ^ d := by rw [hv, hv', Nat.mod_mod_of_dvd _ (Nat.pow_dvd_pow 10 hle)]
  refine ⟨hmod, ?_⟩
  rw [renderDigits_add, Nat.add_sub_cancel, List.drop_left' (renderDigits_length _ k), hmod, renderDigits_mod]

/-- Settles O18: the corner cases are the range check at the offset; the command's errors follow its checks, and a code
in range is what it writes. -/
theorem truncWritesTheCode : Obligations.TruncWritesTheCode := by
  refine ⟨rfl, fun b0 b1 b2 b3 d => ⟨fun h => ?_, fun h => ?_⟩, fun dig d h => truncate_of_length h d,
    fun dig dig' last d hlen h => truncate_concat_congr hlen h d, rfl, fun alg digits s hb => ⟨fun hlong => ?_,
      fun hfits hdigits => ?_, fun dig hin hlo hhi => ⟨fun k hk => ?_, fun v r hvr => ?_⟩⟩⟩
  · exact truncate_concat_of_le (dig := [b0, b1, b2]) (by simp [truncOffset, h]) d
  · exact truncate_concat_of_lt (dig := [b0, b1, b2]) (by simp [truncOffset, h]) d
  · exact rejects_of_err hb (truncResult_error.mpr (.inl ⟨hlong, rfl⟩)) rfl
  · exact rejects_of_err hb (truncResult_error.mpr (.inr ⟨hfits, .inl ⟨hdigits, rfl⟩⟩)) rfl
  · obtain ⟨hlen, hfits, hholds⟩ := hin
    obtain rfl := truncate_error hk
    exact rejects_of_err hb (truncResult_error.mpr (.inr ⟨hlen ▸ hfits, .inr ⟨⟨hlo, hhi⟩, .inr ⟨dig,
      dinOperand_ok.mpr ⟨hlen, hholds⟩, _, hk, rfl⟩⟩⟩)) rfl
  · obtain ⟨hlen, hfits, hholds⟩ := hin
    exact exec_code hb (truncResult_ok.mpr ⟨dig, v, r, hlen ▸ hfits, hlo, hhi, hlen, hholds, hvr, rfl⟩) hhi hvr

end

section
/-! The counter message and operand, the forward window search, and the commands HOTPGEN and HOTPVER (41_hmac_interface.md
R123, 43_hotp.md R160-R171). -/

namespace Sys2Proof.Machine

/-! ### The counter -/

theorem length_counterBytes (c : Nat) : (counterBytes c).length = 8 := by simp [counterBytes]

theorem counterBytes_getD (c : Nat) {j : Nat} (hj : j < 8) :
    ((counterBytes c).getD j 0).toNat = c / 2 ^ (56 - 8 * j) % 256 := by
  have hget : (counterBytes c).getD j 0 = BitVec.ofNat 8 (c >>> (8 * (7 - j))) := by
    simp [counterBytes, hj]
  rw [hget, BitVec.toNat_ofNat, Nat.shiftRight_eq_div_pow, show 8 * (7 - j) = 56 - 8 * j by omega]

/-- A byte sequence read as a number, most significant byte first. -/
def bigEndianValue (bs : Bytes) : Nat := bs.foldl (fun acc b => 256 * acc + b.toNat) 0

/-- Eight bytes hold a 64-bit counter in full. -/
theorem bigEndianValue_counterBytes {c : Nat} (h : c < 2 ^ 64) : bigEndianValue (counterBytes c) = c := by
  have hbytes : counterBytes c = [BitVec.ofNat 8 (c >>> 56), BitVec.ofNat 8 (c >>> 48), BitVec.ofNat 8 (c >>> 40),
      BitVec.ofNat 8 (c >>> 32), BitVec.ofNat 8 (c >>> 24), BitVec.ofNat 8 (c >>> 16), BitVec.ofNat 8 (c >>> 8),
      BitVec.ofNat 8 (c >>> 0)] := rfl
  simp only [hbytes, bigEndianValue, List.foldl_cons, List.foldl_nil, BitVec.toNat_ofNat, Nat.shiftRight_eq_div_pow]
  omega

/-- CTR without its sign bit: bits 63:0 of the counter operand (R23). -/
def counterBits (s : State) : Nat := (s.ctrHi ++ s.ctrLo).toNat

theorem counterBits_le (s : State) : counterBits s ≤ counterMax :=
  Nat.le_sub_one_of_lt (BitVec.isLt (w := 32 + 32) _)

/-- The counter operand is the 64-bit value, less 2^64 when the sign bit is set. -/
theorem counterOperand_eq (s : State) :
    counterOperand s = if s.ctrExt = 0 then (counterBits s : Int) else counterBits s - 2 ^ 64 := by
  have hbits := (s.ctrHi ++ s.ctrLo).isLt
  have hassoc : (s.ctrExt ++ s.ctrHi ++ s.ctrLo).toNat = s.ctrExt.toNat * 2 ^ 64 + counterBits s := by
    rw [BitVec.append_assoc, BitVec.toNat_cast, BitVec.toNat_append, ← Nat.shiftLeft_add_eq_or_of_lt hbits,
      Nat.shiftLeft_eq, counterBits]
  rw [counterOperand, BitVec.toInt_eq_toNat_cond, hassoc]
  have hle := counterBits_le s
  unfold counterMax at hle
  obtain hext | hext : s.ctrExt = 0 ∨ s.ctrExt = 1 := BitVec.eq_zero_or_eq_one s.ctrExt
  · have hzero : s.ctrExt.toNat = 0 := congrArg BitVec.toNat hext
    rw [hzero, if_pos (by omega), if_pos hext]
    omega
  · have hone : s.ctrExt.toNat = 1 := congrArg BitVec.toNat hext
    rw [hone, if_neg (by omega), if_neg (by rw [hext]; decide)]
    omega

theorem counterOperand_of_ctrExt_zero {s : State} (h : s.ctrExt = 0) : counterOperand s = counterBits s := by
  rw [counterOperand_eq, if_pos h]

/-- The counter is negative exactly when its sign bit is set (R162). -/
theorem counterOperand_nonneg_iff {s : State} : 0 ≤ counterOperand s ↔ s.ctrExt = 0 := by
  have hle := counterBits_le s
  unfold counterMax at hle
  rw [counterOperand_eq]
  split
  · exact iff_of_true (by omega) (by assumption)
  · exact iff_of_false (by omega) (by assumption)

theorem counterOperand_neg_iff {s : State} : counterOperand s < 0 ↔ s.ctrExt = 1 := by
  rw [← Int.not_le, counterOperand_nonneg_iff]
  rcases BitVec.eq_zero_or_eq_one s.ctrExt with h | h <;> rw [h] <;> decide

theorem toNat_counterOperand {s : State} (h : s.ctrExt = 0) : (counterOperand s).toNat = counterBits s := by
  rw [counterOperand_of_ctrExt_zero h, Int.toNat_natCast]

/-! ### Reading an operand -/

/-- Reading an operand raises no error of the block: an unwritten byte is a fault of the model. -/
theorem readBuf_ne_err (s : State) (b : Buf) (n : Nat) (k : ErrKind) : readBuf s b n ≠ .error (.err k) := by
  intro h
  obtain ⟨_, _, he, _⟩ := readBuf_error.mp h
  cases he

theorem SecretReady.operand {s : State} {sec : Bytes} (h : SecretReady s sec) : secretOperand s = .ok sec :=
  secretOperand_ok.mpr ⟨h.len, h.holds⟩

/-- A secret read by a command that has passed its checks is ready. -/
theorem secretReady_of_ne_zero {s : State} {sec : Bytes} (hne : s.secretLen ≠ 0)
    (hfits : s.secretLen.toNat ≤ s.cfg.secretMax) (hlen : s.secretLen.toNat = sec.length)
    (hholds : BufHolds s .secret sec) : SecretReady s sec :=
  ⟨hlen, Nat.pos_of_ne_zero fun hzero => hne (BitVec.eq_of_toNat_eq (hlen.trans hzero)), hlen ▸ hfits, hholds⟩

theorem TokenReady.operand {s : State} {tok : Bytes} (h : TokenReady s tok) : tokenOperand s = .ok tok :=
  tokenOperand_ok.mpr ⟨h.len, h.holds⟩

/-! ### The forward search of a whole window -/

section
variable {code : Nat → Except ErrKind (Nat × Bytes)} {tok : Bytes} {d base w : Nat}

/-- The search of a window goes on at its first candidate that does not miss. -/
theorem forwardSearch_at {i : Nat} (hi : i ≤ w) (hrange : base + i ≤ counterMax)
    (hmiss : ∀ j, j < i → Misses code tok (base + j)) :
    forwardSearch code tok d base (w + 1) 0 = forwardSearch code tok d base (w - i + 1) i := by
  rw [forwardSearch_skip i (by omega) (by omega) (fun j _ hj => hmiss j (by omega)), Nat.zero_add,
    Nat.sub_add_comm hi]

/-- Where every candidate in the window and in range misses, the search finds nothing: it ends with the window or past the
last counter. -/
theorem forwardSearch_none (hbase : base ≤ counterMax)
    (hmiss : ∀ j, j ≤ w → base + j ≤ counterMax → Misses code tok (base + j)) :
    forwardSearch code tok d base (w + 1) 0 = .ok none := by
  by_cases hwin : base + w ≤ counterMax
  · rw [forwardSearch_skip (w + 1) (Nat.le_refl _) (by omega) (fun j _ hj => hmiss j (by omega) (by omega)),
      Nat.sub_self, forwardSearch]
  · rw [forwardSearch_skip (counterMax + 1 - base) (by omega) (by omega)
      (fun j _ hj => hmiss j (by omega) (by omega))]
    exact forwardSearch_end (by omega)

end

/-! ### The two commands -/

section
variable {alg d : Nat} {s : State} {hmac : Oracle} {sec tok : Bytes} {a : Alg} {e : Stop}

/-- HOTPGEN's errors in the order of its checks (R163). -/
theorem hotpgenResult_error :
    hotpgenResult alg d s hmac = .error e ↔
      s.cfg.secretMax < s.secretLen.toNat ∧ e = .err .lengthOutOfRange ∨ s.secretLen.toNat ≤ s.cfg.secretMax ∧
      (s.secretLen = 0 ∧ e = .err .invalidSecret ∨ s.secretLen ≠ 0 ∧
      (s.ctrExt = 1 ∧ e = .err .invalidCounter ∨ s.ctrExt = 0 ∧
      ((d < 6 ∨ d > 10) ∧ e = .err .invalidDigits ∨ (6 ≤ d ∧ d ≤ 10) ∧
      (secretOperand s = .error e ∨ ∃ sec, secretOperand s = .ok sec ∧
      (4 ≤ alg ∧ e = .err .unsupportedAlgorithm ∨ ∃ a, algCode a = alg ∧
        ∃ k, hotpCode hmac a (base32Decode sec) (counterOperand s).toNat d = .error k ∧ e = .err k))))) := by
  simp only [hotpgenResult, bind_eq_error, checkLength_error, checkLength_ok, checkSecret_error, checkSecret_ok,
    checkCounter_error, checkCounter_ok, counterOperand_neg_iff, counterOperand_nonneg_iff, checkDigits_error,
    checkDigits_ok, dispatchAlg_error, dispatchAlg_ok, exists_const, liftErr_error, bufCap, pure, Except.pure,
    reduceCtorEq, and_false, or_false]

/-- HOTPVER's errors in the order of its checks (R166). -/
theorem hotpverResult_error :
    hotpverResult alg d s hmac = .error e ↔
      s.cfg.secretMax < s.secretLen.toNat ∧ e = .err .lengthOutOfRange ∨ s.secretLen.toNat ≤ s.cfg.secretMax ∧
      (16 < s.tokenLen.toNat ∧ e = .err .lengthOutOfRange ∨ s.tokenLen.toNat ≤ 16 ∧
      (s.secretLen = 0 ∧ e = .err .invalidSecret ∨ s.secretLen ≠ 0 ∧
      (s.ctrExt = 1 ∧ e = .err .invalidCounter ∨ s.ctrExt = 0 ∧
      ((d < 6 ∨ d > 10) ∧ e = .err .invalidDigits ∨ (6 ≤ d ∧ d ≤ 10) ∧
      (4 ≤ alg ∧ e = .err .unsupportedAlgorithm ∨ ∃ a, algCode a = alg ∧
      (secretOperand s = .error e ∨ ∃ sec, secretOperand s = .ok sec ∧
      (tokenOperand s = .error e ∨ ∃ tok, tokenOperand s = .ok tok ∧
        ∃ k, forwardSearch (fun c => hotpCode hmac a (base32Decode sec) c d) tok d (counterOperand s).toNat
          (windowRadius s + 1) 0 = .error k ∧ e = .err k))))))) := by
  simp only [hotpverResult, bind_eq_error, checkLength_error, checkLength_ok, checkSecret_error, checkSecret_ok,
    checkCounter_error, checkCounter_ok, counterOperand_neg_iff, counterOperand_nonneg_iff, checkDigits_error,
    checkDigits_ok, dispatchAlg_error, dispatchAlg_ok, exists_const, liftErr_error, bufCap, tokenMax, pure, Except.pure,
    reduceCtorEq, and_false, or_false]

/-- With its operands ready, HOTPVER evaluates to what the search of its window finds (R166). -/
theorem hotpverResult_of_search {found : Option Nat} (hsec : SecretReady s sec) (htok : TokenReady s tok)
    (hctr : s.ctrExt = 0) (hlo : 6 ≤ d) (hhi : d ≤ 10)
    (hfound : forwardSearch (fun c => hotpCode hmac a (base32Decode sec) c d) tok d (counterBits s)
      (windowRadius s + 1) 0 = .ok found) :
    hotpverResult (algCode a) d s hmac = .ok { verify := some (verifyWrite (found.map Int.ofNat)) } := by
  rw [← toNat_counterOperand hctr] at hfound
  exact hotpverResult_ok.mpr ⟨sec, tok, a, found, hsec.len ▸ hsec.fits, htok.len ▸ htok.fits, hsec.secretLen_ne_zero,
    counterOperand_nonneg_iff.mpr hctr, hlo, hhi, rfl, hsec.len, hsec.holds, htok.len, htok.holds, hfound, rfl⟩

/-- A window offset in 64 bits. -/
theorem toNat_ofInt_offset (w : Word) {j : Nat} (hj : j ≤ w.toNat) : (BitVec.ofInt 64 (Int.ofNat j)).toNat = j := by
  have hw := w.isLt
  rw [Int.ofNat_eq_natCast, BitVec.ofInt_natCast, BitVec.toNat_ofNat, Nat.mod_eq_of_lt (by omega)]

theorem toInt_ofInt_offset (w : Word) {j : Nat} (hj : j ≤ w.toNat) : (BitVec.ofInt 64 (Int.ofNat j)).toInt = j :=
  toInt_ofInt_delta w (δ := (j : Int)) (by omega) (by omega)

/-- HOTPVER with its window at 0 and its token ready raises the errors of HOTPGEN. -/
theorem hotpverResult_windowZero_error {k : ErrKind} (htok : TokenReady s tok) (hw : s.window = 0)
    (h : hotpgenResult alg d s hmac = .error (.err k)) : hotpverResult alg d s hmac = .error (.err k) := by
  have htoklen : s.tokenLen.toNat ≤ 16 := htok.len ▸ htok.fits
  have hzero : windowRadius s = 0 := congrArg BitVec.toNat hw
  rw [hotpverResult_error]
  rcases hotpgenResult_error.mp h with hlong | ⟨hfits, hempty | ⟨hne, hneg | ⟨hctr, hdigits | ⟨hd, hread |
    ⟨sec, hsec, halg | ⟨a, halg, k', hcode, hk⟩⟩⟩⟩⟩⟩
  · exact .inl hlong
  · exact .inr ⟨hfits, .inr ⟨htoklen, .inl hempty⟩⟩
  · exact .inr ⟨hfits, .inr ⟨htoklen, .inr ⟨hne, .inl hneg⟩⟩⟩
  · exact .inr ⟨hfits, .inr ⟨htoklen, .inr ⟨hne, .inr ⟨hctr, .inl hdigits⟩⟩⟩⟩
  · exact absurd hread (readBuf_ne_err _ _ _ _)
  · exact .inr ⟨hfits, .inr ⟨htoklen, .inr ⟨hne, .inr ⟨hctr, .inr ⟨hd, .inl halg⟩⟩⟩⟩⟩
  · have hrange : (counterOperand s).toNat + 0 ≤ counterMax := toNat_counterOperand hctr ▸ counterBits_le s
    refine .inr ⟨hfits, .inr ⟨htoklen, .inr ⟨hne, .inr ⟨hctr, .inr ⟨hd, .inr ⟨a, halg, .inr ⟨sec, hsec, .inr ⟨tok,
      htok.operand, k', ?_, hk⟩⟩⟩⟩⟩⟩⟩⟩
    rw [hzero]
    exact forwardSearch_err hrange hcode

/-- What HOTPVER finds in a window of one candidate: offset 0 when the code is the token. -/
theorem forwardSearch_one {code : Nat → Except ErrKind (Nat × Bytes)} {base v : Nat} {r : Bytes}
    (hbase : base ≤ counterMax) (hcode : code base = .ok (v, r)) :
    forwardSearch code tok d base 1 0 = .ok (if tokenMatches tok r d then some 0 else none) := by
  rw [forwardSearch, if_neg (by omega), Nat.add_zero, hcode]
  simp only [forwardSearch]
  split <;> rfl

/-- Writing the search's answer: whether it matched, and a delta of 0 either way. -/
theorem verifyWrite_windowZero (m : Bool) :
    verifyWrite ((if m then some 0 else none : Option Nat).map Int.ofNat) = { success := m, delta := 0 } := by
  cases m <;> decide

/-- With its operands ready and its window at 0, HOTPVER compares the token with the code HOTPGEN writes. -/
theorem hotpverResult_windowZero_ok {v : Nat} {r : Bytes} (hsec : SecretReady s sec) (htok : TokenReady s tok)
    (hctr : s.ctrExt = 0) (hlo : 6 ≤ d) (hhi : d ≤ 10) (hw : s.window = 0)
    (hcode : hotpCode hmac a (base32Decode sec) (counterBits s) d = .ok (v, r)) :
    hotpverResult (algCode a) d s hmac = .ok { verify := some { success := tokenMatches tok r d, delta := 0 } } := by
  have hzero : windowRadius s = 0 := congrArg BitVec.toNat hw
  rw [← verifyWrite_windowZero]
  refine hotpverResult_of_search hsec htok hctr hlo hhi ?_
  rw [hzero]
  exact forwardSearch_one (counterBits_le s) hcode

end

/-! ### What a completed command says of its evaluation -/

theorem errCode_ne_zero (k : ErrKind) : errCode k ≠ 0 := by cases k <;> decide

/-- A command that completes without error was issued with writes. -/
theorem exec_next_of_err_zero {i : Instr} {s t : State} (hb : s.busy = false) (h : exec i s = .next t)
    (herr : (complete t).err = 0) : ∃ ws, commandResult i s = .ok ws ∧ t = issued (encode i) (.ok ws) s := by
  rcases exec_next hb h with hok | ⟨k, _, rfl⟩
  · exact hok
  · exact absurd herr (errCode_ne_zero k)

/-- Two byte sequences of one length that a buffer holds are one. -/
theorem BufHolds.eq_of_length {s : State} {b : Buf} {xs ys : Bytes} (hx : BufHolds s b xs) (hy : BufHolds s b ys)
    (hlen : xs.length = ys.length) : xs = ys := by
  refine List.ext_getElem hlen fun k hkx hky => ?_
  have hget := (hx k hkx).symm.trans (hy k hky)
  rwa [List.getD_eq_getElem?_getD, List.getD_eq_getElem?_getD, List.getElem?_eq_getElem hkx, List.getElem?_eq_getElem hky,
    Option.getD_some, Option.getD_some, Option.some.injEq] at hget

end Sys2Proof.Machine

open Sys2Proof Sys2Proof.Machine

/-- Settles O25: eight bytes, each eight bits of the counter, put together again. -/
theorem counterMessageIsBigEndian : Obligations.CounterMessageIsBigEndian :=
  fun c hc => ⟨length_counterBytes c, bigEndianValue_counterBytes hc, fun _ hj => counterBytes_getD c hj⟩

/-- Settles O26: with its operands ready HOTPGEN evaluates to the code, and the command writes that. -/
theorem hotpgenWritesTheCode : Obligations.HotpgenWritesTheCode := by
  intro digits a s sec v r hb hsec hctr hlo hhi hcode
  have hcode' : hotpCode (hmacOf s.cfg) a (base32Decode sec) (counterOperand s).toNat digits = .ok (v, r) :=
    toNat_counterOperand hctr ▸ hcode
  exact exec_code hb (hotpgenResult_ok.mpr ⟨sec, a, v, r, hsec.len ▸ hsec.fits, hsec.secretLen_ne_zero,
    counterOperand_nonneg_iff.mpr hctr, hlo, hhi, hsec.len, hsec.holds, rfl, hcode', rfl⟩) hhi hcode

/-- Settles O27: each clause is one alternative of HOTPGEN's errors. -/
theorem hotpgenErrorsInOrder : Obligations.HotpgenErrorsInOrder := by
  intro alg digits s hb
  have rejects {k : ErrKind} (h : hotpgenResult alg digits s (hmacOf s.cfg) = .error (.err k)) :
      Rejects (.hotpgen alg digits) s (errCode k) := rejects_of_err hb h rfl
  refine ⟨fun hlong => ?_, fun hfits => ⟨fun hempty => ?_, fun hne => ⟨fun hneg => ?_, fun hctr hdigits => ?_⟩⟩,
    fun sec hsec hctr hlo hhi => ⟨fun halg => ?_, fun a k halg hcode => ?_⟩⟩
  · exact rejects (hotpgenResult_error.mpr (.inl ⟨hlong, rfl⟩))
  · exact rejects (hotpgenResult_error.mpr (.inr ⟨hfits, .inl ⟨hempty, rfl⟩⟩))
  · exact rejects (hotpgenResult_error.mpr (.inr ⟨hfits, .inr ⟨hne, .inl ⟨hneg, rfl⟩⟩⟩))
  · exact rejects (hotpgenResult_error.mpr (.inr ⟨hfits, .inr ⟨hne, .inr ⟨hctr, .inl ⟨hdigits, rfl⟩⟩⟩⟩))
  · exact rejects (hotpgenResult_error.mpr (.inr ⟨hsec.len ▸ hsec.fits, .inr ⟨hsec.secretLen_ne_zero,
      .inr ⟨hctr, .inr ⟨⟨hlo, hhi⟩, .inr ⟨sec, hsec.operand, .inl ⟨halg, rfl⟩⟩⟩⟩⟩⟩))
  · obtain rfl := truncate_error hcode
    rw [← counterBits, ← toNat_counterOperand hctr] at hcode
    exact rejects (hotpgenResult_error.mpr (.inr ⟨hsec.len ▸ hsec.fits, .inr ⟨hsec.secretLen_ne_zero,
      .inr ⟨hctr, .inr ⟨⟨hlo, hhi⟩, .inr ⟨sec, hsec.operand, .inr ⟨a, halg, _, hcode, rfl⟩⟩⟩⟩⟩⟩))

/-- Settles O28: the search skips the misses and ends at the match, whose offset DELTA holds in full. -/
theorem hotpverReportsTheFirstMatch : Obligations.HotpverReportsTheFirstMatch := by
  intro digits a s sec tok i v hb hsec htok hctr hlo hhi hi hrange hmiss hcode
  have hfound := (forwardSearch_at hi hrange hmiss).trans
    (forwardSearch_hit hrange hcode (hotpCode_text_length hcode))
  have hres : commandResult (.hotpver (algCode a) digits) s = .ok _ :=
    hotpverResult_of_search hsec htok hctr hlo hhi hfound
  exact ⟨_, exec_of_ok hb hres, issued_issuedFrom _ _ s, complete_issued_completedFrom_ok _ _ s, rfl,
    toInt_ofInt_offset s.window hi, ⟨rfl, rfl, rfl, rfl, rfl, rfl, rfl⟩, rfl⟩

/-- Settles O29: the search of a window of misses finds nothing. -/
theorem hotpverReportsNoMatch : Obligations.HotpverReportsNoMatch := by
  intro digits a s sec tok hb hsec htok hctr hlo hhi hmiss
  have hres : commandResult (.hotpver (algCode a) digits) s = .ok _ :=
    hotpverResult_of_search hsec htok hctr hlo hhi (forwardSearch_none (counterBits_le s) hmiss)
  exact ⟨_, exec_of_ok hb hres, issued_issuedFrom _ _ s, complete_issued_completedFrom_ok _ _ s, rfl, rfl,
    ⟨rfl, rfl, rfl, rfl, rfl, rfl, rfl⟩, rfl⟩

/-- Settles O30: each clause is one alternative of HOTPVER's errors; a short digest ends the search after the misses before
it. -/
theorem hotpverErrorsInOrder : Obligations.HotpverErrorsInOrder := by
  intro alg digits s hb
  have rejects {k : ErrKind} (h : hotpverResult alg digits s (hmacOf s.cfg) = .error (.err k)) :
      Rejects (.hotpver alg digits) s (errCode k) := rejects_of_err hb h rfl
  refine ⟨fun hlong => ?_, fun hfits htok => ⟨fun hempty => ?_, fun hne => ⟨fun hneg => ?_, fun hctr =>
    ⟨fun hdigits => ?_, fun hlo hhi halg => ?_⟩⟩⟩,
    fun sec tok a i k hsec htok hctr hlo hhi halg hi hrange hmiss hcode => ?_⟩
  · refine rejects (k := .lengthOutOfRange) (hotpverResult_error.mpr ?_)
    by_cases hsec : s.secretLen.toNat > s.cfg.secretMax
    · exact .inl ⟨hsec, rfl⟩
    · exact .inr ⟨Nat.le_of_not_lt hsec, .inl ⟨hlong.resolve_left hsec, rfl⟩⟩
  · exact rejects (hotpverResult_error.mpr (.inr ⟨hfits, .inr ⟨htok, .inl ⟨hempty, rfl⟩⟩⟩))
  · exact rejects (hotpverResult_error.mpr (.inr ⟨hfits, .inr ⟨htok, .inr ⟨hne, .inl ⟨hneg, rfl⟩⟩⟩⟩))
  · exact rejects (hotpverResult_error.mpr (.inr ⟨hfits, .inr ⟨htok, .inr ⟨hne, .inr ⟨hctr,
      .inl ⟨hdigits, rfl⟩⟩⟩⟩⟩))
  · exact rejects (hotpverResult_error.mpr (.inr ⟨hfits, .inr ⟨htok, .inr ⟨hne, .inr ⟨hctr,
      .inr ⟨⟨hlo, hhi⟩, .inl ⟨halg, rfl⟩⟩⟩⟩⟩⟩))
  · obtain rfl := truncate_error hcode
    have hsearch := (forwardSearch_at (d := digits) hi hrange hmiss).trans (forwardSearch_err hrange hcode)
    rw [← counterBits, ← toNat_counterOperand hctr] at hsearch
    exact rejects (hotpverResult_error.mpr (.inr ⟨hsec.len ▸ hsec.fits, .inr ⟨htok.len ▸ htok.fits,
      .inr ⟨hsec.secretLen_ne_zero, .inr ⟨hctr, .inr ⟨⟨hlo, hhi⟩, .inr ⟨a, halg, .inr ⟨sec, hsec.operand,
      .inr ⟨tok, htok.operand, _, hsearch, rfl⟩⟩⟩⟩⟩⟩⟩⟩))

/-- Settles O31: success is the search's match, which lies in the window and in range. -/
theorem hotpverNeverLooksBack : Obligations.HotpverNeverLooksBack := by
  intro alg digits s t hb hexec herr hsuccess
  obtain ⟨ws, hres, rfl⟩ := exec_next_of_err_zero hb hexec herr
  obtain ⟨sec, tok, a, found, hsfits, htfits, hne, hctr, _, _, halg, hslen, hsholds, htlen, htholds, hfound, rfl⟩ :=
    hotpverResult_ok.mp hres
  rw [counterOperand_nonneg_iff] at hctr
  rw [toNat_counterOperand hctr] at hfound
  cases found with
  | none => exact absurd hsuccess Bool.false_ne_true
  | some j =>
    obtain ⟨_, hj, hrange, v, hcode, _⟩ := forwardSearch_some hfound
    have hjw : j ≤ s.window.toNat := by rw [windowRadius] at hj; omega
    have hint := toInt_ofInt_offset s.window hjw
    have hnat := toNat_ofInt_offset s.window hjw
    refine ⟨hint.symm ▸ Int.natCast_nonneg j, hint.symm ▸ Int.ofNat_le.mpr hjw, ?_, a, sec, tok, v, halg,
      secretReady_of_ne_zero hne hsfits hslen hsholds, ⟨htlen, htlen ▸ htfits, htholds⟩, ?_⟩
    · exact hnat.symm ▸ Nat.lt_of_le_pred (by decide) hrange
    · exact hnat.symm ▸ hcode

/-- Settles O32: HOTPGEN's error is HOTPVER's too; its code is what HOTPVER compares the token with, and what CODE_MEM then
holds. -/
theorem windowZeroAgreesWithGeneration : Obligations.WindowZeroAgreesWithGeneration := by
  intro alg digits s tg tv tok hb htok hw hgen hver
  rcases exec_next hb hgen with ⟨ws, hres, rfl⟩ | ⟨k, hres, rfl⟩
  · obtain ⟨sec, a, v, r, hsfits, hne, hctr, hlo, hhi, hslen, hsholds, rfl, hcode, rfl⟩ := hotpgenResult_ok.mp hres
    rw [counterOperand_nonneg_iff] at hctr
    rw [toNat_counterOperand hctr] at hcode
    have hverify := exec_of_ok (i := .hotpver (algCode a) digits) hb
      (hotpverResult_windowZero_ok (secretReady_of_ne_zero hne hsfits hslen hsholds) htok hctr hlo hhi hw hcode)
    obtain rfl := Host.Outcome.next.inj (hver.symm.trans hverify)
    obtain ⟨_, _, ⟨_, hout, _⟩, _⟩ := complete_codeWrite (c := encode (.hotpgen (algCode a) digits)) (s := s) hhi hcode rfl
    have hlen := hotpCode_text_length hcode
    refine ⟨rfl, fun _ => ⟨rfl, ?_⟩⟩
    refine (tokenMatches_iff (r := r)).trans (and_congr_right fun htl => ⟨?_, fun hholds => ?_⟩)
    · rintro rfl
      exact hout
    · exact hholds.eq_of_length hout (htl.trans hlen.symm)
  · have hverify := exec_of_err (i := .hotpver alg digits) hb (hotpverResult_windowZero_error htok hw hres)
    obtain rfl := Host.Outcome.next.inj (hver.symm.trans hverify)
    exact ⟨rfl, fun hzero => absurd hzero (errCode_ne_zero k)⟩

end

section
/-! The time left in a step, the symmetric window search, the commands TREM, TOTPGEN and TOTPVER, and digests of a
conformant length (44_totp.md R180-R191, 41_hmac_interface.md R121). -/

namespace Sys2Proof.Machine

/-! ### The time step and what is left of it -/

/-- Steps are counted from the epoch (R180). -/
theorem timeStep_nonneg_iff {ts p : Int} (hp : 0 < p) : 0 ≤ timeStep ts p ↔ 0 ≤ ts :=
  Int.ediv_nonneg_iff_of_pos (by omega)

/-- At least one millisecond and at most a whole period is left of a step (R183). -/
theorem timeRemaining_range (ts : Int) {p : Int} (hp : 0 < p) :
    1 ≤ timeRemaining ts p ∧ timeRemaining ts p ≤ 1000 * p := by
  have hlo := Int.emod_nonneg ts (show 1000 * p ≠ 0 by omega)
  have hhi := Int.emod_lt_of_pos ts (show 0 < 1000 * p by omega)
  unfold timeRemaining
  omega

/-- What is left of a step ends where the next one starts. -/
theorem add_timeRemaining (ts p : Int) : ts + timeRemaining ts p = 1000 * p * (timeStep ts p + 1) := by
  have hdiv := Int.mul_ediv_add_emod ts (1000 * p)
  rw [timeRemaining, timeStep, Int.mul_add, Int.mul_one]
  omega

/-- REM holds the time left of every legal period in full. -/
theorem toNat_ofInt_timeRemaining (ts : Int) {p : Word} (hp : 0 < p.toInt) :
    ((BitVec.ofInt 64 (timeRemaining ts p.toInt)).toNat : Int) = timeRemaining ts p.toInt := by
  obtain ⟨hlo, hhi⟩ := timeRemaining_range ts hp
  have hmax : p.toInt < 2 ^ 31 := BitVec.toInt_lt
  rw [BitVec.toNat_ofInt]
  omega

/-! ### The symmetric search of a whole window -/

section
variable {code : Nat → Except ErrKind (Nat × Bytes)} {tok : Bytes} {d w : Nat} {current : Int}

/-- The search of a window goes on at its first candidate that is a counter and does not miss. -/
theorem symmetricSearch_at {δ : Int} (hlo : -(w : Int) ≤ δ) (hhi : δ ≤ w)
    (hmiss : ∀ ε : Int, -(w : Int) ≤ ε → ε < δ → 0 ≤ current + ε → Misses code tok (current + ε).toNat) :
    symmetricSearch code tok d current (2 * w + 1) (-(w : Int)) =
      symmetricSearch code tok d current ((w - δ).toNat + 1) δ := by
  obtain ⟨m, rfl⟩ : ∃ m : Nat, δ = -(w : Int) + m := ⟨(δ + w).toNat, by omega⟩
  rw [symmetricSearch_skip m (by omega) hmiss, show 2 * w + 1 - m = (w - (-(w : Int) + m)).toNat + 1 by omega]

/-- Where every candidate that is a counter misses, the search finds nothing. -/
theorem symmetricSearch_none
    (hmiss : ∀ ε : Int, -(w : Int) ≤ ε → ε ≤ w → 0 ≤ current + ε → Misses code tok (current + ε).toNat) :
    symmetricSearch code tok d current (2 * w + 1) (-(w : Int)) = .ok none := by
  rw [symmetricSearch_skip (2 * w + 1) (Nat.le_refl _) (fun ε hlo hhi => hmiss ε hlo (by omega)), Nat.sub_self,
    symmetricSearch]

end

/-! ### The commands -/

section
variable {alg d : Nat} {s : State} {hmac : Oracle} {e : Stop}

theorem tremResult_invalidPeriod (h : s.period.toInt ≤ 0) : tremResult s = .error (.err .invalidPeriod) :=
  bind_eq_error.mpr (.inl (checkPeriod_error.mpr ⟨h, rfl⟩))

/-- TOTPGEN's errors in the order of its checks (R184). -/
theorem totpgenResult_error :
    totpgenResult alg d s hmac = .error e ↔
      s.cfg.secretMax < s.secretLen.toNat ∧ e = .err .lengthOutOfRange ∨ s.secretLen.toNat ≤ s.cfg.secretMax ∧
      (periodSeconds s ≤ 0 ∧ e = .err .invalidPeriod ∨ 0 < periodSeconds s ∧
      (s.secretLen = 0 ∧ e = .err .invalidSecret ∨ s.secretLen ≠ 0 ∧
      (timeStep (timestampMillis s) (periodSeconds s) < 0 ∧ e = .err .invalidCounter ∨
        0 ≤ timeStep (timestampMillis s) (periodSeconds s) ∧
      ((d < 6 ∨ d > 10) ∧ e = .err .invalidDigits ∨ (6 ≤ d ∧ d ≤ 10) ∧
      (secretOperand s = .error e ∨ ∃ sec, secretOperand s = .ok sec ∧
      (4 ≤ alg ∧ e = .err .unsupportedAlgorithm ∨ ∃ a, algCode a = alg ∧
        ∃ k, hotpCode hmac a (base32Decode sec) (timeStep (timestampMillis s) (periodSeconds s)).toNat d = .error k ∧
          e = .err k)))))) := by
  simp only [totpgenResult, bind_eq_error, checkLength_error, checkLength_ok, checkPeriod_error, checkPeriod_ok,
    checkSecret_error, checkSecret_ok, checkCounter_error, checkCounter_ok, checkDigits_error, checkDigits_ok,
    dispatchAlg_error, dispatchAlg_ok, exists_const, liftErr_error, bufCap, pure, Except.pure, reduceCtorEq, and_false,
    or_false]

/-- TOTPVER's errors in the order of its checks (R187). -/
theorem totpverResult_error :
    totpverResult alg d s hmac = .error e ↔
      s.cfg.secretMax < s.secretLen.toNat ∧ e = .err .lengthOutOfRange ∨ s.secretLen.toNat ≤ s.cfg.secretMax ∧
      (16 < s.tokenLen.toNat ∧ e = .err .lengthOutOfRange ∨ s.tokenLen.toNat ≤ 16 ∧
      (periodSeconds s ≤ 0 ∧ e = .err .invalidPeriod ∨ 0 < periodSeconds s ∧
      (s.secretLen = 0 ∧ e = .err .invalidSecret ∨ s.secretLen ≠ 0 ∧
      ((d < 6 ∨ d > 10) ∧ e = .err .invalidDigits ∨ (6 ≤ d ∧ d ≤ 10) ∧
      (4 ≤ alg ∧ e = .err .unsupportedAlgorithm ∨ ∃ a, algCode a = alg ∧
      (secretOperand s = .error e ∨ ∃ sec, secretOperand s = .ok sec ∧
      (tokenOperand s = .error e ∨ ∃ tok, tokenOperand s = .ok tok ∧
        ∃ k, symmetricSearch (fun c => hotpCode hmac a (base32Decode sec) c d) tok d
          (timeStep (timestampMillis s) (periodSeconds s)) (2 * windowRadius s + 1) (-(windowRadius s : Int)) =
            .error k ∧ e = .err k))))))) := by
  simp only [totpverResult, bind_eq_error, checkLength_error, checkLength_ok, checkPeriod_error, checkPeriod_ok,
    checkSecret_error, checkSecret_ok, checkDigits_error, checkDigits_ok, dispatchAlg_error, dispatchAlg_ok,
    exists_const, liftErr_error, bufCap, tokenMax, pure, Except.pure, reduceCtorEq, and_false, or_false]

end

/-! ### Conformant digests -/

/-- A digest of a conformant length is long enough, whatever its bytes. -/
theorem truncate_of_digestLength {a : Alg} {dig : Bytes} (h : dig.length = a.digestLength) (d : Nat) :
    ∃ v r, truncate dig d = .ok (v, r) :=
  truncate_of_length (h ▸ digestLength_ge a) d

theorem ne_error_of_exists_ok {α : Type} {x : Except ErrKind α} (h : ∃ y, x = .ok y) (k : ErrKind) : x ≠ .error k := by
  obtain ⟨_, rfl⟩ := h
  exact nofun

/-- With conformant digests every counter has a code. -/
theorem hotpCode_of_conformant {hmac : Oracle} (h : HmacLengthConformant hmac) (a : Alg) (key : Bytes) (c d : Nat) :
    ∃ v r, hotpCode hmac a key c d = .ok (v, r) :=
  truncate_of_digestLength (h a key (counterBytes c)) d

end Sys2Proof.Machine

open Sys2Proof Sys2Proof.Machine

/-- Settles O34: the period check raises the error; what is left of the step is in range, so REM holds it in full. -/
theorem tremWritesTheRemainder : Obligations.TremWritesTheRemainder := by
  refine ⟨rfl, fun alg digits s hb => ⟨fun hneg => ?_, fun hp => ?_⟩⟩
  · exact rejects_of_err hb (tremResult_invalidPeriod hneg) rfl
  · have hres : commandResult (.trem alg digits) s =
        .ok { rem := some (BitVec.ofInt 64 (timeRemaining (timestampMillis s) (periodSeconds s))) } :=
      tremResult_ok.mpr ⟨hp, rfl⟩
    have hrem := toNat_ofInt_timeRemaining (timestampMillis s) hp
    obtain ⟨hlo, hhi⟩ := timeRemaining_range (timestampMillis s) hp
    have hnext := add_timeRemaining (timestampMillis s) (periodSeconds s)
    rw [periodSeconds, ← hrem] at hnext
    rw [← hrem] at hlo hhi
    exact ⟨_, exec_of_ok hb hres, issued_issuedFrom _ _ s, complete_issued_completedFrom_ok _ _ s, hrem,
      Int.ofNat_le.mp hlo, hhi, hnext, ⟨rfl, rfl, rfl, rfl, rfl, rfl, rfl⟩, rfl⟩

/-- Settles O35: with its operands ready TOTPGEN evaluates to the code of the time step and to the step, which RCTR holds
in full. -/
theorem totpgenWritesCodeAndStep : Obligations.TotpgenWritesCodeAndStep := by
  intro digits a s sec v r hb hsec hp hts hlo hhi hcode
  have hres : commandResult (.totpgen (algCode a) digits) s = .ok _ :=
    totpgenResult_ok.mpr ⟨sec, a, v, r, hsec.len ▸ hsec.fits, hp, hsec.secretLen_ne_zero,
      (timeStep_nonneg_iff hp).mpr hts, hlo, hhi, hsec.len, hsec.holds, rfl, hcode, rfl⟩
  obtain ⟨hval, hlen, hout, hmem⟩ :=
    complete_codeWrite (c := encode (.totpgen (algCode a) digits)) (s := s) hhi hcode rfl
  exact ⟨_, exec_of_ok hb hres, issued_issuedFrom _ _ s, complete_issued_completedFrom_ok _ _ s, hval, hlen, hout,
    toInt_ofInt_timeStep (s.tsHi ++ s.tsLo) hp, ⟨rfl, rfl, rfl, rfl, rfl, rfl, rfl⟩, hmem⟩

/-- Settles O36: each clause is one alternative of TOTPGEN's errors. -/
theorem totpgenErrorsInOrder : Obligations.TotpgenErrorsInOrder := by
  intro alg digits s hb
  have rejects {k : ErrKind} (h : totpgenResult alg digits s (hmacOf s.cfg) = .error (.err k)) :
      Rejects (.totpgen alg digits) s (errCode k) := rejects_of_err hb h rfl
  refine ⟨fun hlong => ?_, fun hfits => ⟨fun hperiod => ?_, fun hp => ⟨fun hempty => ?_, fun hne => ⟨fun hneg => ?_,
    fun hts hdigits => ?_⟩⟩⟩, fun sec hsec hp hts hlo hhi => ⟨fun halg => ?_, fun a k halg hcode => ?_⟩⟩
  · exact rejects (totpgenResult_error.mpr (.inl ⟨hlong, rfl⟩))
  · exact rejects (totpgenResult_error.mpr (.inr ⟨hfits, .inl ⟨hperiod, rfl⟩⟩))
  · exact rejects (totpgenResult_error.mpr (.inr ⟨hfits, .inr ⟨hp, .inl ⟨hempty, rfl⟩⟩⟩))
  · have hstep := Int.not_le.mp (mt (timeStep_nonneg_iff hp).mp (Int.not_le.mpr hneg))
    exact rejects (totpgenResult_error.mpr (.inr ⟨hfits, .inr ⟨hp, .inr ⟨hne, .inl ⟨hstep, rfl⟩⟩⟩⟩))
  · exact rejects (totpgenResult_error.mpr (.inr ⟨hfits, .inr ⟨hp, .inr ⟨hne,
      .inr ⟨(timeStep_nonneg_iff hp).mpr hts, .inl ⟨hdigits, rfl⟩⟩⟩⟩⟩))
  · exact rejects (totpgenResult_error.mpr (.inr ⟨hsec.len ▸ hsec.fits, .inr ⟨hp, .inr ⟨hsec.secretLen_ne_zero,
      .inr ⟨(timeStep_nonneg_iff hp).mpr hts, .inr ⟨⟨hlo, hhi⟩, .inr ⟨sec, hsec.operand, .inl ⟨halg, rfl⟩⟩⟩⟩⟩⟩⟩))
  · obtain rfl := truncate_error hcode
    exact rejects (totpgenResult_error.mpr (.inr ⟨hsec.len ▸ hsec.fits, .inr ⟨hp, .inr ⟨hsec.secretLen_ne_zero,
      .inr ⟨(timeStep_nonneg_iff hp).mpr hts, .inr ⟨⟨hlo, hhi⟩, .inr ⟨sec, hsec.operand,
      .inr ⟨a, halg, _, hcode, rfl⟩⟩⟩⟩⟩⟩⟩))

/-- Settles O38: the search of a window of misses and negative candidates finds nothing. -/
theorem totpverReportsNoMatch : Obligations.TotpverReportsNoMatch := by
  intro digits a s sec tok current hb hsec htok hp hlo hhi hmiss
  have hres : commandResult (.totpver (algCode a) digits) s = .ok _ :=
    totpverResult_of_search hsec htok hp hlo hhi (symmetricSearch_none hmiss)
  exact ⟨_, exec_of_ok hb hres, issued_issuedFrom _ _ s, complete_issued_completedFrom_ok _ _ s, rfl, rfl,
    toInt_ofInt_timeStep (s.tsHi ++ s.tsLo) hp, ⟨rfl, rfl, rfl, rfl, rfl, rfl, rfl⟩, rfl⟩

/-- Settles O39: each clause is one alternative of TOTPVER's errors; a short digest ends the search after the misses before
it. -/
theorem totpverErrorsInOrder : Obligations.TotpverErrorsInOrder := by
  intro alg digits s hb
  have rejects {k : ErrKind} (h : totpverResult alg digits s (hmacOf s.cfg) = .error (.err k)) :
      Rejects (.totpver alg digits) s (errCode k) := rejects_of_err hb h rfl
  refine ⟨fun hlong => ?_, fun hfits htok => ⟨fun hperiod => ?_, fun hp => ⟨fun hempty => ?_, fun hne =>
    ⟨fun hdigits => ?_, fun hlo hhi halg => ?_⟩⟩⟩,
    fun sec tok a k δ hsec htok hp hlo hhi halg hδlo hδhi hcand hmiss hcode => ?_⟩
  · refine rejects (k := .lengthOutOfRange) (totpverResult_error.mpr ?_)
    by_cases hsec : s.secretLen.toNat > s.cfg.secretMax
    · exact .inl ⟨hsec, rfl⟩
    · exact .inr ⟨Nat.le_of_not_lt hsec, .inl ⟨hlong.resolve_left hsec, rfl⟩⟩
  · exact rejects (totpverResult_error.mpr (.inr ⟨hfits, .inr ⟨htok, .inl ⟨hperiod, rfl⟩⟩⟩))
  · exact rejects (totpverResult_error.mpr (.inr ⟨hfits, .inr ⟨htok, .inr ⟨hp, .inl ⟨hempty, rfl⟩⟩⟩⟩))
  · exact rejects (totpverResult_error.mpr (.inr ⟨hfits, .inr ⟨htok, .inr ⟨hp, .inr ⟨hne, .inl ⟨hdigits, rfl⟩⟩⟩⟩⟩))
  · exact rejects (totpverResult_error.mpr (.inr ⟨hfits, .inr ⟨htok, .inr ⟨hp, .inr ⟨hne, .inr ⟨⟨hlo, hhi⟩,
      .inl ⟨halg, rfl⟩⟩⟩⟩⟩⟩))
  · obtain rfl := truncate_error hcode
    have hsearch := (symmetricSearch_at (d := digits) hδlo hδhi hmiss).trans (symmetricSearch_err hcand hcode)
    exact rejects (totpverResult_error.mpr (.inr ⟨hsec.len ▸ hsec.fits, .inr ⟨htok.len ▸ htok.fits, .inr ⟨hp,
      .inr ⟨hsec.secretLen_ne_zero, .inr ⟨⟨hlo, hhi⟩, .inr ⟨a, halg, .inr ⟨sec, hsec.operand,
      .inr ⟨tok, htok.operand, _, hsearch, rfl⟩⟩⟩⟩⟩⟩⟩⟩))

/-- Settles O40: HOTPGEN reads the same secret, and its counter is the time step, so it evaluates to the same code. -/
theorem totpgenDelegatesToHotpgen : Obligations.TotpgenDelegatesToHotpgen := by
  intro alg digits s t c hb hexec herr hc
  obtain ⟨ws, hres, rfl⟩ := exec_next_of_err_zero hb hexec herr
  obtain ⟨sec, a, v, r, hfits, _, hne, _, hlo, hhi, hlen, hholds, halg, hcode, rfl⟩ := totpgenResult_ok.mp hres
  have hbits : c.extractLsb' 32 32 ++ c.extractLsb' 0 32 = c :=
    BitVec.extractLsb'_append_extractLsb' (w := 32) (len := 32)
  have hctr : (counterOperand { s with
      ctrExt := 0, ctrHi := c.extractLsb' 32 32, ctrLo := c.extractLsb' 0 32 }).toNat =
      (timeStep (timestampMillis s) (periodSeconds s)).toNat := by
    rw [toNat_counterOperand rfl, counterBits, hbits]
    exact Int.toNat_natCast _ ▸ congrArg Int.toNat hc
  have hgen : commandResult (.hotpgen alg digits) { s with
      ctrExt := 0, ctrHi := c.extractLsb' 32 32, ctrLo := c.extractLsb' 0 32 } = .ok _ :=
    hotpgenResult_ok.mpr ⟨sec, a, v, r, hfits, hne, counterOperand_nonneg_iff.mpr rfl, hlo, hhi, hlen, hholds, halg,
      hctr ▸ hcode, rfl⟩
  exact ⟨_, exec_of_ok hb hgen, rfl, rfl, rfl, fun _ => rfl⟩

/-- Settles O24: with conformant digests every counter has a code and every search ends without an error, so a command's
errors are those of its other checks. -/
theorem conformantDigestsTruncate : Obligations.ConformantDigestsTruncate := by
  refine ⟨fun a dig d h => truncate_of_digestLength h d, fun hmac hconf =>
    ⟨hotpCode_of_conformant hconf, fun alg d s => ?_⟩⟩
  have hcode (a key c d k) : hotpCode hmac a key c d ≠ .error k :=
    have ⟨v, r, h⟩ := hotpCode_of_conformant hconf a key c d
    ne_error_of_exists_ok ⟨(v, r), h⟩ k
  have hforward (a key tok d base n i k) : forwardSearch (fun c => hotpCode hmac a key c d) tok d base n i ≠ .error k :=
    ne_error_of_exists_ok (forwardSearch_total (fun c => hotpCode_of_conformant hconf a key c d) base n i) k
  have hsymmetric (a key tok d current n δ k) :
      symmetricSearch (fun c => hotpCode hmac a key c d) tok d current n δ ≠ .error k :=
    ne_error_of_exists_ok (symmetricSearch_total (fun c => hotpCode_of_conformant hconf a key c d) current n δ) k
  refine ⟨?_, ?_, ?_, ?_⟩
  · simp [hotpgenResult_error, secretOperand, readBuf_ne_err, hcode]
  · simp [hotpverResult_error, secretOperand, tokenOperand, readBuf_ne_err, hforward]
  · simp [totpgenResult_error, secretOperand, readBuf_ne_err, hcode]
  · simp [totpverResult_error, secretOperand, tokenOperand, readBuf_ne_err, hsymmetric]

end

section
/-! The meanings of all nine commands together: their frames at issue and at completion, where they stop, and what they give
at reset (10_state.md R29, R35, R43, R44; 70_reset_and_hazards.md R233). -/

namespace Sys2Proof.Machine

/-! ### Issue and completion -/

/-- While busy a command's write is dropped (R36). -/
theorem exec_of_busy {i : Instr} {s : State} (hb : s.busy = true) : exec i s = .next (dropWrite s) := by
  simp only [exec_eq, issueCommand, hb, if_true]

theorem exec_issuedFrom {i : Instr} {s t : State} (hb : s.busy = false) (h : exec i s = .next t) :
    IssuedFrom (encode i) s t := by
  rcases exec_next hb h with ⟨ws, _, rfl⟩ | ⟨k, _, rfl⟩ <;> exact issued_issuedFrom _ _ s

/-- Whatever its outcome, a command's completion ends its life and leaves the operands and the host's side alone. -/
theorem exec_completedFrom {i : Instr} {s t : State} (hb : s.busy = false) (h : exec i s = .next t) :
    ∃ e, CompletedFrom (encode i) e s (complete t) := by
  rcases exec_next hb h with ⟨ws, _, rfl⟩ | ⟨k, _, rfl⟩
  · exact ⟨0, complete_issued_completedFrom_ok _ ws s⟩
  · exact ⟨errCode k, complete_issued_completedFrom_error _ k s⟩

/-- A code of legal width fits CODE_MEM, so writing it changes no byte outside. -/
theorem memKeptOutside_code {c : Word} {s : State} {d v : Nat} {r dig : Bytes} {step : Option (BitVec 64)}
    (hd : d ≤ 10) (hcode : truncate dig d = .ok (v, r)) :
    MemKeptOutside .code s (complete (issued c (.ok { code := some (codeWrite d v r), rctr := step }) s)) := by
  obtain ⟨_, _, _, hmem⟩ := complete_codeWrite (c := c) (s := s) (step := step) hd hcode rfl
  exact hmem

/-! ### Where a command stops -/

/-- An evaluation that stops for an unwritten byte names one. -/
def FaultsOnUnwritten {α : Type} (s : State) (r : Except Stop α) : Prop :=
  ∀ a, r = .error (.uninit a) → memGet s.mem a = none

namespace FaultsOnUnwritten

variable {s : State} {α β : Type}

theorem bind {x : Except Stop α} {f : α → Except Stop β} (hx : FaultsOnUnwritten s x)
    (hf : ∀ y, FaultsOnUnwritten s (f y)) : FaultsOnUnwritten s (x >>= f) := fun a h =>
  (bind_eq_error.mp h).elim (hx a) fun ⟨y, _, hy⟩ => hf y a hy

theorem ok (x : α) : FaultsOnUnwritten s (.ok x) := nofun

theorem raise (k : ErrKind) : FaultsOnUnwritten s (raise k : Except Stop α) := nofun

theorem check {c : Prop} [Decidable c] {k : ErrKind} {r : Except Stop α} (hr : FaultsOnUnwritten s r) :
    FaultsOnUnwritten s (if c then Machine.raise k else r) := by
  split
  · exact raise k
  · exact hr

theorem dispatchAlg (alg : Nat) : FaultsOnUnwritten s (dispatchAlg alg) := fun a h => by
  obtain ⟨_, he⟩ := dispatchAlg_error.mp h
  cases he

theorem liftErr (r : Except ErrKind α) : FaultsOnUnwritten s (liftErr r) := fun a h => by
  obtain ⟨k, _, he⟩ := liftErr_error.mp h
  cases he

theorem readBuf (b : Buf) (n : Nat) : FaultsOnUnwritten s (readBuf s b n) := fun a h => by
  obtain ⟨k, _, he, hnone, _⟩ := readBuf_error.mp h
  cases he
  exact hnone

/-- A command's evaluation is a sequence of checks, of operand reads and of computations, and only the reads can meet an
unwritten byte. -/
theorem commandResult (i : Instr) : FaultsOnUnwritten s (commandResult i s) := by
  cases i with
  | b32enc | b32dec => exact (check (ok ())).bind fun _ => (readBuf _ _).bind fun _ => ok _
  | trunc =>
    exact (check (ok ())).bind fun _ => (check (ok ())).bind fun _ => (readBuf _ _).bind fun _ =>
      (liftErr _).bind fun _ => ok _
  | hotpgen =>
    exact (check (ok ())).bind fun _ => (check (ok ())).bind fun _ => (check (ok ())).bind fun _ =>
      (check (ok ())).bind fun _ => (readBuf _ _).bind fun _ => (dispatchAlg _).bind fun _ =>
      (liftErr _).bind fun _ => ok _
  | hotpver =>
    exact (check (ok ())).bind fun _ => (check (ok ())).bind fun _ => (check (ok ())).bind fun _ =>
      (check (ok ())).bind fun _ => (check (ok ())).bind fun _ => (dispatchAlg _).bind fun _ =>
      (readBuf _ _).bind fun _ => (readBuf _ _).bind fun _ => (liftErr _).bind fun _ => ok _
  | totpgen =>
    exact (check (ok ())).bind fun _ => (check (ok ())).bind fun _ => (check (ok ())).bind fun _ =>
      (check (ok ())).bind fun _ => (check (ok ())).bind fun _ => (readBuf _ _).bind fun _ =>
      (dispatchAlg _).bind fun _ => (liftErr _).bind fun _ => ok _
  | totpver =>
    exact (check (ok ())).bind fun _ => (check (ok ())).bind fun _ => (check (ok ())).bind fun _ =>
      (check (ok ())).bind fun _ => (check (ok ())).bind fun _ => (dispatchAlg _).bind fun _ =>
      (readBuf _ _).bind fun _ => (readBuf _ _).bind fun _ => (liftErr _).bind fun _ => ok _
  | tstep | trem => exact (check (ok ())).bind fun _ => ok _

end FaultsOnUnwritten

/-- A write of a word whose evaluation names only unwritten bytes goes on, or stops at such a byte of an idle block. -/
theorem issueCommand_stops {s : State} {c : Word} {r : Except Stop Writes} (h : FaultsOnUnwritten s r) :
    (∃ t, issueCommand c r s = .next t) ∨
      ∃ a, issueCommand c r s = .fault (.uninitRead a) ∧ memGet s.mem a = none ∧ s.busy = false := by
  rcases issueCommand_cases c r s with ⟨_, hd⟩ | ⟨_, _, _, hi⟩ | ⟨_, _, _, hi⟩ | ⟨hb, a, hr, hf⟩
  · exact .inl ⟨_, hd⟩
  · exact .inl ⟨_, hi⟩
  · exact .inl ⟨_, hi⟩
  · exact .inr ⟨a, hf, h a hr, hb⟩

/-- Reading a buffer with an unwritten byte below the length stops at the first one. -/
theorem readBuf_of_unwritten {s : State} {b : Buf} {n k : Nat} (hk : k < n)
    (hnone : memGet s.mem (bufBase b + k) = none) :
    ∃ a, bufBase b ≤ a ∧ a ≤ bufBase b + k ∧ memGet s.mem a = none ∧ readBuf s b n = .error (.uninit a) := by
  cases hread : readBuf s b n with
  | ok bs =>
    obtain ⟨rfl, hholds⟩ := readBuf_ok.mp hread
    exact nomatch hnone.symm.trans (hholds k hk)
  | error e =>
    obtain ⟨j, _, rfl, hj, hfirst⟩ := readBuf_error.mp hread
    have hle : j ≤ k := Nat.le_of_not_lt fun hlt => hfirst k hlt hnone
    exact ⟨_, Nat.le_add_right _ _, Nat.add_le_add_left hle _, hj, rfl⟩

theorem exists_algCode {alg : Nat} (h : alg < 4) : ∃ a, algCode a = alg := by
  obtain rfl | rfl | rfl | rfl : alg = 0 ∨ alg = 1 ∨ alg = 2 ∨ alg = 3 := by omega
  · exact ⟨.sha1, rfl⟩
  · exact ⟨.sha256, rfl⟩
  · exact ⟨.sha512, rfl⟩
  · exact ⟨.sm3, rfl⟩

theorem b32encResult_of_unread {s : State} {e : Stop} (hfits : s.dinLen.toNat ≤ s.cfg.dinMax)
    (h : dinOperand s = .error e) : b32encResult s = .error e :=
  bind_eq_error.mpr (.inr ⟨(), checkLength_ok.mpr hfits, bind_eq_error.mpr (.inl h)⟩)

theorem b32decResult_of_unread {s : State} {e : Stop} (hfits : s.dinLen.toNat ≤ s.cfg.dinMax)
    (h : dinOperand s = .error e) : b32decResult s = .error e :=
  bind_eq_error.mpr (.inr ⟨(), checkLength_ok.mpr hfits, bind_eq_error.mpr (.inl h)⟩)

/-! ### Reset -/

/-- At reset DIN_LEN is 0, and the empty input is ready. -/
theorem dinReady_reset : DinReady State.reset [] := ⟨rfl, Nat.zero_le _, nofun⟩

end Sys2Proof.Machine

open Sys2Proof Sys2Proof.Machine

/-- Settles O7: a busy block drops the write, an idle one issues the command. -/
theorem issueFrame : Obligations.IssueFrame := by
  intro i s t h
  split
  · rename_i hb
    exact (Host.Outcome.next.inj ((exec_of_busy hb).symm.trans h)).symm
  · rename_i hb
    exact exec_issuedFrom (eq_false_of_ne_true hb) h

/-- Settles O8: an error writes no result; the writes of a command that raises none are those of its own columns, and its
output fits the buffer it writes. -/
theorem completionFrame : Obligations.CompletionFrame := by
  intro i s t hb hexec
  obtain ⟨e, hdone⟩ := exec_completedFrom hb hexec
  refine ⟨hdone.operands, hdone.hostSide, hdone.dropped, hdone.cmd, hdone.busy, hdone.done, ?_⟩
  rcases exec_next hb hexec with ⟨ws, hres, rfl⟩ | ⟨k, _, rfl⟩
  · cases i with
    | b32enc =>
      obtain ⟨inp, hfits, hlen, _, rfl⟩ := b32encResult_ok.mp hres
      exact ⟨⟨rfl, rfl, rfl, rfl, rfl, rfl, rfl⟩,
        memKeptOutside_of_writeOutput rfl (length_base32Encode_le_doutMax (hlen ▸ hfits))⟩
    | b32dec =>
      obtain ⟨inp, hfits, hlen, _, rfl⟩ := b32decResult_ok.mp hres
      exact ⟨⟨rfl, rfl, rfl, rfl, rfl, rfl, rfl⟩,
        memKeptOutside_of_writeOutput rfl (length_base32Decode_le_doutMax (hlen ▸ hfits))⟩
    | trunc =>
      obtain ⟨inp, v, r, _, _, hhi, _, _, hcode, rfl⟩ := truncResult_ok.mp hres
      exact ⟨⟨rfl, rfl, rfl, rfl, rfl, rfl, rfl⟩, memKeptOutside_code hhi hcode⟩
    | hotpgen =>
      obtain ⟨sec, a, v, r, _, _, _, _, hhi, _, _, _, hcode, rfl⟩ := hotpgenResult_ok.mp hres
      exact ⟨⟨rfl, rfl, rfl, rfl, rfl, rfl, rfl⟩, memKeptOutside_code hhi hcode⟩
    | totpgen =>
      obtain ⟨sec, a, v, r, _, _, _, _, _, hhi, _, _, _, hcode, rfl⟩ := totpgenResult_ok.mp hres
      exact ⟨⟨rfl, rfl, rfl, rfl, rfl, rfl, rfl⟩, memKeptOutside_code hhi hcode⟩
    | hotpver =>
      obtain ⟨sec, tok, a, found, _, _, _, _, _, _, _, _, _, _, _, _, rfl⟩ := hotpverResult_ok.mp hres
      exact ⟨⟨rfl, rfl, rfl, rfl, rfl, rfl, rfl⟩, rfl⟩
    | totpver =>
      obtain ⟨sec, tok, a, found, _, _, _, _, _, _, _, _, _, _, _, _, rfl⟩ := totpverResult_ok.mp hres
      exact ⟨⟨rfl, rfl, rfl, rfl, rfl, rfl, rfl⟩, rfl⟩
    | tstep =>
      obtain ⟨_, rfl⟩ := tstepResult_ok.mp hres
      exact ⟨⟨rfl, rfl, rfl, rfl, rfl, rfl, rfl⟩, rfl⟩
    | trem =>
      obtain ⟨_, rfl⟩ := tremResult_ok.mp hres
      exact ⟨⟨rfl, rfl, rfl, rfl, rfl, rfl, rfl⟩, rfl⟩
  · cases i with
    | b32enc | b32dec | trunc | hotpgen | totpgen => exact ⟨⟨rfl, rfl, rfl, rfl, rfl, rfl, rfl⟩, fun _ _ => rfl⟩
    | hotpver | totpver | tstep | trem => exact ⟨⟨rfl, rfl, rfl, rfl, rfl, rfl, rfl⟩, rfl⟩

/-- Settles O10: a meaning is the write of a word whose evaluation can stop only at an unwritten byte. -/
theorem meaningsStopOnlyOnUnwrittenBytes : Obligations.MeaningsStopOnlyOnUnwrittenBytes := by
  intro i s
  rw [exec_eq]
  exact issueCommand_stops (.commandResult i)

/-- Settles O11: the read of the operand stops at its first unwritten byte, and the checks before it pass. -/
theorem unwrittenInputStopsTheCommand : Obligations.UnwrittenInputStopsTheCommand := by
  intro alg digits s k hb
  have stops {i : Instr} {a : Nat} (h : commandResult i s = .error (.uninit a)) : exec i s = .fault (.uninitRead a) :=
    exec_of_uninit hb h
  refine ⟨fun hk hfits hnone => ?_, fun hk hfits hnone hlo hhi => ?_, fun hk htfits hnone hlo hhi halg sec hsec => ?_⟩
  · obtain ⟨a, halo, hahi, ha, hread⟩ := readBuf_of_unwritten (b := .din) hk hnone
    exact ⟨a, halo, hahi, ha, stops (b32encResult_of_unread hfits hread), stops (b32decResult_of_unread hfits hread),
      fun hlo hhi => stops (truncResult_error.mpr (.inr ⟨hfits, .inr ⟨⟨hlo, hhi⟩, .inl hread⟩⟩))⟩
  · obtain ⟨x, hxlo, hxhi, hx, hread⟩ := readBuf_of_unwritten (b := .secret) hk hnone
    have hne : s.secretLen ≠ 0 := fun hzero =>
      Nat.not_lt_zero k (Nat.lt_of_lt_of_eq hk (congrArg BitVec.toNat hzero))
    refine ⟨x, hxlo, hxhi, hx, fun hctr => ?_, fun hctr htok halg => ?_, fun hp hts => ?_, fun hp htok halg => ?_⟩
    · exact stops (hotpgenResult_error.mpr (.inr ⟨hfits, .inr ⟨hne, .inr ⟨hctr, .inr ⟨⟨hlo, hhi⟩, .inl hread⟩⟩⟩⟩))
    · obtain ⟨a, ha⟩ := exists_algCode halg
      exact stops (hotpverResult_error.mpr (.inr ⟨hfits, .inr ⟨htok, .inr ⟨hne, .inr ⟨hctr, .inr ⟨⟨hlo, hhi⟩,
        .inr ⟨a, ha, .inl hread⟩⟩⟩⟩⟩⟩))
    · exact stops (totpgenResult_error.mpr (.inr ⟨hfits, .inr ⟨hp, .inr ⟨hne,
        .inr ⟨(timeStep_nonneg_iff hp).mpr hts, .inr ⟨⟨hlo, hhi⟩, .inl hread⟩⟩⟩⟩⟩))
    · obtain ⟨a, ha⟩ := exists_algCode halg
      exact stops (totpverResult_error.mpr (.inr ⟨hfits, .inr ⟨htok, .inr ⟨hp, .inr ⟨hne, .inr ⟨⟨hlo, hhi⟩,
        .inr ⟨a, ha, .inl hread⟩⟩⟩⟩⟩⟩))
  · obtain ⟨x, hxlo, hxhi, hx, hread⟩ := readBuf_of_unwritten (b := .token) hk hnone
    obtain ⟨a, ha⟩ := exists_algCode halg
    have hfits : s.secretLen.toNat ≤ s.cfg.secretMax := hsec.len ▸ hsec.fits
    refine ⟨x, hxlo, hxhi, hx, fun hctr => ?_, fun hp => ?_⟩
    · exact stops (hotpverResult_error.mpr (.inr ⟨hfits, .inr ⟨htfits, .inr ⟨hsec.secretLen_ne_zero, .inr ⟨hctr,
        .inr ⟨⟨hlo, hhi⟩, .inr ⟨a, ha, .inr ⟨sec, hsec.operand, .inl hread⟩⟩⟩⟩⟩⟩⟩))
    · exact stops (totpverResult_error.mpr (.inr ⟨hfits, .inr ⟨htfits, .inr ⟨hp, .inr ⟨hsec.secretLen_ne_zero,
        .inr ⟨⟨hlo, hhi⟩, .inr ⟨a, ha, .inr ⟨sec, hsec.operand, .inl hread⟩⟩⟩⟩⟩⟩⟩))

/-- Settles O49: at reset the input is empty, the secret is empty and the period is 0, so each command meets its first
check that these fail. -/
theorem commandsAtReset : Obligations.CommandsAtReset := by
  intro alg digits
  obtain ⟨hlen, hfits, hholds⟩ := dinReady_reset
  have hsecret : State.reset.secretLen.toNat ≤ State.reset.cfg.secretMax := Nat.zero_le _
  have htoken : State.reset.tokenLen.toNat ≤ 16 := Nat.zero_le _
  have hperiod : periodSeconds State.reset ≤ 0 := Int.le_refl 0
  refine ⟨⟨_, exec_of_ok rfl (b32encResult_ok.mpr ⟨[], hfits, hlen, hholds, rfl⟩), rfl, rfl⟩,
    ⟨_, exec_of_ok rfl (b32decResult_ok.mpr ⟨[], hfits, hlen, hholds, rfl⟩), rfl, rfl⟩, ?_, ?_, ?_, ?_, ?_, ?_, ?_⟩
  · split
    · rename_i hdigits
      exact rejects_of_err rfl (truncResult_error.mpr (.inr ⟨hfits, .inr ⟨hdigits, .inr ⟨[],
        dinOperand_ok.mpr ⟨hlen, hholds⟩, _, truncate_nil digits, rfl⟩⟩⟩)) rfl
    · rename_i hdigits
      exact rejects_of_err rfl (truncResult_error.mpr (.inr ⟨hfits, .inl ⟨by omega, rfl⟩⟩)) rfl
  · exact rejects_of_err rfl (hotpgenResult_error.mpr (.inr ⟨hsecret, .inl ⟨rfl, rfl⟩⟩)) rfl
  · exact rejects_of_err rfl (hotpverResult_error.mpr (.inr ⟨hsecret, .inr ⟨htoken, .inl ⟨rfl, rfl⟩⟩⟩)) rfl
  · exact rejects_of_err rfl (totpgenResult_error.mpr (.inr ⟨hsecret, .inl ⟨hperiod, rfl⟩⟩)) rfl
  · exact rejects_of_err rfl (totpverResult_error.mpr (.inr ⟨hsecret, .inr ⟨htoken, .inl ⟨hperiod, rfl⟩⟩⟩)) rfl
  · exact rejects_of_err rfl (tstepResult_invalidPeriod hperiod) rfl
  · exact rejects_of_err rfl (tremResult_invalidPeriod hperiod) rfl

end

section
/-! The host bus: which addresses are mapped, what a register read gives, where an access stops, and accesses while a command
is in flight (10_state.md R33, R36, R42; 20_memory.md R51-R59). -/

namespace Sys2Proof.Machine

/-! ### The address map -/

/-- The word addresses of the registers (R55). -/
theorem exists_regOffset_iff {n : Nat} (hn : n % 4 = 0) :
    (∃ r, regOffset r = n) ↔ n ≤ 0x2C ∨ (0x40 ≤ n ∧ n ≤ 0x64) := by
  constructor
  · rintro ⟨r, rfl⟩
    cases r <;> decide
  · intro h
    have hmap : ∀ m < 26, m ≤ 11 ∨ 16 ≤ m → ∃ r ∈ allRegs, regOffset r = 4 * m := by decide
    obtain ⟨r, _, hr⟩ := hmap (n / 4) (by omega) (by omega)
    exact ⟨r, by omega⟩

theorem inBuf_iff {p : Params} {b : Buf} {a : Nat} :
    inBuf p b a = true ↔ bufBase b ≤ a ∧ a < bufBase b + bufCap p b := by
  simp only [inBuf, Bool.and_eq_true, decide_eq_true_eq]

/-- The mapped ranges of the five buffers (R56). -/
theorem exists_inBuf_iff {p : Params} {a : Nat} :
    (∃ b, inBuf p b a = true) ↔
      (0x1000 ≤ a ∧ a < 0x1000 + p.secretMax) ∨ (0x2000 ≤ a ∧ a < 0x2010) ∨ (0x3000 ≤ a ∧ a < 0x3000 + p.dinMax) ∨
      (0x4000 ≤ a ∧ a < 0x4000 + 8 * ((p.dinMax + 4) / 5)) ∨ (0x5000 ≤ a ∧ a < 0x500C) := by
  simp only [inBuf_iff]
  constructor
  · rintro ⟨b, h⟩
    cases b with
    | secret => exact .inl h
    | token => exact .inr (.inl h)
    | din => exact .inr (.inr (.inl h))
    | dout => exact .inr (.inr (.inr (.inl h)))
    | code => exact .inr (.inr (.inr (.inr h)))
  · rintro (h | h | h | h | h)
    · exact ⟨.secret, h⟩
    · exact ⟨.token, h⟩
    · exact ⟨.din, h⟩
    · exact ⟨.dout, h⟩
    · exact ⟨.code, h⟩

/-- An access reaches a target exactly when it is an aligned word at a register's or a buffer's address (R52). -/
theorem busTarget_isSome_iff {p : Params} {a : BitVec 16} {w : AccessWidth} :
    (busTarget p a w).isSome ↔
      w = .word ∧ a.toNat % 4 = 0 ∧ ((∃ r, regOffset r = a.toNat) ∨ ∃ b, inBuf p b a.toNat = true) := by
  rw [← mappedTarget_isSome, busTarget]
  split
  · rename_i h
    exact ⟨fun hsome => ⟨h.1, h.2, hsome⟩, fun hsome => hsome.2.2⟩
  · rename_i h
    exact iff_of_false nofun fun hsome => h ⟨hsome.1, hsome.2.1⟩

/-! ### Where an access stops -/

section
variable {s : State} {a : BitVec 16} {w : AccessWidth} {v : Word}

theorem hostRead_of_none (h : busTarget s.cfg a w = none) : hostRead a w s = .error (.busError false a w) := by
  simp only [hostRead, h]

theorem hostWrite_of_none (h : busTarget s.cfg a w = none) : hostWrite a w v s = .fault (.busError true a w) := by
  simp only [hostWrite, h]

theorem hostRead_of_isSome (h : (busTarget s.cfg a w).isSome) : ∃ x, hostRead a w s = .ok x := by
  obtain ⟨x, hx⟩ := Option.isSome_iff_exists.mp h
  simp only [hostRead, hx]
  exact ⟨_, rfl⟩

theorem writeCmd_stops (c : Word) (s : State) :
    (∃ t, writeCmd c s = .next t) ∨ ∃ x, writeCmd c s = .fault (.uninitRead x) ∧ memGet s.mem x = none := by
  have stops {c : Word} {r : Except Stop Writes} (h : FaultsOnUnwritten s r) :
      (∃ t, issueCommand c r s = .next t) ∨
        ∃ x, issueCommand c r s = .fault (.uninitRead x) ∧ memGet s.mem x = none :=
    (issueCommand_stops h).imp_right fun ⟨x, hf, hx, _⟩ => ⟨x, hf, hx⟩
  unfold writeCmd
  split
  · rename_i i _
    rw [exec_eq]
    exact stops (.commandResult i)
  · exact stops (.raise _)

/-- A write that reaches a target goes on, or is that of a command that reads an unwritten byte. -/
theorem hostWrite_stops (h : (busTarget s.cfg a w).isSome) :
    (∃ t, hostWrite a w v s = .next t) ∨ ∃ x, hostWrite a w v s = .fault (.uninitRead x) ∧ memGet s.mem x = none := by
  obtain ⟨x, hx⟩ := Option.isSome_iff_exists.mp h
  simp only [hostWrite, hx]
  split
  · exact .inl ⟨_, rfl⟩
  · split
    · exact writeCmd_stops v s
    · exact .inl ⟨_, rfl⟩
    · exact .inl ⟨_, rfl⟩

end

/-! ### What a register read gives -/

theorem toNat_flagBit (b : Bool) : (flagBit b).toNat = b.toNat := BitVec.toNat_ofBool b

/-- Appending puts one word above the other. -/
theorem toNat_append_eq_add {m n : Nat} (x : BitVec m) (y : BitVec n) : (x ++ y).toNat = 2 ^ n * x.toNat + y.toNat := by
  rw [BitVec.toNat_append, ← Nat.shiftLeft_add_eq_or_of_lt y.isLt, Nat.shiftLeft_eq, Nat.mul_comm]

theorem toNat_statusWord (s : State) :
    (statusWord s).toNat = s.busy.toNat + 2 * s.done.toNat + 16 * s.err.toNat + 256 * s.dropped.toNat := by
  simp only [statusWord, toNat_append_eq_add, toNat_flagBit, BitVec.ofNat_eq_ofNat, BitVec.toNat_ofNat, Nat.zero_mod]
  omega

theorem toNat_resFlagsWord (s : State) : (resFlagsWord s).toNat = s.success.toNat := by
  simp only [resFlagsWord, toNat_append_eq_add, toNat_flagBit, BitVec.ofNat_eq_ofNat, BitVec.toNat_ofNat, Nat.zero_mod,
    Nat.mul_zero, Nat.zero_add]

theorem toNat_lowWord (x : BitVec 64) : (x.extractLsb' 0 32).toNat = x.toNat % 2 ^ 32 := BitVec.extractLsb'_toNat 0 32 x

theorem toNat_highWord (x : BitVec 64) : (x.extractLsb' 32 32).toNat = x.toNat / 2 ^ 32 := by
  have hx := x.isLt
  rw [BitVec.extractLsb'_toNat, Nat.shiftRight_eq_div_pow]
  omega

/-- A register reads as its fields at their bits (R42). -/
theorem regReads_readReg (r : Reg) (s : State) : RegReads s r (readReg r s) := by
  cases r with
  | status => exact toNat_statusWord s
  | resFlags => exact toNat_resFlagsWord s
  | ctrExt | secretLen | tokenLen | dinLen => exact BitVec.toNat_setWidth_of_le (by decide)
  | deltaLo | rctrLo | remLo => exact toNat_lowWord _
  | deltaHi | rctrHi | remHi => exact toNat_highWord _
  | cmd | ctrLo | ctrHi | window | period | tsLo | tsHi | codeVal | codeLen | doutLen => exact rfl

/-- Each bit of STATUS (R33). -/
theorem getLsbD_statusWord (s : State) (n : Nat) :
    (statusWord s).getLsbD n =
      if n = 0 then s.busy else if n = 1 then s.done
      else if 4 ≤ n ∧ n ≤ 7 then s.err.getLsbD (n - 4) else n == 8 && s.dropped := by
  have hflag (b : Bool) (k : Nat) : (flagBit b).getLsbD k = (decide (k = 0) && b) := by
    cases b <;> cases k <;> simp [flagBit]
  simp only [statusWord, BitVec.getLsbD_append, hflag, BitVec.ofNat_eq_ofNat, BitVec.getLsbD_zero]
  obtain rfl | rfl | rfl | rfl | ⟨k, hk, rfl⟩ | rfl | h : n = 0 ∨ n = 1 ∨ n = 2 ∨ n = 3 ∨ (∃ k < 4, n = k + 4) ∨ n = 8 ∨
      9 ≤ n := by
    by_cases h : 4 ≤ n ∧ n ≤ 7
    · exact .inr (.inr (.inr (.inr (.inl ⟨n - 4, by omega, by omega⟩))))
    · omega
  iterate 4 rfl
  · simp [hk, show k + 4 ≤ 7 by omega]
  · rfl
  · have h8 : (n == 8) = false := beq_false_of_ne (by omega)
    simp (disch := omega) only [if_neg, h8, Bool.false_and]

end Sys2Proof.Machine

open Sys2Proof Sys2Proof.Machine

/-- Settles O43: the mapped words are the registers' and the buffers'; an access of another address or width reaches no
target, and an access that does is stopped by a command's evaluation at most. -/
theorem busErrorsExactly : Obligations.BusErrorsExactly := by
  intro s a w v
  have hmapped : (busTarget s.cfg a w).isSome ↔ w = .word ∧ a.toNat % 4 = 0 ∧
      ((∃ r, regOffset r = a.toNat) ∨ ∃ b, inBuf s.cfg b a.toNat = true) := busTarget_isSome_iff
  split
  · rename_i hbad
    have hnone : busTarget s.cfg a w = none := by
      rw [← Option.not_isSome_iff_eq_none, hmapped]
      rintro ⟨hw, halign, hmap⟩
      rw [exists_regOffset_iff halign, exists_inBuf_iff, or_assoc] at hmap
      exact hbad.elim (absurd hw) fun h => h.elim (absurd halign) (absurd hmap)
    exact ⟨hostRead_of_none hnone, hostWrite_of_none hnone⟩
  · rename_i hgood
    obtain ⟨hw, hgood⟩ := not_or.mp hgood
    obtain ⟨halign, hmap⟩ := not_or.mp hgood
    replace halign := Decidable.not_not.mp halign
    rw [Classical.not_not, ← or_assoc, ← exists_regOffset_iff halign, ← exists_inBuf_iff] at hmap
    have hsome := hmapped.mpr ⟨Decidable.not_not.mp hw, halign, hmap⟩
    refine ⟨hostRead_of_isSome hsome, fun f hf => ?_⟩
    rcases hostWrite_stops (v := v) hsome with ⟨t, ht⟩ | ⟨x, hx, _⟩
    · exact nomatch hf.symm.trans ht
    · exact ⟨x, Host.Outcome.fault.inj (hf.symm.trans hx)⟩

/-- Settles O45: a read that succeeds changes the observation and the free-value counter only; of a register it gives the
fields, which it leaves as they are. -/
theorem readsHaveNoSideEffect : Obligations.ReadsHaveNoSideEffect := by
  refine ⟨fun p => ?_, fun s t a w v h => ?_⟩
  · simp only [List.forall_mem_cons, List.not_mem_nil, false_implies, implies_true, and_true]
    exact ⟨busTarget_reg p .cmd, busTarget_reg p .status, busTarget_reg p .ctrLo, busTarget_reg p .ctrHi,
      busTarget_reg p .ctrExt, busTarget_reg p .window, busTarget_reg p .period, busTarget_reg p .tsLo,
      busTarget_reg p .tsHi, busTarget_reg p .secretLen, busTarget_reg p .tokenLen, busTarget_reg p .dinLen,
      busTarget_reg p .codeVal, busTarget_reg p .codeLen, busTarget_reg p .resFlags, busTarget_reg p .deltaLo,
      busTarget_reg p .deltaHi, busTarget_reg p .rctrLo, busTarget_reg p .rctrHi, busTarget_reg p .remLo,
      busTarget_reg p .remHi, busTarget_reg p .doutLen⟩
  · obtain ⟨x, n, hx, hv, rfl⟩ := hostRead_ok h
    refine ⟨rfl, fun r hr => ?_⟩
    obtain rfl : x = .reg r := Option.some.inj (hx.symm.trans hr)
    have hreg : v = readReg r s := hv
    have hagain : hostRead a w { s with draws := n, observed := s.observed ++ [v] } =
        .ok (v, { s with draws := n, observed := s.observed ++ [v] ++ [v] }) := by
      have hsame : readReg r { s with draws := n, observed := s.observed ++ [v] } = v := hreg ▸ by cases r <;> rfl
      simp only [hostRead, hr, readTarget, hsame]
    exact ⟨hreg, hreg ▸ regReads_readReg r s, _, hagain⟩

/-- Settles O46: STATUS is its flags and ERR put together, with reserved bits between them. -/
theorem statusBits : Obligations.StatusBits := getLsbD_statusWord

end

section
/-! A step of the machine: the shape of an invariant that every operation keeps, what changes results and output buffers, and
where a step stops (10_state.md R36, R44; 60_exceptions.md R215; 70_reset_and_hazards.md R231). -/

namespace Sys2Proof.Machine

/-! ### Invariants of a step -/

/-- What completion can do: nothing without a command in flight; else error entry or the commit of its writes, and the end of
the command's life (R44). -/
theorem complete_cases (s : State) :
    (s.inflight = none ∧ complete s = s) ∨
    (∃ c k, s.inflight = some (c, .error k) ∧
      complete s = { enterError k s with done := true, inflight := none, delay := 0 }) ∨
    (∃ c ws, s.inflight = some (c, .ok ws) ∧
      complete s = { commit ws { s with err := 0 } with done := true, inflight := none, delay := 0 }) := by
  rcases hf : s.inflight with _ | ⟨c, k | ws⟩
  · exact .inl ⟨rfl, by simp only [complete, hf]⟩
  · exact .inr (.inl ⟨c, k, rfl, complete_of_inflight_error hf⟩)
  · exact .inr (.inr ⟨c, ws, rfl, by simp only [complete, hf, applyOutcome]⟩)

/-- A property that every operation a step can do keeps. -/
structure StepInvariant (P : State → Prop) : Prop where
  kept : ∀ {s t}, BlockKept s t → P s → P t
  complete : ∀ {s}, P s → P (complete s)
  reset : ∀ {s}, P s → P (resetBlock s)
  drop : ∀ {s}, P s → P (dropWrite s)
  issueOk : ∀ {s i c ws}, commandResult i s = .ok ws → P s → P (issued c (.ok ws) s)
  issueError : ∀ {s c k}, P s → P (issued c (.error k) s)
  writeReg : ∀ {s r v}, s.busy = false → P s → P (writeReg r v s)
  writeBuf : ∀ {s b k v}, bufWritable b = true → k < bufCap s.cfg b → (bufBase b + k) % 4 = 0 → P s →
    P { s with mem := memSetBytes s.mem (bufBase b + k) (wordBytes v) }

theorem blockKept_setHost (s : State) (ops : List HostOp) : BlockKept s { s with host := ops } := by
  constructor <;> first | rfl | (constructor <;> rfl)

/-- The state an operation of the host runs in: one step of the delay has passed, and `rest` is what the host does later. -/
def hostView (s : State) (rest : List HostOp) : State := { tick s with host := rest }

theorem blockKept_hostView (s : State) (rest : List HostOp) : BlockKept s (hostView s rest) :=
  (blockKept_tick s).trans (blockKept_setHost _ rest)

theorem StepInvariant.step {P : State → Prop} (h : StepInvariant P) {s t : State} (hs : P s)
    (hstep : step s = .next t) : P t := by
  rcases step_next hstep with ⟨_, rfl⟩ | ⟨_, hkept | ⟨rest, _, rfl⟩ | ⟨a, w, v, rest, _, hwrite⟩⟩
  · exact h.complete hs
  · exact h.kept hkept hs
  · exact h.reset (h.kept (blockKept_hostView s rest) hs)
  · have hs' := h.kept (blockKept_hostView s rest) hs
    rcases hostWrite_next hwrite with ⟨_, rfl⟩ | ⟨hb, ⟨c, ws, i, hres, rfl⟩ | ⟨c, k, rfl⟩ | ⟨r, rfl⟩ |
      ⟨b, k, hw, hk, halign, rfl⟩ | rfl⟩
    · exact h.drop hs'
    · exact h.issueOk hres hs'
    · exact h.issueError hs'
    · exact h.writeReg hb hs'
    · exact h.writeBuf hw hk halign hs'
    · exact hs'

/-! ### Memory, STATUS and the configuration -/

theorem complete_mem_wf {s : State} (h : s.mem.wf) : (complete s).mem.wf := by
  rcases complete_cases s with ⟨_, hc⟩ | ⟨c, k, _, hc⟩ | ⟨c, ws, _, hc⟩
  · rwa [hc]
  · rwa [hc]
  · rw [hc]
    exact wf_commitMem s.cfg ws h

theorem stepInvariant_memWf : StepInvariant (fun s => s.mem.wf) where
  kept hkept h := hkept.mem ▸ h
  complete h := complete_mem_wf h
  reset _ := wf_nil
  drop h := h
  issueOk _ h := h
  issueError h := h
  writeReg _ h := (writeReg_mem _ _ _).symm ▸ h
  writeBuf _ _ _ h := wf_memSetBytes _ _ h

/-- No error code is a reserved one (R200). -/
theorem errCode_le (k : ErrKind) : (errCode k).toNat ≤ 8 := by cases k <;> decide

theorem statusInv_issued (c : Word) (o : CmdOutcome) (s : State) : StatusInv (issued c o s) :=
  ⟨Nat.zero_le 8, fun _ _ h => ⟨rfl, rfl, (congrArg Prod.fst (Option.some.inj h)).symm⟩⟩

/-- With no command in flight STATUS is consistent as soon as ERR holds no reserved code. -/
theorem statusInv_of_idle {s : State} (herr : s.err.toNat ≤ 8) (hf : s.inflight = none) : StatusInv s :=
  ⟨herr, fun _ _ h => nomatch hf.symm.trans h⟩

theorem statusInv_congr {s t : State} (herr : t.err = s.err) (hdone : t.done = s.done) (hcmd : t.cmd = s.cmd)
    (hf : t.inflight = s.inflight) (h : StatusInv s) : StatusInv t := by
  unfold StatusInv
  rw [herr, hdone, hcmd, hf]
  exact h

theorem statusInv_complete {s : State} (h : StatusInv s) : StatusInv (complete s) := by
  rcases complete_cases s with ⟨_, hc⟩ | ⟨c, k, _, hc⟩ | ⟨c, ws, _, hc⟩ <;> rw [hc]
  · exact h
  · exact statusInv_of_idle (errCode_le k) rfl
  · exact statusInv_of_idle (Nat.zero_le 8) rfl

theorem stepInvariant_statusInv : StepInvariant StatusInv where
  kept hkept h := statusInv_congr hkept.err hkept.done hkept.cmd hkept.inflight h
  complete h := statusInv_complete h
  reset _ := statusInv_of_idle (Nat.zero_le 8) rfl
  drop h := statusInv_congr rfl rfl rfl rfl h
  issueOk _ _ := statusInv_issued _ _ _
  issueError _ := statusInv_issued _ _ _
  writeReg _ h := statusInv_congr (writeReg_err _ _ _) (writeReg_done _ _ _) (writeReg_cmd _ _ _)
    (writeReg_inflight _ _ _) h
  writeBuf _ _ _ h := statusInv_congr rfl rfl rfl rfl h

theorem complete_cfg (s : State) : (complete s).cfg = s.cfg := by
  rcases complete_cases s with ⟨_, hc⟩ | ⟨c, k, _, hc⟩ | ⟨c, ws, _, hc⟩ <;> rw [hc] <;> rfl

theorem stepInvariant_cfg (p : Params) : StepInvariant (fun s => s.cfg = p) where
  kept hkept h := hkept.cfg.trans h
  complete h := (complete_cfg _).trans h
  reset h := h
  drop h := h
  issueOk _ h := h
  issueError h := h
  writeReg _ h := (writeReg_cfg _ _ _).trans h
  writeBuf _ _ _ h := h

/-! ### Results and output buffers between completions -/

/-- In a legal configuration the host-writable buffers lie below the output windows, each within its own window. -/
theorem writable_address_lt {p : Params} (hp : p.legal) {b : Buf} (hb : bufWritable b = true) {k : Nat}
    (hk : k < bufCap p b) : bufBase b + k < 0x4000 := by
  obtain ⟨_, _, hsecret, _, _, hdin, _⟩ := hp
  cases b with
  | secret | token | din => simp only [bufBase, bufCap, tokenMax] at hk ⊢; omega
  | dout | code => cases hb

/-- A host write to a buffer changes no byte of the output windows. -/
theorem memGet_writeWord_output {p : Params} (hp : p.legal) {b : Buf} (hb : bufWritable b = true) {k : Nat}
    (hk : k < bufCap p b) (halign : (bufBase b + k) % 4 = 0) (m : Memory) (v : Word) {a : Nat} (ha : 0x4000 ≤ a) :
    memGet (memSetBytes m (bufBase b + k) (wordBytes v)) a = memGet m a := by
  have hlt := writable_address_lt hp hb hk
  rw [memGet_writeWord, if_neg (by omega)]

theorem resultsKept_writeReg (r : Reg) (v : Word) (s : State) : ResultsKept s (writeReg r v s) :=
  ⟨writeReg_codeVal r v s, writeReg_codeLen r v s, writeReg_success r v s, writeReg_delta r v s, writeReg_rctr r v s,
    writeReg_rem r v s, writeReg_doutLen r v s⟩

/-- A host write leaves every result and every byte of the output windows as it was. -/
theorem hostWrite_keepsResults {s t : State} {a : BitVec 16} {w : AccessWidth} {v : Word} (hp : s.cfg.legal)
    (h : hostWrite a w v s = .next t) :
    ResultsKept s t ∧ ∀ x, 0x4000 ≤ x → memGet t.mem x = memGet s.mem x := by
  rcases hostWrite_next h with ⟨_, rfl⟩ | ⟨_, ⟨c, ws, i, _, rfl⟩ | ⟨c, k, rfl⟩ | ⟨r, rfl⟩ | ⟨b, k, hb, hk, halign, rfl⟩ | rfl⟩
  · exact ⟨⟨rfl, rfl, rfl, rfl, rfl, rfl, rfl⟩, fun _ _ => rfl⟩
  · exact ⟨⟨rfl, rfl, rfl, rfl, rfl, rfl, rfl⟩, fun _ _ => rfl⟩
  · exact ⟨⟨rfl, rfl, rfl, rfl, rfl, rfl, rfl⟩, fun _ _ => rfl⟩
  · exact ⟨resultsKept_writeReg r v s, fun x _ => congrArg (memGet · x) (writeReg_mem r v s)⟩
  · exact ⟨⟨rfl, rfl, rfl, rfl, rfl, rfl, rfl⟩, fun x hx => memGet_writeWord_output hp hb hk halign s.mem v hx⟩
  · exact ⟨⟨rfl, rfl, rfl, rfl, rfl, rfl, rfl⟩, fun _ _ => rfl⟩

/-! ### The host's turn -/

/-- The host moves while the block is idle or the delay has not passed. -/
theorem sequencerTurn_eq_false {s : State} (h : s.busy = false ∨ 0 < s.delay) : sequencerTurn s = false := by
  unfold sequencerTurn
  rcases h with hb | hd
  · rw [hb, Bool.false_and]
  · rw [beq_false_of_ne (Nat.ne_of_gt hd), Bool.and_false]

@[simp] theorem tick_host (s : State) : (tick s).host = s.host := by
  unfold tick
  split <;> rfl

/-- In the host's turn a step is its next operation. -/
theorem step_of_hostTurn {s : State} {op : HostOp} {rest : List HostOp} (hturn : sequencerTurn s = false)
    (hh : s.host = op :: rest) : step s = runHostOp op (hostView s rest) := by
  simp only [hostView, step, agentStep, hturn, Bool.false_eq_true, if_false, hostStep, tick_host, hh]

/-- With nothing to do, the host leaves the state alone. -/
theorem step_of_hostDone {s : State} (hturn : sequencerTurn s = false) (hh : s.host = []) : step s = .next (tick s) := by
  simp only [step, agentStep, hturn, Bool.false_eq_true, if_false, hostStep, tick_host, hh]

theorem rdRegs_status (s : State) :
    rdRegs [.status] s = .ok ([statusWord s], { s with observed := s.observed ++ [statusWord s] }) := rdRegs_one s .status

section
variable {s t : State}

theorem runHostOp_read {a : BitVec 16} {w : AccessWidth} {v : Word} (h : hostRead a w s = .ok (v, t)) :
    runHostOp (.read a w) s = .next t := by
  simp only [runHostOp, h]

/-- WAIT reads STATUS, and stays in the list while BUSY is 1 (R81). -/
theorem runHostOp_wait (s : State) :
    runHostOp .wait s = .next
      { s with host := if s.busy then .wait :: s.host else s.host, observed := s.observed ++ [statusWord s] } := by
  have hbusy : (statusWord s).getLsbD 0 = s.busy := getLsbD_statusWord s 0
  simp only [runHostOp, rdRegs_status, List.headD_cons, hbusy]
  cases s.busy <;> rfl

theorem runHostOp_wait_idle (hb : s.busy = false) :
    runHostOp .wait s = .next { s with observed := s.observed ++ [statusWord s] } := by
  rw [runHostOp_wait, hb]
  rfl

theorem runHostOp_call {c : Call} {ops : List HostOp} (h : expandCall s.cfg c = .ok ops) :
    runHostOp (.call c) s = .next { s with host := ops ++ .collect c :: s.host } := by
  simp only [runHostOp, h]

theorem runHostOp_collect {c : Call} {r : CallResult} (h : collect c s = .ok (r, t)) :
    runHostOp (.collect c) s = .next { t with returned := t.returned ++ [r] } := by
  simp only [runHostOp, h]

end

/-- A host operation stops only as R215 names. -/
theorem runHostOp_stops (op : HostOp) (s : State) :
    (∃ t, runHostOp op s = .next t) ∨ (∃ w a width, runHostOp op s = .fault (.busError w a width)) ∨
    (∃ a, runHostOp op s = .fault (.uninitRead a) ∧ memGet s.mem a = none) ∨
    (∃ arg, runHostOp op s = .refused (.operandOutOfRange arg)) := by
  cases op with
  | read a w =>
    cases h : hostRead a w s with
    | ok x => exact .inl ⟨_, runHostOp_read h⟩
    | error f =>
      obtain ⟨_, rfl⟩ := hostRead_error h
      exact .inr (.inl ⟨false, a, w, by simp only [runHostOp, h]⟩)
  | write a w v =>
    cases h : busTarget s.cfg a w with
    | none => exact .inr (.inl ⟨true, a, w, hostWrite_of_none h⟩)
    | some x =>
      exact (hostWrite_stops (Option.isSome_iff_exists.mpr ⟨x, h⟩)).imp_right fun hfault => .inr (.inl hfault)
  | wait => exact .inl ⟨_, runHostOp_wait s⟩
  | reset => exact .inl ⟨_, rfl⟩
  | call c =>
    cases h : expandCall s.cfg c with
    | ok ops => exact .inl ⟨_, runHostOp_call h⟩
    | error arg => exact .inr (.inr (.inr ⟨arg, by simp only [runHostOp, h]⟩))
  | collect c =>
    cases h : collect c s with
    | ok x => exact .inl ⟨_, runHostOp_collect h⟩
    | error f =>
      obtain ⟨a, rfl⟩ := collect_error h
      exact .inr (.inl ⟨false, a, .word, by simp only [runHostOp, h]⟩)

/-! ### Reset -/

theorem readReg_resetBlock (r : Reg) (s : State) : readReg r (resetBlock s) = 0 :=
  have hsame : readReg r (resetBlock s) = readReg r State.reset := by cases r <;> rfl
  hsame.trans (readReg_reset r)

theorem complete_of_idle {s : State} (h : s.inflight = none) : complete s = s := by
  simp only [complete, h]

/-! ### Accesses while a command is in flight -/

theorem readReg_hostView (r : Reg) (s : State) (rest : List HostOp) : readReg r (hostView s rest) = readReg r s := by
  unfold hostView tick
  split <;> cases r <;> rfl

theorem hostView_observed (s : State) (rest : List HostOp) : (hostView s rest).observed = s.observed := by
  unfold hostView tick
  split <;> rfl

end Sys2Proof.Machine

open Sys2Proof Sys2Proof.Machine

/-- Settles O50: every write of memory keeps the canonical form, and reset's memory has it. -/
theorem stepKeepsMemoryCanonical : Obligations.StepKeepsMemoryCanonical :=
  fun _ _ h hstep => stepInvariant_memWf.step h hstep

/-- Settles O51: issue sets the four fields together, completion ends the command's life, and nothing else touches them. -/
theorem stepKeepsStatusConsistent : Obligations.StepKeepsStatusConsistent :=
  fun _ _ h hstep => stepInvariant_statusInv.step h hstep

/-- Settles O54: no operation of a step writes the configuration. -/
theorem configurationNeverChanges : Obligations.ConfigurationNeverChanges :=
  fun s _ hstep => (stepInvariant_cfg s.cfg).step rfl hstep

/-- Settles O55: in the host's turn a step that is not a reset changes the host's side only or is a host write, which
reaches host-writable buffers at most. -/
theorem resultsChangeOnlyAtCompletion : Obligations.ResultsChangeOnlyAtCompletion := by
  intro s t hp hstep hturn hreset
  have hfalse := sequencerTurn_eq_false hturn
  rcases step_next hstep with ⟨htrue, _⟩ | ⟨_, hkept | ⟨rest, hh, _⟩ | ⟨a, w, v, rest, _, hwrite⟩⟩
  · exact nomatch hfalse.symm.trans htrue
  · exact ⟨hkept.results, fun a _ => congrArg (memGet · a) hkept.mem⟩
  · exact absurd (congrArg List.head? hh) hreset
  · have hkept := blockKept_hostView s rest
    obtain ⟨hresults, hmem⟩ := hostWrite_keepsResults (hkept.cfg ▸ hp) hwrite
    exact ⟨hkept.results.trans hresults, fun x hx => (hmem x hx).trans (congrArg (memGet · x) hkept.mem)⟩

/-- Settles O56: the completion goes on, as does a step with nothing to do; the host's operation stops only as named. -/
theorem stepStopsOnlyAsNamed : Obligations.StepStopsOnlyAsNamed := by
  intro s
  by_cases hturn : sequencerTurn s = true
  · exact .inl ⟨_, if_pos hturn⟩
  · replace hturn := eq_false_of_ne_true hturn
    rcases hh : s.host with _ | ⟨op, rest⟩
    · exact .inl ⟨_, step_of_hostDone hturn hh⟩
    · rw [step_of_hostTurn hturn hh, ← (blockKept_hostView s rest).mem]
      exact runHostOp_stops op _

/-- Settles O48: the step is the host's reset, which leaves every register at 0 and nothing to complete. -/
theorem resetAbandonsTheCommand : Obligations.ResetAbandonsTheCommand := by
  intro s rest hh hturn
  have hcfg : (tick s).cfg = s.cfg := (blockKept_tick s).cfg
  exact ⟨_, step_of_hostTurn (sequencerTurn_eq_false hturn) hh, rfl, rfl, fun r => readReg_resetBlock r _, rfl,
    complete_of_idle rfl, hcfg, rfl⟩

/-- Settles O44: in the host's turn the step is the access; a write to a busy block sets DROPPED alone, and a read gives what
the target holds. -/
theorem writeLockWhileBusy : Obligations.WriteLockWhileBusy := by
  intro s a v tgt rest hb hd hx
  have hturn := sequencerTurn_eq_false (.inr hd)
  have hkept := blockKept_hostView s rest
  have hx' : busTarget (hostView s rest).cfg a .word = some tgt := hkept.cfg ▸ hx
  refine ⟨fun hh => ?_, fun hh => ?_⟩
  · have hb' : (hostView s rest).busy = true := (congrArg Option.isSome hkept.inflight).trans hb
    have hstep : step s = .next (dropWrite (hostView s rest)) :=
      (step_of_hostTurn hturn hh).trans (hostWrite_busy hx' hb')
    exact ⟨_, hstep, rfl, hkept.inflight, hkept.cmd, hkept.err, hkept.done, { hkept.operands with },
      { hkept.results with }, hkept.mem⟩
  · obtain ⟨t, hread⟩ := hostRead_ok_of_target hx'
    obtain ⟨_, n, _, _, rfl⟩ := hostRead_ok hread
    have hstep := (step_of_hostTurn hturn hh).trans (runHostOp_read hread)
    refine ⟨_, hstep, hkept.inflight, { hkept.operands with }, { hkept.results with }, hkept.mem, ?_, ?_⟩
    · rintro r rfl
      exact ⟨congr (congrArg (· ++ [·]) (hostView_observed s rest)) (readReg_hostView r s rest), regReads_readReg r s⟩
    · rintro b k rfl b0 b1 b2 b3 h0 h1 h2 h3
      rw [← hkept.mem] at h0 h1 h2 h3
      exact congr (congrArg (· ++ [·]) (hostView_observed s rest)) (congrArg Prod.fst (readBufWord_written h0 h1 h2 h3))

end

section
/-! The results a command leaves: what each command's writes hold, what committing them does to the output buffers, and that
every step keeps the results consistent (10_state.md R29-R32). -/

namespace Sys2Proof.Machine

/-! ### The writes of a command -/

theorem codeOk_of_truncate {dig : Bytes} {d v : Nat} {r : Bytes} (hlo : 6 ≤ d) (hhi : d ≤ 10)
    (h : truncate dig d = .ok (v, r)) : CodeOk (codeWrite d v r).val (codeWrite d v r).len (codeWrite d v r).text := by
  obtain ⟨hbits, hwidth⟩ := truncate_lt h
  have hval : (codeWrite d v r).val.toNat = v := Nat.mod_eq_of_lt (Nat.lt_trans hbits (by decide))
  have hlen : (codeWrite d v r).len.toNat = d := Nat.mod_eq_of_lt (Nat.lt_of_le_of_lt hhi (by decide))
  rw [CodeOk, hval, hlen]
  exact ⟨hlo, hhi, hbits, hwidth, truncate_text h⟩

theorem verifyWrite_failed {found : Option Int} (h : (verifyWrite found).success = false) :
    (verifyWrite found).delta = 0 := by
  cases found with
  | none => rfl
  | some δ => cases h

/-- A period is at least a second, so a 64-bit timestamp in milliseconds has a step in R180's range. -/
theorem stepInRange_timeStep (ts : BitVec 64) {p : Int} (hp : 0 < p) :
    StepInRange (BitVec.ofInt 64 (timeStep ts.toInt p)) := by
  have hlo : -2 ^ 63 ≤ ts.toInt := BitVec.le_toInt ts
  have hhi : ts.toInt < 2 ^ 63 := BitVec.toInt_lt
  rw [StepInRange, toInt_ofInt_timeStep ts hp]
  constructor
  · exact (Int.le_ediv_iff_mul_le (by omega)).mpr (by omega)
  · exact Int.lt_add_one_iff.mp (Int.ediv_lt_of_lt_mul (by omega) (by omega))

/-- REM stays within the longest period (R183). -/
theorem remInRange_timeRemaining (ts : Int) {p : Word} (hp : 0 < p.toInt) :
    1 ≤ (BitVec.ofInt 64 (timeRemaining ts p.toInt)).toNat ∧
      (BitVec.ofInt 64 (timeRemaining ts p.toInt)).toNat ≤ 1000 * (2 ^ 31 - 1) := by
  have hrem := toNat_ofInt_timeRemaining ts hp
  obtain ⟨hlo, hhi⟩ := timeRemaining_range ts hp
  have hmax : p.toInt < 2 ^ 31 := BitVec.toInt_lt
  omega

section
variable {p : Params} {step : Option (BitVec 64)}

theorem writesOk_dout {o : Bytes} (h : o.length ≤ doutMax p) : WritesOk p { dout := some o } :=
  ⟨nofun, nofun, nofun, nofun, fun _ ho => Option.some.inj ho ▸ h⟩

theorem writesOk_code {dig : Bytes} {d v : Nat} {r : Bytes} (hlo : 6 ≤ d) (hhi : d ≤ 10)
    (hcode : truncate dig d = .ok (v, r)) (hstep : ∀ n, step = some n → StepInRange n) :
    WritesOk p { code := some (codeWrite d v r), rctr := step } :=
  ⟨fun _ hc => Option.some.inj hc ▸ codeOk_of_truncate hlo hhi hcode, nofun, hstep, nofun, nofun⟩

theorem writesOk_verify {found : Option Int} (hstep : ∀ n, step = some n → StepInRange n) :
    WritesOk p { verify := some (verifyWrite found), rctr := step } :=
  ⟨nofun, fun _ hv => Option.some.inj hv ▸ verifyWrite_failed, hstep, nofun, nofun⟩

theorem writesOk_rctr (hstep : ∀ n, step = some n → StepInRange n) : WritesOk p { rctr := step } :=
  ⟨nofun, nofun, hstep, nofun, nofun⟩

theorem writesOk_rem {n : BitVec 64} (h : 1 ≤ n.toNat ∧ n.toNat ≤ 1000 * (2 ^ 31 - 1)) :
    WritesOk p { rem := some n } :=
  ⟨nofun, nofun, nofun, fun _ hn => Option.some.inj hn ▸ h, nofun⟩

end

/-- The writes of a command that raises no error are in range. -/
theorem writesOk_of_commandResult {i : Instr} {s : State} {ws : Writes} (h : commandResult i s = .ok ws) :
    WritesOk s.cfg ws := by
  have hstep (hp : 0 < periodSeconds s) (n : BitVec 64)
      (hn : some (BitVec.ofInt 64 (timeStep (timestampMillis s) (periodSeconds s))) = some n) : StepInRange n :=
    Option.some.inj hn ▸ stepInRange_timeStep (s.tsHi ++ s.tsLo) hp
  cases i with
  | b32enc =>
    obtain ⟨inp, hfits, hlen, _, rfl⟩ := b32encResult_ok.mp h
    exact writesOk_dout (length_base32Encode_le_doutMax (hlen ▸ hfits))
  | b32dec =>
    obtain ⟨inp, hfits, hlen, _, rfl⟩ := b32decResult_ok.mp h
    exact writesOk_dout (length_base32Decode_le_doutMax (hlen ▸ hfits))
  | trunc =>
    obtain ⟨_, _, _, _, hlo, hhi, _, _, hcode, rfl⟩ := truncResult_ok.mp h
    exact writesOk_code hlo hhi hcode nofun
  | hotpgen =>
    obtain ⟨_, _, _, _, _, _, _, hlo, hhi, _, _, _, hcode, rfl⟩ := hotpgenResult_ok.mp h
    exact writesOk_code hlo hhi hcode nofun
  | hotpver =>
    obtain ⟨_, _, _, _, _, _, _, _, _, _, _, _, _, _, _, _, rfl⟩ := hotpverResult_ok.mp h
    exact writesOk_verify nofun
  | totpgen =>
    obtain ⟨_, _, _, _, _, hp, _, _, hlo, hhi, _, _, _, hcode, rfl⟩ := totpgenResult_ok.mp h
    exact writesOk_code hlo hhi hcode (hstep hp)
  | totpver =>
    obtain ⟨_, _, _, _, _, _, hp, _, _, _, _, _, _, _, _, _, rfl⟩ := totpverResult_ok.mp h
    exact writesOk_verify (hstep hp)
  | tstep =>
    obtain ⟨hp, rfl⟩ := tstepResult_ok.mp h
    exact writesOk_rctr (hstep hp)
  | trem =>
    obtain ⟨hp, rfl⟩ := tremResult_ok.mp h
    exact writesOk_rem (remInRange_timeRemaining (timestampMillis s) hp)

/-! ### The output buffers after a commit -/

section
variable {p : Params} {ws : Writes} {x : Nat}

/-- Writing DOUT_MEM changes no byte of CODE_MEM's window or above. -/
theorem memGet_commitMem_of_ge (hp : p.legal) (hws : WritesOk p ws) (m : Memory) (hx : 0x5000 ≤ x) :
    memGet (commitMem p ws m) x = memGet (commitMem p { ws with dout := none } m) x := by
  have hwin := doutMax_le_window hp
  cases hdout : ws.dout with
  | none => simp only [commitMem, hdout]
  | some o =>
    have hlen := hws.dout o hdout
    have hbase : bufBase .dout + bufCap p .dout ≤ x := by
      show 0x4000 + doutMax p ≤ x
      omega
    have hfits : bufBase .dout + o.length ≤ x := Nat.le_trans (Nat.add_le_add_left hlen _) hbase
    simp only [commitMem, hdout, memGet_writeOutput, if_neg (fun h => Nat.not_lt.mpr hfits (And.right h)),
      if_neg (fun h => Nat.not_lt.mpr hbase (And.right h))]

/-- Writing CODE_MEM changes no byte below its window. -/
theorem memGet_commitMem_of_lt (m : Memory) (hx : x < 0x5000) :
    memGet (commitMem p ws m) x = memGet (commitMem p { ws with code := none } m) x := by
  have hbase : ¬ bufBase .code ≤ x := Nat.not_le.mpr hx
  cases hcode : ws.code with
  | none => simp only [commitMem, hcode]
  | some c =>
    cases hdout : ws.dout <;>
      simp only [commitMem, hcode, hdout, memGet_writeOutput, if_neg (fun h => hbase (And.left h))]

end

theorem outputHolds_congr {s t : State} {b : Buf} {cap : Nat} {bs : Bytes}
    (hmem : ∀ k, memGet t.mem (bufBase b + k) = memGet s.mem (bufBase b + k)) (h : OutputHolds s b cap bs) :
    OutputHolds t b cap bs := by
  obtain ⟨hlen, hholds, hzero⟩ := h
  exact ⟨hlen, fun k hk => (hmem k).trans (hholds k hk), fun k hlo hhi => (hmem k).trans (hzero k hlo hhi)⟩

/-! ### The invariant -/

/-- Where results and output windows are as they were, and the command in flight has writes in range, the results stay
consistent. -/
theorem resultInv_of_kept {s t : State} (h : ResultInv s) (hcfg : t.cfg = s.cfg) (hres : ResultsKept s t)
    (hmem : ∀ a, 0x4000 ≤ a → memGet t.mem a = memGet s.mem a)
    (hflight : ∀ c ws, t.inflight = some (c, .ok ws) → WritesOk s.cfg ws) : ResultInv t := by
  have hcode (k : Nat) : memGet t.mem (bufBase .code + k) = memGet s.mem (bufBase .code + k) :=
    hmem _ (Nat.le_add_right_of_le (by decide))
  refine ⟨hcfg ▸ h.legal, ?_, ?_, ?_, ?_, ?_, hcfg ▸ hflight⟩
  · rw [hres.codeVal, hres.codeLen]
    exact h.code.imp (fun ⟨hval, hlen, hout⟩ => ⟨hval, hlen, outputHolds_congr hcode hout⟩)
      fun ⟨text, hok, hout⟩ => ⟨text, hok, outputHolds_congr hcode hout⟩
  · rw [hres.success, hres.delta]
    exact h.verify
  · rw [hres.rctr]
    exact h.rctr
  · rw [hres.rem]
    exact h.rem
  · obtain ⟨hlen, hzero⟩ := h.dout
    rw [hres.doutLen, hcfg]
    exact ⟨hlen, fun k hlo hhi => (hmem _ (Nat.le_add_right_of_le (by decide))).trans (hzero k hlo hhi)⟩

/-- With memory empty an output buffer reads 0x00 throughout. -/
theorem outputHolds_nil_of_mem_nil {s : State} {b : Buf} {cap : Nat} (hmem : s.mem = []) (hb : bufWritable b = false)
    (hcap : cap ≤ 0x1000) : OutputHolds s b cap [] :=
  ⟨Nat.zero_le _, nofun, fun _ _ hk => hmem ▸ unlisted_output hb (Nat.lt_of_lt_of_le hk hcap)⟩

theorem resultInv_resetBlock {s : State} (hp : s.cfg.legal) : ResultInv (resetBlock s) := by
  obtain ⟨_, _, hzero⟩ := outputHolds_nil_of_mem_nil (s := resetBlock s) rfl rfl (doutMax_le_window hp) (b := .dout)
  exact {
    legal := hp
    code := .inl ⟨rfl, rfl, outputHolds_nil_of_mem_nil rfl rfl (by decide)⟩
    verify := fun _ => rfl
    rctr := show StepInRange 0 from ⟨by decide, by decide⟩
    rem := Nat.zero_le _
    dout := ⟨Nat.zero_le _, hzero⟩
    inflight := nofun }

/-- The code registers and CODE_MEM after a commit: the code written, or what was there. -/
theorem code_commit {s u : State} {ws : Writes} (h : ResultInv s) (hws : WritesOk s.cfg ws)
    (hval : u.codeVal = (ws.code.map (·.val)).getD s.codeVal) (hlen : u.codeLen = (ws.code.map (·.len)).getD s.codeLen)
    (hmem : u.mem = commitMem s.cfg ws s.mem) :
    (u.codeVal = 0 ∧ u.codeLen = 0 ∧ OutputHolds u .code 12 []) ∨
      ∃ text, CodeOk u.codeVal u.codeLen text ∧ OutputHolds u .code 12 text := by
  have hwindow (k : Nat) : memGet u.mem (bufBase .code + k) =
      memGet (commitMem s.cfg { ws with dout := none } s.mem) (bufBase .code + k) :=
    hmem ▸ memGet_commitMem_of_ge h.legal hws s.mem (Nat.le_add_right _ k)
  cases hc : ws.code with
  | none =>
    simp only [hc, commitMem] at hwindow
    rw [hval, hlen, hc]
    exact h.code.imp (fun ⟨hval, hlen, hout⟩ => ⟨hval, hlen, outputHolds_congr hwindow hout⟩)
      fun ⟨text, hok, hout⟩ => ⟨text, hok, outputHolds_congr hwindow hout⟩
  | some c =>
    simp only [hc, commitMem] at hwindow
    have hok := hws.code c hc
    obtain ⟨_, hwidth, _, _, htext⟩ := hok
    have hfits : c.text.length ≤ 12 := by
      rw [htext, renderDigits_length]
      omega
    have hout : OutputHolds { s with mem := writeOutput s.cfg s.mem .code c.text } .code 12 c.text :=
      outputHolds_of_writeOutput rfl rfl (show 12 ≤ 0x1000 by decide) hfits
    rw [hval, hlen, hc]
    exact .inr ⟨c.text, hws.code c hc, outputHolds_congr hwindow hout⟩

/-- DOUT_LEN and DOUT_MEM after a commit: the output written and then 0x00, or what was there. -/
theorem dout_commit {s u : State} {ws : Writes} (h : ResultInv s) (hws : WritesOk s.cfg ws)
    (hlen : u.doutLen = (ws.dout.map (fun o => BitVec.ofNat 32 o.length)).getD s.doutLen)
    (hmem : u.mem = commitMem s.cfg ws s.mem) :
    u.doutLen.toNat ≤ doutMax s.cfg ∧
      ∀ k, u.doutLen.toNat ≤ k → k < doutMax s.cfg → memGet u.mem (bufBase .dout + k) = some 0 := by
  have hwin := doutMax_le_window h.legal
  have hwindow (k : Nat) (hk : k < doutMax s.cfg) : memGet u.mem (bufBase .dout + k) =
      memGet (commitMem s.cfg { ws with code := none } s.mem) (bufBase .dout + k) :=
    hmem ▸ memGet_commitMem_of_lt s.mem (show 0x4000 + k < 0x5000 by omega)
  cases ho : ws.dout with
  | none =>
    simp only [ho, commitMem] at hwindow
    obtain ⟨hfits, hzero⟩ := h.dout
    rw [hlen, ho]
    exact ⟨hfits, fun k hlo hhi => (hwindow k hhi).trans (hzero k hlo hhi)⟩
  | some o =>
    simp only [ho, commitMem] at hwindow
    have hfits := hws.dout o ho
    have hcount : u.doutLen.toNat = o.length := by
      rw [hlen, ho, Option.map_some, Option.getD_some, BitVec.toNat_ofNat, Nat.mod_eq_of_lt (by omega)]
    obtain ⟨_, _, hzero⟩ : OutputHolds { s with mem := writeOutput s.cfg s.mem .dout o } .dout (doutMax s.cfg) o :=
      outputHolds_of_writeOutput rfl rfl hwin hfits
    rw [hcount]
    exact ⟨hfits, fun k hlo hhi => (hwindow k hhi).trans (hzero k hlo hhi)⟩

/-- SUCCESS and DELTA after a commit: those written, or those there. -/
theorem verify_commit {s u : State} {ws : Writes} (h : ResultInv s) (hws : WritesOk s.cfg ws)
    (hsuccess : u.success = (ws.verify.map (·.success)).getD s.success)
    (hdelta : u.delta = (ws.verify.map (·.delta)).getD s.delta) : u.success = false → u.delta = 0 := by
  rw [hsuccess, hdelta]
  cases hv : ws.verify with
  | none => exact h.verify
  | some v => exact hws.verify v hv

/-- A field that a commit writes, or leaves, has what both the written value and the one there have. -/
theorem getD_of_forall {α : Type} {P : α → Prop} {o : Option α} {x : α} (hx : P x) (ho : ∀ y, o = some y → P y) :
    P (o.getD x) := by
  cases o with
  | none => exact hx
  | some y => exact ho y rfl

/-- Completion with writes in range leaves consistent results. -/
theorem resultInv_complete {s : State} (h : ResultInv s) : ResultInv (complete s) := by
  rcases complete_cases s with ⟨_, hc⟩ | ⟨c, k, _, hc⟩ | ⟨c, ws, hflight, hc⟩ <;> rw [hc]
  · exact h
  · exact resultInv_of_kept h rfl ⟨rfl, rfl, rfl, rfl, rfl, rfl, rfl⟩ (fun _ _ => rfl) nofun
  · have hws := h.inflight c ws hflight
    exact {
      legal := h.legal
      code := code_commit h hws rfl rfl rfl
      verify := verify_commit h hws rfl rfl
      rctr := getD_of_forall h.rctr hws.rctr
      rem := getD_of_forall (P := fun n => n.toNat ≤ 1000 * (2 ^ 31 - 1)) h.rem fun n hn => (hws.rem n hn).2
      dout := dout_commit (s := s) h hws rfl rfl
      inflight := nofun }

theorem stepInvariant_resultInv : StepInvariant ResultInv where
  kept hkept h := resultInv_of_kept h hkept.cfg hkept.results (fun a _ => congrArg (memGet · a) hkept.mem)
    (hkept.inflight ▸ h.inflight)
  complete h := resultInv_complete h
  reset h := resultInv_resetBlock h.legal
  drop h := resultInv_of_kept h rfl ⟨rfl, rfl, rfl, rfl, rfl, rfl, rfl⟩ (fun _ _ => rfl) h.inflight
  issueOk hres h := resultInv_of_kept h rfl ⟨rfl, rfl, rfl, rfl, rfl, rfl, rfl⟩ (fun _ _ => rfl) (by
    rintro _ _ ⟨⟩
    exact writesOk_of_commandResult hres)
  issueError h := resultInv_of_kept h rfl ⟨rfl, rfl, rfl, rfl, rfl, rfl, rfl⟩ (fun _ _ => rfl) nofun
  writeReg _ h := resultInv_of_kept h (writeReg_cfg _ _ _) (resultsKept_writeReg _ _ _)
    (fun a _ => congrArg (memGet · a) (writeReg_mem _ _ _)) fun c ws hf => h.inflight c ws ((writeReg_inflight _ _ _).symm.trans hf)
  writeBuf hb hk halign h := resultInv_of_kept h rfl ⟨rfl, rfl, rfl, rfl, rfl, rfl, rfl⟩
    (fun _ ha => memGet_writeWord_output h.legal hb hk halign _ _ ha) h.inflight

end Sys2Proof.Machine

open Sys2Proof Sys2Proof.Machine

/-- Settles O52: a command's writes are in range when it is issued, committing them leaves consistent results, and no other
operation reaches a result or an output window. -/
theorem stepKeepsResultsConsistent : Obligations.StepKeepsResultsConsistent :=
  fun _ _ h hstep => stepInvariant_resultInv.step h hstep

/-- Settles O53: the state of reset is its own reset, with the default configuration. -/
theorem resetMeetsTheInvariants : Obligations.ResetMeetsTheInvariants :=
  have hlegal : State.reset.cfg.legal := by decide
  ⟨reset_mem_wf, statusInv_of_idle (Nat.zero_le 8) rfl, resultInv_resetBlock hlegal, hlegal, rfl⟩

end

section
/-! Runs of the machine: a waiting host, the driver's refusals, and a timeStep call from its first write to the value it
returns (30_encoding.md R81-R84; 70_reset_and_hazards.md R236). -/

namespace Sys2Proof.Machine

/-! ### Runs -/

/-- `n` steps of the machine, as the host's interface runs them. -/
def runSteps (n : Nat) (s : State) : Host.Outcome State Fault Refusal := Host.Core.run Sys2Proof.core n s

theorem runSteps_succ {s t : State} (h : step s = .next t) (n : Nat) : runSteps (n + 1) s = runSteps n t := by
  have hcore : Sys2Proof.core.step s = .next t := h
  simp only [runSteps, Host.Core.run, hcore]
  rfl

/-- A run goes on from where a shorter one ended. -/
theorem runSteps_add {m : Nat} {s t : State} (h : runSteps m s = .next t) (n : Nat) :
    runSteps (m + n) s = runSteps n t := by
  induction m generalizing s with
  | zero =>
    cases h
    rw [Nat.zero_add]
  | succ m ih =>
    rw [Nat.add_right_comm]
    cases hstep : step s with
    | next u => rw [runSteps_succ hstep, ih ((runSteps_succ hstep m).symm.trans h)]
    | fault f =>
      have hcore : Sys2Proof.core.step s = .fault f := hstep
      simp only [runSteps, Host.Core.run, hcore, reduceCtorEq] at h
    | refused r =>
      have hcore : Sys2Proof.core.step s = .refused r := hstep
      simp only [runSteps, Host.Core.run, hcore, reduceCtorEq] at h

/-! ### Waiting -/

/-- One poll of a waiting host: a step of the delay has passed, and STATUS joins the observation. -/
def polled (s : State) : State := { s with delay := s.delay - 1, observed := s.observed ++ [statusWord s] }

/-- While the delay has not passed, a waiting host's step is a poll, after which WAIT is still first in its list. -/
theorem step_of_wait {s : State} {rest : List HostOp} (hb : s.busy = true) (hd : 0 < s.delay)
    (hh : s.host = .wait :: rest) : step s = .next (polled s) := by
  have hview : hostView s rest = { s with delay := s.delay - 1, host := rest } := by
    simp only [hostView, tick, hb, if_true]
  have hbusy : ({ s with delay := s.delay - 1, host := rest } : State).busy = true := hb
  rw [step_of_hostTurn (sequencerTurn_eq_false (.inr hd)) hh, hview, runHostOp_wait, hbusy, if_pos rfl, ← hh]
  rfl

/-- Completion depends on neither the delay nor the observation, and leaves the latter alone. -/
theorem complete_polled {s : State} {c : Word} {o : CmdOutcome} (hf : s.inflight = some (c, o)) :
    complete (polled s) = { complete s with observed := s.observed ++ [statusWord s] } := by
  simp only [complete, polled, hf]
  cases o <;> rfl

/-- Completion leaves the configuration and the host's lists alone. -/
theorem hostSideKept_complete (s : State) : HostSideKept s (complete s) := by
  rcases complete_cases s with ⟨_, hc⟩ | ⟨c, k, _, hc⟩ | ⟨c, ws, _, hc⟩ <;> rw [hc] <;> exact ⟨rfl, rfl, rfl, rfl⟩

/-- A waiting host polls once a step of the delay, and then the command completes. -/
theorem runSteps_wait {d : Nat} {s : State} {c : Word} {o : CmdOutcome} {rest : List HostOp}
    (hf : s.inflight = some (c, o)) (hh : s.host = .wait :: rest) (hd : s.delay = d) :
    runSteps (d + 1) s =
      .next { complete s with observed := s.observed ++ List.replicate d (statusWord s) } := by
  induction d generalizing s with
  | zero =>
    rw [runSteps_succ (step_of_inflight hf hd), List.replicate_zero, List.append_nil,
      ← (hostSideKept_complete s).observed]
    rfl
  | succ d ih =>
    have hb : s.busy = true := congrArg Option.isSome hf
    have hrun := ih (s := polled s) hf hh (congrArg (· - 1) hd)
    rw [complete_polled hf] at hrun
    have hobs : s.observed ++ List.replicate (d + 1) (statusWord s) =
        s.observed ++ [statusWord s] ++ List.replicate d (statusWord s) := List.append_cons _ _ _
    rw [runSteps_succ (step_of_wait hb (by omega) hh), hrun, hobs]
    rfl

theorem complete_done {s : State} {c : Word} {o : CmdOutcome} (hf : s.inflight = some (c, o)) :
    (complete s).busy = false ∧ (complete s).done = true := by
  have hc : complete s = { applyOutcome o s with done := true, inflight := none, delay := 0 } := by
    simp only [complete, hf]
  rw [hc]
  exact ⟨rfl, rfl⟩

/-! ### The driver's refusals -/

/-- The driver refuses an argument (R83). -/
def Refused {α : Type} (x : Except ApiArg α) : Prop := ∃ e, x = .error e

/-- Where what follows is refused whatever the argument was, a sequence is refused at its first part or there. -/
theorem refused_bind_iff {α β : Type} {x : Except ApiArg α} {f : α → Except ApiArg β} {P : Prop}
    (hf : ∀ a, Refused (f a) ↔ P) : Refused (x >>= f) ↔ Refused x ∨ P := by
  cases x with
  | error e => exact iff_of_true ⟨e, rfl⟩ (.inl ⟨e, rfl⟩)
  | ok a => exact (hf a).trans ⟨.inr, fun h => h.resolve_left nofun⟩

theorem refused_pure {α : Type} (a : α) : Refused (pure a) ↔ False := ⟨nofun, nofun⟩

theorem refused_encodeSecret {p : Params} {sec : Bytes} : Refused (encodeSecret p sec) ↔ sec.length > p.secretMax := by
  unfold Refused encodeSecret
  split <;> simp_all

theorem refused_encodeCounter {c : Int} : Refused (encodeCounter c) ↔ c ≥ 2 ^ 64 := by
  unfold Refused encodeCounter
  split
  · simp_all
  · split <;> simp_all

theorem refused_encodePeriod {p : Int} : Refused (encodePeriod p) ↔ p ≥ 2 ^ 31 := by
  unfold Refused encodePeriod
  split
  · simp; omega
  · split <;> simp <;> omega

theorem refused_encodeTimestamp {t : Int} : Refused (encodeTimestamp t) ↔ t < -(2 ^ 63) ∨ t ≥ 2 ^ 63 := by
  unfold Refused encodeTimestamp
  split <;> simp <;> omega

theorem refused_encodeWindow {w : Int} : Refused (encodeWindow w) ↔ w < 0 ∨ w ≥ 2 ^ 32 := by
  unfold Refused encodeWindow
  split <;> simp <;> omega

end Sys2Proof.Machine

open Sys2Proof Sys2Proof.Machine

/-- Settles O57: each step of the delay is one poll of a STATUS that the delay does not show in, and then the completion. -/
theorem waitingEndsInCompletion : Obligations.WaitingEndsInCompletion := by
  intro s c o rest hf hh
  obtain ⟨hbusy, hdone⟩ := complete_done hf
  exact ⟨_, runSteps_wait hf hh rfl, hbusy, hdone, rfl, rfl⟩

/-- Settles O58: a call is refused exactly when one of the arguments it encodes is. -/
theorem driverRefusesExactlyOutOfRange : Obligations.DriverRefusesExactlyOutOfRange := by
  intro p sec tok tag counter digits period ts window
  refine ⟨?_, ?_, ?_, ?_, ?_, ?_, ⟨_, rfl⟩, ⟨_, rfl⟩⟩
  · refine (refused_bind_iff fun _ => refused_bind_iff fun _ => refused_pure _).trans ?_
    rw [refused_encodeSecret, refused_encodeCounter, or_false]
  · refine (refused_bind_iff fun _ => refused_bind_iff fun _ => refused_bind_iff fun _ => refused_pure _).trans ?_
    rw [refused_encodeSecret, refused_encodeCounter, refused_encodeWindow, or_false]
  · refine (refused_bind_iff fun _ => refused_bind_iff fun _ => refused_bind_iff fun _ => refused_pure _).trans ?_
    rw [refused_encodeSecret, refused_encodePeriod, refused_encodeTimestamp, or_false]
  · refine (refused_bind_iff fun _ => refused_bind_iff fun _ => refused_bind_iff fun _ => refused_bind_iff fun _ =>
      refused_pure _).trans ?_
    rw [refused_encodeSecret, refused_encodePeriod, refused_encodeTimestamp, refused_encodeWindow, or_false, or_assoc]
  · refine (refused_bind_iff fun _ => refused_bind_iff fun _ => refused_pure _).trans ?_
    rw [refused_encodePeriod, refused_encodeTimestamp, or_false]
  · refine (refused_bind_iff fun _ => refused_bind_iff fun _ => refused_pure _).trans ?_
    rw [refused_encodePeriod, refused_encodeTimestamp, or_false]

end

section
/-! A timeStep call of the driver, from its first write to the value it returns (30_encoding.md R83, R84). -/

namespace Sys2Proof.Machine

/-! ### The arguments -/

/-- A positive period in range is written as it is (R83). -/
theorem encodePeriod_of_pos {p : Int} (hlo : 1 ≤ p) (hhi : p < 2 ^ 31) :
    ∃ w, encodePeriod p = .ok w ∧ w.toInt = p := by
  refine ⟨BitVec.ofInt 32 p, ?_, BitVec.toInt_ofInt_eq_self (by decide) (by omega) (by omega)⟩
  rw [encodePeriod, if_neg (by omega), if_neg (by omega)]

/-- A period that is not positive is written as one that is not, also below the register's range (R83). -/
theorem encodePeriod_of_nonpos {p : Int} (h : p ≤ 0) : ∃ w, encodePeriod p = .ok w ∧ w.toInt ≤ 0 := by
  by_cases hlow : p < -(2 ^ 31)
  · exact ⟨0, by rw [encodePeriod, if_neg (by omega), if_pos hlow], by decide⟩
  · refine ⟨BitVec.ofInt 32 p, by rw [encodePeriod, if_neg (by omega), if_neg hlow], ?_⟩
    rwa [BitVec.toInt_ofInt_eq_self (by decide) (by omega) (by omega)]

theorem encodeTimestamp_of_range {t : Int} (hlo : -(2 ^ 63) ≤ t) (hhi : t < 2 ^ 63) :
    ∃ w, encodeTimestamp t = .ok w ∧ w.toInt = t := by
  refine ⟨BitVec.ofInt 64 t, ?_, BitVec.toInt_ofInt_eq_self (by decide) (by omega) (by omega)⟩
  rw [encodeTimestamp, if_neg (by omega)]

theorem append_halves (x : BitVec 64) : x.extractLsb' 32 32 ++ x.extractLsb' 0 32 = x :=
  BitVec.extractLsb'_append_extractLsb' (w := 32) (len := 32)

/-! ### The accesses of the call -/

/-- A run is its first step and the rest. -/
theorem runSteps_of_step {s t u : State} {n : Nat} (hstep : step s = .next t) (hrun : runSteps n t = .next u) :
    runSteps (n + 1) s = .next u := (runSteps_succ hstep n).trans hrun


/-- The operands of a timeStep call are in their registers, and the host still waits and reads back. -/
def timeOperandsSet (s : State) (period : Word) (ts : BitVec 64) (rest : List HostOp) : State :=
  { s with period := period, tsLo := ts.extractLsb' 0 32, tsHi := ts.extractLsb' 32 32, host := rest }

/-- A driver's write of an operand register of an idle block. -/
theorem step_of_opWr {s : State} {r : Reg} {v : Word} {rest : List HostOp} (hb : s.busy = false) (hr : r ≠ .cmd)
    (hh : s.host = opWr r v :: rest) : step s = .next (writeReg r v { s with host := rest }) :=
  (step_of_idle hb hh).trans (hostWrite_reg (busTarget_reg s.cfg r) hb hr)

/-- A driver's ISSUE of a well-formed command to an idle block. -/
theorem step_of_opIssue {s : State} {i : Instr} {rest : List HostOp} (hb : s.busy = false) (hi : i.WellFormed)
    (hh : s.host = opIssue i :: rest) : step s = exec i { s with host := rest } :=
  step_writes_command hb hh (decode_encode hi)

/-- The call's first five steps encode its arguments, write them, and issue the command. -/
theorem runSteps_timeStep_issue {s u : State} {ts period : Int} {per : Word} {stamp : BitVec 64}
    (hb : s.busy = false) (hh : s.host = [.call (.timeStep ts period)]) (hper : encodePeriod period = .ok per)
    (hts : encodeTimestamp ts = .ok stamp)
    (hexec : exec (.tstep 0 0) (timeOperandsSet s per stamp [.wait, .collect (.timeStep ts period)]) = .next u) :
    runSteps 5 s = .next u := by
  have hops : expandCall s.cfg (.timeStep ts period) = .ok (opTime per stamp ++ [opIssue (.tstep 0 0), .wait]) := by
    simp only [expandCall, hper, hts]
    rfl
  refine runSteps_of_step ((step_of_idle hb hh).trans (runHostOp_call hops)) ?_
  refine runSteps_of_step (step_of_opWr hb (by decide) rfl) ?_
  refine runSteps_of_step (step_of_opWr hb (by decide) rfl) ?_
  refine runSteps_of_step (step_of_opWr hb (by decide) rfl) ?_
  have hissue := step_of_opIssue (i := .tstep 0 0) (rest := [.wait, .collect (.timeStep ts period)])
    (s := timeOperandsSet s per stamp [opIssue (.tstep 0 0), .wait, .collect (.timeStep ts period)]) hb (by decide) rfl
  exact runSteps_of_step (hissue.trans hexec) rfl

/-! ### The value read back -/

theorem extractLsb'_statusWord (s : State) : (statusWord s).extractLsb' 4 4 = s.err := by
  have hbusy := s.busy.toNat_lt
  have hdone := s.done.toNat_lt
  have herr := s.err.isLt
  apply BitVec.eq_of_toNat_eq
  rw [BitVec.extractLsb'_toNat, toNat_statusWord, Nat.shiftRight_eq_div_pow]
  omega

/-- A call whose command ended with an error returns its code, having read STATUS. -/
theorem collect_of_err {s : State} (h : s.err ≠ 0) (c : Call) :
    collect c s = .ok (.failed s.err, { s with observed := s.observed ++ [statusWord s] }) := by
  simp only [collect, rdRegs_status, List.headD_cons, extractLsb'_statusWord, h, ne_eq, not_false_eq_true, if_true]

/-- A timeStep call whose command ended without error returns RCTR. -/
theorem collect_timeStep {s : State} (h : s.err = 0) (ts period : Int) :
    ∃ obs, collect (.timeStep ts period) s = .ok (.step s.rctr.toInt, { s with observed := obs }) := by
  have hwide (s : State) : wideOf [readReg .rctrLo s, readReg .rctrHi s] = s.rctr := append_halves s.rctr
  simp only [collect, rdRegs_status, List.headD_cons, extractLsb'_statusWord, h, ne_eq, not_true_eq_false, if_false,
    collectOk, rdRegs_two, Except.map, hwide]
  exact ⟨_, rfl⟩

/-- The state once the command in flight in `u` has completed, the host still has `ops` to do and has observed `obs`. -/
def afterCompletion (u : State) (ops : List HostOp) (obs : List Word) : State :=
  { complete u with host := ops, observed := obs }

theorem collect_afterCompletion_of_err {u : State} (h : (complete u).err ≠ 0) (c : Call) (ops : List HostOp)
    (obs : List Word) :
    ∃ obs', collect c (afterCompletion u ops obs) = .ok (.failed (complete u).err, afterCompletion u ops obs') :=
  ⟨_, collect_of_err (s := afterCompletion u ops obs) h c⟩

theorem collect_afterCompletion_timeStep {u : State} (h : (complete u).err = 0) (ts period : Int) (ops : List HostOp)
    (obs : List Word) : ∃ obs', collect (.timeStep ts period) (afterCompletion u ops obs) =
      .ok (.step (complete u).rctr.toInt, afterCompletion u ops obs') :=
  collect_timeStep (s := afterCompletion u ops obs) h ts period

/-- From an issued command on, a host that waits and reads back ends with the command completed and its result returned. -/
theorem runSteps_wait_collect {u : State} {w : Word} {o : CmdOutcome} {c : Call} {r : CallResult}
    (hf : u.inflight = some (w, o)) (hh : u.host = [.wait, .collect c])
    (hcollect : ∀ obs, ∃ obs', collect c (afterCompletion u [] obs) = .ok (r, afterCompletion u [] obs')) :
    ∃ n obs, runSteps n u = .next { afterCompletion u [] obs with returned := (complete u).returned ++ [r] } := by
  have hidle (ops : List HostOp) (obs : List Word) : (afterCompletion u ops obs).busy = false := (complete_done hf).1
  have hwait : runSteps (u.delay + 1) u = .next (afterCompletion u [.wait, .collect c]
      (u.observed ++ List.replicate u.delay (statusWord u))) := by
    rw [runSteps_wait hf hh rfl, afterCompletion, ← (hostSideKept_complete u).host.trans hh]
  have hpoll (obs : List Word) : step (afterCompletion u [.wait, .collect c] obs) =
      .next (afterCompletion u [.collect c] (obs ++ [statusWord (afterCompletion u [.collect c] obs)])) :=
    (step_of_idle (hidle _ obs) rfl).trans (runHostOp_wait_idle (hidle [.collect c] obs))
  obtain ⟨obs, hcol⟩ := hcollect _
  refine ⟨u.delay + 1 + 2, obs, (runSteps_add hwait 2).trans (runSteps_of_step (hpoll _) ?_)⟩
  exact runSteps_of_step ((step_of_idle (hidle [.collect c] _) rfl).trans (runHostOp_collect hcol)) rfl

/-- A timeStep call of an idle block runs its command, and ends with what the completed command is read back as. -/
theorem runSteps_timeStep {s : State} {ts period : Int} {per : Word} {stamp : BitVec 64} {r : CallResult}
    (hb : s.busy = false) (hh : s.host = [.call (.timeStep ts period)]) (hper : encodePeriod period = .ok per)
    (hts : encodeTimestamp ts = .ok stamp) {u : State}
    (hexec : exec (.tstep 0 0) (timeOperandsSet s per stamp [.wait, .collect (.timeStep ts period)]) = .next u)
    (hcollect : ∀ obs, ∃ obs', collect (.timeStep ts period) (afterCompletion u [] obs) =
      .ok (r, afterCompletion u [] obs')) :
    ∃ n v, runSteps n s = .next v ∧ RunEnded v ∧ v.err = (complete u).err ∧ v.returned = s.returned ++ [r] := by
  have hissued := exec_issuedFrom (s := timeOperandsSet s per stamp [.wait, .collect (.timeStep ts period)]) hb hexec
  obtain ⟨⟨w, o⟩, hf⟩ := Option.isSome_iff_exists.mp hissued.busy
  obtain ⟨n, obs, hrun⟩ := runSteps_wait_collect hf hissued.hostSide.host hcollect
  have hidle : (complete u).inflight = none := Option.not_isSome_iff_eq_none.mp
    (Bool.eq_false_iff.mp (complete_done hf).1)
  have hreturned : (complete u).returned = s.returned :=
    (hostSideKept_complete u).returned.trans hissued.hostSide.returned
  exact ⟨5 + n, _, (runSteps_add (runSteps_timeStep_issue hb hh hper hts hexec) n).trans hrun, ⟨rfl, hidle⟩, rfl,
    congrArg (· ++ [r]) hreturned⟩

end Sys2Proof.Machine

open Sys2Proof Sys2Proof.Machine

/-- Settles O59: the driver writes the arguments as they are, the command's floor goes to RCTR at completion, and the readback
returns it. -/
theorem timeStepCallReturnsTheFloor : Obligations.TimeStepCallReturnsTheFloor := by
  intro s ts period hb hh hplo hphi htlo hthi
  obtain ⟨per, hper, hpint⟩ := encodePeriod_of_pos hplo hphi
  obtain ⟨stamp, hts, htint⟩ := encodeTimestamp_of_range htlo hthi
  have hpos : 0 < per.toInt := by omega
  have hexec := exec_of_ok (i := .tstep 0 0)
    (s := timeOperandsSet s per stamp [.wait, .collect (.timeStep ts period)]) hb (tstepResult_ok.mpr ⟨hpos, rfl⟩)
  have hstamp : timestampMillis (timeOperandsSet s per stamp [.wait, .collect (.timeStep ts period)]) = stamp.toInt :=
    congrArg BitVec.toInt (append_halves stamp)
  have hstep : (BitVec.ofInt 64 (timeStep (timestampMillis (timeOperandsSet s per stamp
      [.wait, .collect (.timeStep ts period)])) per.toInt)).toInt = ts / (1000 * period) := by
    rw [hstamp, toInt_ofInt_timeStep stamp hpos, hpint, htint, timeStep]
  obtain ⟨n, v, hrun, hended, herr, hreturned⟩ := runSteps_timeStep hb hh hper hts hexec
    (collect_afterCompletion_timeStep rfl ts period [])
  exact ⟨n, v, hrun, hended, herr, hreturned.trans (congrArg (fun n => s.returned ++ [.step n]) hstep)⟩

/-- Settles O60: the driver writes a period that is not positive, so the command ends with InvalidPeriod, whose code the
readback returns. -/
theorem timeStepCallReportsBadPeriod : Obligations.TimeStepCallReportsBadPeriod := by
  intro s ts period hb hh hp htlo hthi
  obtain ⟨per, hper, hneg⟩ := encodePeriod_of_nonpos hp
  obtain ⟨stamp, hts, _⟩ := encodeTimestamp_of_range htlo hthi
  have hexec := exec_of_err (i := .tstep 0 0)
    (s := timeOperandsSet s per stamp [.wait, .collect (.timeStep ts period)]) hb (tstepResult_invalidPeriod hneg)
  have hcollect := collect_afterCompletion_of_err (u := issued (encode (.tstep 0 0)) (.error .invalidPeriod)
    (timeOperandsSet s per stamp [.wait, .collect (.timeStep ts period)])) (errCode_ne_zero .invalidPeriod)
    (.timeStep ts period) []
  obtain ⟨n, v, hrun, hended, _, hreturned⟩ := runSteps_timeStep hb hh hper hts hexec hcollect
  exact ⟨n, v, hrun, hended, hreturned⟩

end
